-- ==== Sys2Proof/Word.lean ====
section
/-! DEFINITION. Bytes and byte strings (R12 of 00_scope.md). -/

namespace Sys2Proof

/-- A byte, an integer in `0..255` (R12). -/
abbrev Byte := BitVec 8

/-- A byte string; index 0 is the byte the transport carries first (R12). -/
abbrev Bytes := List Byte

/-- The string of `k` zero bytes, the spec's `0^k` (R12). -/
def zeros (k : Nat) : Bytes := List.replicate k 0

end Sys2Proof
end

