-- ==== Sys2Proof/Machine/Bytes.lean ====
section
/-! DEFINITION. Integers of byte strings and the bytewise operations (R12, R13, R15 of 00_scope.md). -/

namespace Sys2Proof.Machine

/-- The spec's `int(B)`: the first byte is the most significant (R13). -/
def intOf (b : Bytes) : Nat := b.foldl (fun acc x => acc * 256 + x.toNat) 0

/-- The spec's `bytes_k(v)`: the `k`-byte string `B` with `int(B) = v mod 2^(8k)` (R13). -/
def bytesOf : Nat → Nat → Bytes
  | 0, _ => []
  | k + 1, v => BitVec.ofNat 8 (v / 256 ^ k) :: bytesOf k v

/-- `A xor B` of two strings of the same length (R12). -/
def xorB (a b : Bytes) : Bytes := List.zipWith (fun x y => x ^^^ y) a b

/-- Bytes `i, .., j-1` of a string, the spec's `B[i:j]` (R12). -/
def slice (b : Bytes) (i j : Nat) : Bytes := (b.drop i).take (j - i)

/-- A string cut or filled with zero bytes to `n` bytes; the identity on strings of `n` bytes. It makes
the block cipher functions answer a block whatever they are given (R9: "returning a `BS(cipher)`-byte block"). -/
def fit (n : Nat) (b : Bytes) : Bytes := (b ++ zeros n).take n

/-- `settop(B, t)`: bit 7 of `B[0]` becomes `t` (R15). -/
def settop : Bytes → Bool → Bytes
  | [], _ => []
  | x :: r, true => (x ||| 0x80#8) :: r
  | x :: r, false => (x &&& 0x7F#8) :: r

/-- The whole string as one big-endian number, plus one, wrapping: `incr_full` on a block (R146). -/
def incrFull (b : Bytes) : Bytes := bytesOf b.length (intOf b + 1)

/-- `incr_l(B)`: the first `h = len/2` bytes are incremented modulo `2^(8h)`, the rest is kept (R184). -/
def incrL (b : Bytes) : Bytes := incrFull (b.take (b.length / 2)) ++ b.drop (b.length / 2)

/-- `incr_r(B)`: the last `h = len/2` bytes are incremented modulo `2^(8h)`, the first are kept (R185). -/
def incrR (b : Bytes) : Bytes := b.take (b.length / 2) ++ incrFull (b.drop (b.length / 2))

end Sys2Proof.Machine
end

