-- ==== Sys2Proof/Config.lean ====
section
/-! DEFINITION. The cipher variants and the parameters of the unit (R5, R7, R9, R10 of 00_scope.md). -/

namespace Sys2Proof

/-- The two cipher variants, codes 0 and 1 (R5). -/
inductive Cipher where
  | magma
  | grasshopper
  deriving DecidableEq, Repr

/-- An instantiation of the block cipher parameter `BC` (R9, 92_eei_decisions.md D5).
`std` is the standardized pair (93_implementation_defined.md G1; PRESUMED, log 3), `toy` the test
device of 95_test_vectors.md section 2, and `other n` an uninterpreted pair of functions, one pair for
each `n` (DESIGN CHOICE, log 4): a statement about every instantiation covers functions nothing is
known of. -/
inductive BlockCipher where
  | std
  | toy
  | other (n : Nat)
  deriving DecidableEq, Repr

/-- The parameters of the unit that rules read and no command writes (log 1). `NCTX`, the third `OPEN`
parameter (D2), is the length of the slot file. -/
structure Config where
  /-- the block cipher parameter `BC` (R9) -/
  bc     : BlockCipher
  /-- the constant string `ACPKM_D`, 32 bytes (R10) -/
  acpkmD : Bytes
  deriving DecidableEq, Repr

/-- The encryption function of the uninterpreted instantiation `n` (log 4): no body, so nothing is known of it. -/
opaque Config.otherE (n : Nat) (c : Cipher) (k x : Bytes) : Bytes

/-- The decryption function of the uninterpreted instantiation `n` (log 4): no body. -/
opaque Config.otherD (n : Nat) (c : Cipher) (k y : Bytes) : Bytes

/-- The default number of context slots (R7; `OPEN` in D2). -/
def Config.defaultNctx : Nat := 4

/-- The unit as the source means it: the standardized ciphers and `ACPKM_D = 80 81 .. 9f`
(R9, R10; 93_implementation_defined.md G1, G2; PRESUMED, log 2). -/
def Config.standard : Config :=
  { bc := .std, acpkmD := (List.range 32).map fun i => BitVec.ofNat 8 (0x80 + i) }

end Sys2Proof
end

