-- ==== Sys2Proof/Machine/Params.lean ====
section
/-! DEFINITION. The fixed sizes and constants of R5, R6 and R7 of 00_scope.md. -/

namespace Sys2Proof.Machine

/-- Block size `BS` in bytes (R5). -/
def bs : Cipher → Nat
  | .magma => 8
  | .grasshopper => 16

/-- The half-IV size `BS/2` (R5), also the `h` of 43_mgm.md. -/
def halfBs (c : Cipher) : Nat := bs c / 2

/-- Key size `KEYLEN` in bytes (R5). -/
def keyLen : Nat := 32

/-- `J = KEYLEN/BS`: blocks in a key (R5). -/
def blocksPerKey (c : Cipher) : Nat := keyLen / bs c

/-- The code of a cipher in the `A` field and in `CTX.QUERY` (R5). -/
def cipherCode : Cipher → Nat
  | .magma => 0
  | .grasshopper => 1

/-- The low-order reduction word of the field, equal to the doubling constant `Rb` (R6). -/
def reduction : Cipher → Nat
  | .magma => 0x1B
  | .grasshopper => 0x87

/-- `MGM_LIMIT = 2^(BS*4-3)` bytes (R6). -/
def mgmLimit (c : Cipher) : Nat := 2 ^ (bs c * 4 - 3)

/-- `MAXPAY`, the largest payload of one command (R7). -/
def maxPay : Nat := 2 ^ 32 - 1

end Sys2Proof.Machine
end

