-- ==== Sys2Proof/Syntax.lean ====
section
/-! DEFINITION. The commands of the unit: one constructor per row of the opcode map (R76 of 30_encoding.md). -/

namespace Sys2Proof

/-- What a command frame carries beside its opcode (R71, R72): there is one command format for all rows
(R70). The reserved byte is not here: the decoder matches it (R77). -/
structure Fields where
  /-- `HDR[23:20]`, the context slot -/
  ctx     : BitVec 4
  /-- `HDR[19:16]`, the cipher code or the source slot -/
  a       : BitVec 4
  /-- `HDR[15:8]`, the tag or MAC length -/
  imm     : BitVec 8
  /-- the payload; its length is the `PLEN` word -/
  payload : Bytes
  deriving DecidableEq, Repr

/-- The spec's `plen = len(payload)` (R14). -/
abbrev Fields.plen (f : Fields) : Nat := f.payload.length

/-- The 27 commands, in the table's order (R76). -/
inductive Instr where
  | nop        (f : Fields)
  | bcSetkey   (f : Fields)
  | bcEnc      (f : Fields)
  | bcDec      (f : Fields)
  | gfMul64    (f : Fields)
  | gfMul128   (f : Fields)
  | ctrSetkey  (f : Fields)
  | ctrSetiv   (f : Fields)
  | ctrSection (f : Fields)
  | ctrCrypt   (f : Fields)
  | acpkmMesh  (f : Fields)
  | mgmInit    (f : Fields)
  | mgmSetiv   (f : Fields)
  | mgmTaglen  (f : Fields)
  | mgmAad     (f : Fields)
  | mgmEnc     (f : Fields)
  | mgmDec     (f : Fields)
  | mgmFinish  (f : Fields)
  | mgmVerify  (f : Fields)
  | omacInit   (f : Fields)
  | omacInita  (f : Fields)
  | omacMaclen (f : Fields)
  | omacUpdate (f : Fields)
  | omacFinal  (f : Fields)
  | ctxClone   (f : Fields)
  | ctxDestroy (f : Fields)
  | ctxQuery   (f : Fields)
  deriving DecidableEq, Repr

/-- The fields a command carries. -/
def Instr.fields : Instr → Fields
  | .nop f | .bcSetkey f | .bcEnc f | .bcDec f | .gfMul64 f | .gfMul128 f
  | .ctrSetkey f | .ctrSetiv f | .ctrSection f | .ctrCrypt f | .acpkmMesh f
  | .mgmInit f | .mgmSetiv f | .mgmTaglen f | .mgmAad f | .mgmEnc f | .mgmDec f | .mgmFinish f | .mgmVerify f
  | .omacInit f | .omacInita f | .omacMaclen f | .omacUpdate f | .omacFinal f
  | .ctxClone f | .ctxDestroy f | .ctxQuery f => f

end Sys2Proof
end

