-- ==== Sys2Proof/Machine/Static.lean ====
section
/-! DEFINITION. The opcode map's columns (R76) and the static checks of a command (R79 of 30_encoding.md). -/

namespace Sys2Proof.Machine

/-- What the `A` field of a command carries (R71, column "A" of R76). -/
inductive AUse where
  | zero
  | cipher
  | slot
  deriving DecidableEq, Repr

/-- One row of the opcode map (R76): whether `CTX` names a slot, what `A` carries, whether `IMM` carries
an operand, and the payload length where it does not depend on a context. -/
structure Row where
  usesSlot : Bool
  aUse     : AUse
  usesImm  : Bool
  fixedLen : Option Nat
  deriving DecidableEq, Repr

/-- The opcode map (R76; the fixed lengths are those R79 (5) lists). -/
def rowOf : Instr → Row
  | .nop _        => ⟨false, .zero, false, some 0⟩
  | .bcSetkey _   => ⟨true, .cipher, false, some 32⟩
  | .bcEnc _      => ⟨true, .zero, false, none⟩
  | .bcDec _      => ⟨true, .zero, false, none⟩
  | .gfMul64 _    => ⟨false, .zero, false, some 16⟩
  | .gfMul128 _   => ⟨false, .zero, false, some 32⟩
  | .ctrSetkey _  => ⟨true, .cipher, false, some 32⟩
  | .ctrSetiv _   => ⟨true, .zero, false, none⟩
  | .ctrSection _ => ⟨true, .zero, false, some 4⟩
  | .ctrCrypt _   => ⟨true, .zero, false, none⟩
  | .acpkmMesh _  => ⟨true, .zero, false, some 0⟩
  | .mgmInit _    => ⟨true, .cipher, false, some 32⟩
  | .mgmSetiv _   => ⟨true, .zero, false, none⟩
  | .mgmTaglen _  => ⟨true, .zero, true, some 0⟩
  | .mgmAad _     => ⟨true, .zero, false, none⟩
  | .mgmEnc _     => ⟨true, .zero, false, none⟩
  | .mgmDec _     => ⟨true, .zero, false, none⟩
  | .mgmFinish _  => ⟨true, .zero, false, some 0⟩
  | .mgmVerify _  => ⟨true, .zero, false, none⟩
  | .omacInit _   => ⟨true, .cipher, false, some 32⟩
  | .omacInita _  => ⟨true, .cipher, false, some 40⟩
  | .omacMaclen _ => ⟨true, .zero, true, some 0⟩
  | .omacUpdate _ => ⟨true, .zero, false, none⟩
  | .omacFinal _  => ⟨true, .zero, false, some 0⟩
  | .ctxClone _   => ⟨true, .slot, false, some 0⟩
  | .ctxDestroy _ => ⟨true, .zero, false, some 0⟩
  | .ctxQuery _   => ⟨true, .zero, false, some 0⟩

/-- The cipher a code stands for (R5); codes above 1 stand for none. -/
def cipherOf (a : BitVec 4) : Option Cipher :=
  if a = 0 then some .magma else if a = 1 then some .grasshopper else none

/-- `N`, the OMAC section size of an `OMAC.INITA` payload (R247). -/
def initaN (p : Bytes) : Nat := intOf (slice p 32 36)

/-- `T*`, the master's section size of an `OMAC.INITA` payload (R247). -/
def initaT (p : Bytes) : Nat := intOf (slice p 36 40)

/-- R79 (2): a slot below `NCTX`, or 0 where no slot is used. -/
def ctxOk (nctx : Nat) (r : Row) (f : Fields) : Bool :=
  if r.usesSlot then f.ctx.toNat < nctx else f.ctx == 0

/-- R79 (3): the range of the `A` field. -/
def aOk (nctx : Nat) (r : Row) (f : Fields) : Bool :=
  match r.aUse with
  | .zero => f.a == 0
  | .cipher => f.a.toNat ≤ 1
  | .slot => f.a.toNat < nctx

/-- R79 (4): `IMM` is 0 where it carries no operand. -/
def immOk (r : Row) (f : Fields) : Bool := r.usesImm || f.imm == 0

/-- R79 (5): the payload length where it is fixed. -/
def plenOk (r : Row) (f : Fields) : Bool :=
  match r.fixedLen with
  | some n => f.plen == n
  | none => true

/-- R79 (6): for `OMAC.INITA` both section sizes are multiples of `BS(A)` (R247). -/
def sectionsOk : Instr → Bool
  | .omacInita f =>
    match cipherOf f.a with
    | some c => initaN f.payload % bs c == 0 && initaT f.payload % bs c == 0
    | none => false
  | _ => true

/-- The static checks (2) to (6) of R79, in its order; check (1), `RSV`, is the decoder's (R77). -/
def staticOk (nctx : Nat) (i : Instr) : Bool :=
  ctxOk nctx (rowOf i) i.fields && aOk nctx (rowOf i) i.fields && immOk (rowOf i) i.fields
    && plenOk (rowOf i) i.fields && sectionsOk i

end Sys2Proof.Machine
end

