-- ==== Sys2Proof/WellFormed.lean ====
section
/-! DEFINITION. Well-formed commands: those a frame can carry (R72) and those that pass the static checks (R79). -/

namespace Sys2Proof

/-- The payload fits the `PLEN` word: `len(payload) <= MAXPAY` (R7, R72). Every such command has a frame (DESIGN CHOICE,
log 13). -/
def Instr.encodable (i : Instr) : Bool := i.fields.plen ≤ Machine.maxPay

/-- A command that a unit of `nctx` slots does not refuse for its form before it looks at a context:
it fits a frame and passes every static check of R79. -/
def Instr.wellFormed (nctx : Nat) (i : Instr) : Bool := i.encodable && Machine.staticOk nctx i

end Sys2Proof
end

