-- ==== Sys2Proof/Decode.lean ====
section
/-! DEFINITION. The decoder, total on every byte string taken as a frame, the encoder, and the framing of
the command stream (R70 to R79 of 30_encoding.md). -/

namespace Sys2Proof

open Machine

/-- Why a byte string is no command; every one is answered `IllegalCommand` (R78, R79 (1), R337). -/
inductive DecodeError where
  /-- shorter than the 8 bytes of `HDR` and `PLEN` (R78) -/
  | frameTooShort
  /-- the payload is shorter or longer than `PLEN` says (R78) -/
  | lengthMismatch
  /-- the reserved byte is not 0 (R79 (1)) -/
  | reservedNotZero
  /-- the opcode is not in the opcode map (R78) -/
  | unknownOpcode
  deriving DecidableEq, Repr

/-- `HDR[31:24]` (R71). -/
def hdrOp (h : BitVec 32) : BitVec 8 := h.extractLsb' 24 8
/-- `HDR[23:20]` (R71). -/
def hdrCtx (h : BitVec 32) : BitVec 4 := h.extractLsb' 20 4
/-- `HDR[19:16]` (R71). -/
def hdrA (h : BitVec 32) : BitVec 4 := h.extractLsb' 16 4
/-- `HDR[15:8]` (R71). -/
def hdrImm (h : BitVec 32) : BitVec 8 := h.extractLsb' 8 8
/-- `HDR[7:0]` (R71). -/
def hdrRsv (h : BitVec 32) : BitVec 8 := h.extractLsb' 0 8

/-- The opcode map read from `OP` to the command (R76). -/
def ofOpcode (op : BitVec 8) (f : Fields) : Option Instr :=
  match op.toNat with
  | 0x00 => some (.nop f)
  | 0x10 => some (.bcSetkey f)
  | 0x11 => some (.bcEnc f)
  | 0x12 => some (.bcDec f)
  | 0x20 => some (.gfMul64 f)
  | 0x21 => some (.gfMul128 f)
  | 0x30 => some (.ctrSetkey f)
  | 0x31 => some (.ctrSetiv f)
  | 0x32 => some (.ctrSection f)
  | 0x33 => some (.ctrCrypt f)
  | 0x34 => some (.acpkmMesh f)
  | 0x40 => some (.mgmInit f)
  | 0x41 => some (.mgmSetiv f)
  | 0x42 => some (.mgmTaglen f)
  | 0x43 => some (.mgmAad f)
  | 0x44 => some (.mgmEnc f)
  | 0x45 => some (.mgmDec f)
  | 0x46 => some (.mgmFinish f)
  | 0x47 => some (.mgmVerify f)
  | 0x50 => some (.omacInit f)
  | 0x51 => some (.omacInita f)
  | 0x52 => some (.omacMaclen f)
  | 0x53 => some (.omacUpdate f)
  | 0x54 => some (.omacFinal f)
  | 0x60 => some (.ctxClone f)
  | 0x61 => some (.ctxDestroy f)
  | 0x62 => some (.ctxQuery f)
  | _ => none

/-- The opcode map read from the command to `OP` (R76). -/
def opcodeOf : Instr → BitVec 8
  | .nop _        => 0x00#8
  | .bcSetkey _   => 0x10#8
  | .bcEnc _      => 0x11#8
  | .bcDec _      => 0x12#8
  | .gfMul64 _    => 0x20#8
  | .gfMul128 _   => 0x21#8
  | .ctrSetkey _  => 0x30#8
  | .ctrSetiv _   => 0x31#8
  | .ctrSection _ => 0x32#8
  | .ctrCrypt _   => 0x33#8
  | .acpkmMesh _  => 0x34#8
  | .mgmInit _    => 0x40#8
  | .mgmSetiv _   => 0x41#8
  | .mgmTaglen _  => 0x42#8
  | .mgmAad _     => 0x43#8
  | .mgmEnc _     => 0x44#8
  | .mgmDec _     => 0x45#8
  | .mgmFinish _  => 0x46#8
  | .mgmVerify _  => 0x47#8
  | .omacInit _   => 0x50#8
  | .omacInita _  => 0x51#8
  | .omacMaclen _ => 0x52#8
  | .omacUpdate _ => 0x53#8
  | .omacFinal _  => 0x54#8
  | .ctxClone _   => 0x60#8
  | .ctxDestroy _ => 0x61#8
  | .ctxQuery _   => 0x62#8

/-- The decoder on a header word and a payload of the length `PLEN` gives: only `OP` and `RSV` are
matched, `HDR & 0xFF0000FF = OP * 2^24` (R77); the value checks of R79 are each meaning's own (DEDUCED, log 9). -/
def decodeHdr (h : BitVec 32) (payload : Bytes) : Except DecodeError Instr :=
  match ofOpcode (hdrOp h) { ctx := hdrCtx h, a := hdrA h, imm := hdrImm h, payload := payload } with
  | none => .error .unknownOpcode
  | some i => if hdrRsv h = 0 then .ok i else .error .reservedNotZero

/-- The decoder on a byte string taken as a frame, `HDR (4) || PLEN (4) || payload`, words big-endian
(R51, R52, R70, R78). -/
def decode (frame : Bytes) : Except DecodeError Instr :=
  if frame.length < 8 then .error .frameTooShort
  else if frame.length - 8 ≠ intOf (slice frame 4 8) then .error .lengthMismatch
  else decodeHdr (BitVec.ofNat 32 (intOf (slice frame 0 4))) (frame.drop 8)

/-- The header word of a command, `OP CTX A IMM 00` from the most significant bit down (R71). -/
def hdrWord (i : Instr) : BitVec 32 :=
  opcodeOf i ++ i.fields.ctx ++ i.fields.a ++ i.fields.imm ++ 0#8

/-- The frame of a command (R70). -/
def encode (i : Instr) : Bytes :=
  bytesOf 4 (hdrWord i).toNat ++ bytesOf 4 i.fields.plen ++ i.fields.payload

/-- The length of the frame that begins a byte stream, known after 8 bytes (R70): `8 + PLEN`. -/
def frameLen (stream : Bytes) : Nat := 8 + intOf (slice stream 4 8)

/-- The first whole frame of a byte stream and the bytes after it; `none` while one is still being
received (R70: "the next frame starts at the byte after the payload"). -/
def takeFrame (stream : Bytes) : Option (Bytes × Bytes) :=
  if stream.length < 8 then none
  else if stream.length < frameLen stream then none
  else some (stream.take (frameLen stream), stream.drop (frameLen stream))

/-- The whole frames of a byte stream, in order, and the half-received rest; `fuel` bounds their number. -/
def splitFrames : Nat → Bytes → List Bytes × Bytes
  | 0, stream => ([], stream)
  | fuel + 1, stream =>
    match takeFrame stream with
    | none => ([], stream)
    | some (f, rest) =>
      let r := splitFrames fuel rest
      (f :: r.1, r.2)

/-- The frame whose words are those of `w`: bit 0 of `w` is the least significant bit of `HDR`, the bits
from 32 up are `PLEN`, the bits from 64 up the payload, four bytes a word, every word big-endian (R52).
Bits from `nbits` up are 0. -/
def tableFrame (nbits w : Nat) : Bytes :=
  let v := w % 2 ^ nbits
  let plen := v / 2 ^ 32 % 2 ^ 32
  bytesOf 4 (v % 2 ^ 32) ++ bytesOf 4 plen
    ++ (List.range plen).map fun i => BitVec.ofNat 8 (v / 2 ^ (64 + 32 * (i / 4) + 8 * (3 - i % 4)))

/-- What the decoder reads from a row's bits, numbered as the opcode table numbers them. -/
def decodeTableWord (nbits w : Nat) : Option Instr :=
  match decode (tableFrame nbits w) with
  | .ok i => some i
  | .error _ => none

end Sys2Proof
end

