-- ==== Sys2Proof/Machine/Grasshopper.lean ====
section
/-! DEFINITION. Grasshopper (Kuznyechik), the 16-byte block cipher of the `STD` instantiation
(93_implementation_defined.md G1; PRESUMED, log 3). Bytes are elements of GF(2^8) modulo `0x1C3`. -/

namespace Sys2Proof.Machine

/-- Row `r` of the substitution table `pi`, the sixteen bytes as G1 prints them: column 0 is the leftmost. -/
def ghPiRow : Nat → Nat
  | 0 => 0xfceedd11cf6e3116fbc4fada23c5044d
  | 1 => 0xe977f0db932e99ba1736f1bb14cd5fc1
  | 2 => 0xf918655ae25cef21811c3c428b018e4f
  | 3 => 0x058402aee36a8fa0060bed987fd4d31f
  | 4 => 0xeb342c51eac848abf22a68a2fd3acecc
  | 5 => 0xb5700e56080c7612bf7213479cb75d87
  | 6 => 0x15a19629107b9ac7f391786f9d9eb2b1
  | 7 => 0x3275193dff358a7e6d54c680c3bd0d57
  | 8 => 0xdff524a93ea843c9d779d6f67c22b903
  | 9 => 0xe00fecde7a94b0bcdce828504e330a4a
  | 10 => 0xa79760731e0062441ab83882649f2641
  | 11 => 0xad454692275e552f8ca3a57d69d5953b
  | 12 => 0x0758b34086ac1df730376be488d9e789
  | 13 => 0xe11b83494c3ff8fe8d53aa90cad88561
  | 14 => 0x207167a42d2b095bcb9b25d0bee56c52
  | 15 => 0x59a674d2e6f4b4c0d166afc2394b63b6
  | _ => 0

/-- `pi(b)`: row `b / 16`, column `b mod 16`. -/
def ghPi (b : Byte) : Byte :=
  BitVec.ofNat 8 (ghPiRow (b.toNat / 16) / 256 ^ (15 - b.toNat % 16))

/-- The inverse table, found by search: the byte that `pi` sends to `b`. -/
def ghPiInv (b : Byte) : Byte :=
  BitVec.ofNat 8 ((List.range 256).findIdx fun v => ghPi (BitVec.ofNat 8 v) == b)

/-- Multiplication by `x` in GF(2^8) modulo `x^8 + x^7 + x^6 + x + 1`. -/
def gh2 (a : Nat) : Nat := if a < 128 then 2 * a else 2 * a ^^^ 0x1C3

/-- Product of the low `n` coefficients of `c` with `a` in GF(2^8). -/
def ghMulLoop : Nat → Nat → Nat → Nat
  | 0, _, _ => 0
  | n + 1, c, a => (if c % 2 = 1 then a else 0) ^^^ ghMulLoop n (c / 2) (gh2 a)

/-- Product in GF(2^8). -/
def ghMul (c a : Nat) : Nat := ghMulLoop 8 c a

/-- The sixteen coefficients `c_i` of `l`, for the first byte first. -/
def ghCoeffs : List Nat := [148, 32, 133, 16, 194, 192, 1, 251, 1, 192, 194, 16, 133, 32, 148, 1]

/-- `l(a_0 .. a_15) = sum of c_i * a_i`. -/
def ghLin (a : Bytes) : Byte :=
  BitVec.ofNat 8 ((List.zipWith (fun c x => ghMul c x.toNat) ghCoeffs a).foldl (fun s v => s ^^^ v) 0)

/-- `R(a) = l(a) || a[0:15]`. -/
def ghR (a : Bytes) : Bytes := ghLin a :: a.take 15

/-- `R^-1(a) = a[1:16] || l(a[1:16] || a[0:1])`. -/
def ghRInv (a : Bytes) : Bytes := a.drop 1 ++ [ghLin (a.drop 1 ++ a.take 1)]

/-- `n` applications of `f`. -/
def iterate (f : Bytes → Bytes) : Nat → Bytes → Bytes
  | 0, a => a
  | n + 1, a => iterate f n (f a)

/-- `L = R^16`. -/
def ghL (a : Bytes) : Bytes := iterate ghR 16 a

/-- `L^-1 = (R^-1)^16`. -/
def ghLInv (a : Bytes) : Bytes := iterate ghRInv 16 a

/-- `S`: `pi` on each byte. -/
def ghS (a : Bytes) : Bytes := a.map ghPi

/-- `S^-1`. -/
def ghSInv (a : Bytes) : Bytes := a.map ghPiInv

/-- `C_i = L(bytes_16(i))`. -/
def ghC (i : Nat) : Bytes := ghL (bytesOf 16 i)

/-- One Feistel step of the key schedule: `F[C](a1, a0) = (L(S(a1 xor C)) xor a0, a1)`. -/
def ghF (p : Bytes × Bytes) (i : Nat) : Bytes × Bytes := (xorB (ghL (ghS (xorB p.1 (ghC i)))) p.2, p.1)

/-- Eight Feistel steps, with the constants `C_{first} .. C_{first+7}`. -/
def ghNextPair (p : Bytes × Bytes) (first : Nat) : Bytes × Bytes :=
  ((List.range 8).map fun j => first + j).foldl ghF p

/-- The ten round keys `K_1 .. K_10`. -/
def ghRoundKeys (k : Bytes) : List Bytes :=
  let p1 := (slice k 0 16, slice k 16 32)
  let p2 := ghNextPair p1 1
  let p3 := ghNextPair p2 9
  let p4 := ghNextPair p3 17
  let p5 := ghNextPair p4 25
  [p1.1, p1.2, p2.1, p2.2, p3.1, p3.2, p4.1, p4.2, p5.1, p5.2]

/-- The rounds of encryption: `s <- L(S(s xor K_i))` for every key but the last, which is only xored in. -/
def ghEncRounds : List Bytes → Bytes → Bytes
  | [], s => s
  | [k], s => xorB s k
  | k :: ks, s => ghEncRounds ks (ghL (ghS (xorB s k)))

/-- The rounds of decryption, over the same list of keys: the last key first. -/
def ghDecRounds : List Bytes → Bytes → Bytes
  | [], s => s
  | [k], s => xorB s k
  | k :: ks, s => xorB (ghSInv (ghLInv (ghDecRounds ks s))) k

/-- Encryption of one block. -/
def ghE (k x : Bytes) : Bytes := ghEncRounds (ghRoundKeys k) x

/-- Decryption of one block. -/
def ghD (k y : Bytes) : Bytes := ghDecRounds (ghRoundKeys k) y

end Sys2Proof.Machine
end

