-- ==== Sys2Proof/Machine/Magma.lean ====
section
/-! DEFINITION. Magma, the 8-byte block cipher of the `STD` instantiation (93_implementation_defined.md G1;
PRESUMED, log 3). Words are 32 bits, read big-endian. -/

namespace Sys2Proof.Machine

/-- The eight substitution tables `pi_0 .. pi_7`, each written as G1 prints it: the entry for nibble 0 is
the leftmost digit. -/
def magmaPi : Nat → Nat
  | 0 => 0xc462a5b9e8d703f1
  | 1 => 0x68239a5c1e47bd0f
  | 2 => 0xb3582fade174c960
  | 3 => 0xc821d4f670a53e9b
  | 4 => 0x7f5a816d093eb42c
  | 5 => 0x5df692cab78143e0
  | 6 => 0x8e25691cf4b0da37
  | 7 => 0x17ed05834fa69cb2
  | _ => 0

/-- `pi_i(v)` of a nibble `v`. -/
def magmaSub (i v : Nat) : Nat := magmaPi i / 16 ^ (15 - v) % 16

/-- `t(a)`: nibble `i` of the result is `pi_i` of nibble `i`, nibble 0 being bits 3..0. -/
def magmaT (a : BitVec 32) : BitVec 32 :=
  BitVec.ofNat 32 <| (List.range 8).foldl (fun acc i => acc + magmaSub i (a.toNat / 16 ^ i % 16) * 16 ^ i) 0

/-- `g[k](a) = rotl32(t((a + k) mod 2^32), 11)`. -/
def magmaG (k a : BitVec 32) : BitVec 32 := (magmaT (a + k)).rotateLeft 11

/-- `k_0 .. k_7`: the key cut into eight words. -/
def magmaWords (k : Bytes) : List (BitVec 32) :=
  (List.range 8).map fun i => BitVec.ofNat 32 (intOf (slice k (4 * i) (4 * i + 4)))

/-- The 32 round keys: the eight words three times, then once in reverse. -/
def magmaRoundKeys (k : Bytes) : List (BitVec 32) :=
  magmaWords k ++ magmaWords k ++ magmaWords k ++ (magmaWords k).reverse

/-- One round with the swap: `(a1, a0) <- (a0, g[rk](a0) xor a1)`. -/
def magmaRound (s : BitVec 32 × BitVec 32) (rk : BitVec 32) : BitVec 32 × BitVec 32 :=
  (s.2, magmaG rk s.2 ^^^ s.1)

/-- The rounds under a list of round keys. Every round swaps, and the last swap is undone where the two
words are put together, so the last round is the one "without the swap" of G1. -/
def magmaCrypt (rks : List (BitVec 32)) (x : Bytes) : Bytes :=
  let s := rks.foldl magmaRound
    (BitVec.ofNat 32 (intOf (slice x 0 4)), BitVec.ofNat 32 (intOf (slice x 4 8)))
  bytesOf 4 s.2.toNat ++ bytesOf 4 s.1.toNat

/-- Encryption of one block. -/
def magmaE (k x : Bytes) : Bytes := magmaCrypt (magmaRoundKeys k) x

/-- Decryption: "the same with the round keys in reverse order". -/
def magmaD (k y : Bytes) : Bytes := magmaCrypt (magmaRoundKeys k).reverse y

end Sys2Proof.Machine
end

