-- ==== Sys2Proof/Machine/Toy.lean ====
section
/-! DEFINITION. The `TOY` instantiation of the block cipher parameter (95_test_vectors.md section 2). -/

namespace Sys2Proof.Machine

/-- `E(c, K, X) = bytes_BS(((int(X) + int(K[0:BS])) mod 2^(8*BS)) xor int(K[BS:2*BS]))`. -/
def toyE (c : Cipher) (k x : Bytes) : Bytes :=
  bytesOf (bs c) (((intOf x + intOf (slice k 0 (bs c))) % 2 ^ (8 * bs c)) ^^^ intOf (slice k (bs c) (2 * bs c)))

/-- `D(c, K, Y) = bytes_BS(((int(Y) xor int(K[BS:2*BS])) - int(K[0:BS])) mod 2^(8*BS))`. -/
def toyD (c : Cipher) (k y : Bytes) : Bytes :=
  bytesOf (bs c) ((intOf y ^^^ intOf (slice k (bs c) (2 * bs c))) + 2 ^ (8 * bs c) - intOf (slice k 0 (bs c)))

end Sys2Proof.Machine
end

