-- ==== Sys2Proof/Machine/BlockCipher.lean ====
section
/-! DEFINITION. The block cipher parameter `BC`: `E` and `D` of R9 of 00_scope.md, and the law it asks for. -/

namespace Sys2Proof.Machine

/-- `E(cipher, K, X)` of an instantiation (R9); always a block of `BS(cipher)` bytes. -/
def encBlock (b : BlockCipher) (c : Cipher) (k x : Bytes) : Bytes :=
  fit (bs c) <|
    match b, c with
    | .std, .magma => magmaE k x
    | .std, .grasshopper => ghE k x
    | .toy, c => toyE c k x
    | .other n, c => Config.otherE n c k x

/-- `D(cipher, K, Y)` of an instantiation (R9); always a block of `BS(cipher)` bytes. -/
def decBlock (b : BlockCipher) (c : Cipher) (k y : Bytes) : Bytes :=
  fit (bs c) <|
    match b, c with
    | .std, .magma => magmaD k y
    | .std, .grasshopper => ghD k y
    | .toy, c => toyD c k y
    | .other n, c => Config.otherD n c k y

/-- The law of R9: per key, `D` undoes `E` and `E` undoes `D` on blocks. -/
def Lawful (b : BlockCipher) : Prop :=
  ∀ (c : Cipher) (k x : Bytes), k.length = keyLen → x.length = bs c →
    decBlock b c k (encBlock b c k x) = x ∧ encBlock b c k (decBlock b c k x) = x

end Sys2Proof.Machine
end

