-- ==== Sys2Proof/Machine/State.lean ====
section
/-! DEFINITION. The state of the unit as plain data (10_state.md, 20_memory.md R51, 70_reset_and_hazards.md R370),
the statuses of a response, and why a step could stop. -/

namespace Sys2Proof.Machine

/-- The status codes by name (R331 of 60_exceptions.md); `statusCode` gives the numbers. -/
inductive Status where
  | ok
  | badOrder
  | dataTooLarge
  | authenticationFailed
  /-- reserved, never raised by the unit (R338) -/
  | badMac
  | invalidMacSize
  | invalidTagLength
  | macKeyNotSet
  | keyNotSet
  /-- reserved, never raised by the unit (R338) -/
  | internalError
  | illegalCommand
  deriving DecidableEq, Repr

/-- One response: its status and its payload (R74, R330). Its length word is the payload's length. -/
structure Response where
  status  : Status
  payload : Bytes
  deriving DecidableEq, Repr

/-- The phase of a `BC` context: it exists only keyed (R27). -/
inductive BcPhase where
  | keySet
  deriving DecidableEq, Repr

/-- The phases of a `CTR` context (R31). -/
inductive CtrPhase where
  | keySet
  | ivSet
  deriving DecidableEq, Repr

/-- The phases of an `MGM` context (R36). -/
inductive MgmPhase where
  | keySet
  | ivSet
  | processingAad
  | processingData
  | finalized
  deriving DecidableEq, Repr

/-- The phases of an `OMAC` context (R42). -/
inductive OmacPhase where
  | keySet
  | finalized
  deriving DecidableEq, Repr

/-- The direction latched for an MGM message (R35). -/
inductive Dir where
  | none
  | enc
  | dec
  deriving DecidableEq, Repr

/-- A `BC` context (R26). -/
structure BcCtx where
  cipher : Cipher
  key    : Bytes
  phase  : BcPhase
  deriving DecidableEq, Repr

/-- The CTR generator with its ACPKM state: the fields the keystream driver works on (R149). A `CTR`
context holds one (R30), and so does an `OMAC` context as its master (R40). `sect` is the spec's `section`. -/
structure CtrGen where
  key  : Bytes
  ctr  : Bytes
  ks   : Bytes
  num  : BitVec 64
  sect : BitVec 32
  deriving DecidableEq, Repr

/-- A `CTR` context (R30, R31). -/
structure CtrCtx where
  cipher : Cipher
  phase  : CtrPhase
  gen    : CtrGen
  deriving DecidableEq, Repr

/-- An `MGM` context (R35). `z`, `y`, `aLen`, `cLen` are the spec's `Z`, `Y`, `A_len`, `C_len`. -/
structure MgmCtx where
  cipher : Cipher
  key    : Bytes
  phase  : MgmPhase
  dir    : Dir
  taglen : Nat
  nonce  : Bytes
  z      : Bytes
  y      : Bytes
  sum    : Bytes
  aLen   : BitVec 64
  cLen   : BitVec 64
  ares   : Nat
  mres   : Nat
  abuf   : Bytes
  cbuf   : Bytes
  ks     : Bytes
  tag    : Bytes
  deriving DecidableEq, Repr

/-- An `OMAC` context (R40). `k1`, `k2`, `n` are the spec's `K1`, `K2`, `N`. The bit `acpkm` is the
presence of `master`, which exists "only when `acpkm = 1`" (log 12). -/
structure OmacCtx where
  cipher : Cipher
  phase  : OmacPhase
  key    : Bytes
  k1     : Bytes
  k2     : Bytes
  chain  : Bytes
  lbuf   : Bytes
  nlast  : Nat
  num    : BitVec 64
  n      : BitVec 32
  maclen : Nat
  mac    : Bytes
  master : Option CtrGen
  deriving DecidableEq, Repr

/-- A context slot: one of the five kinds of record (R20). -/
inductive Slot where
  | empty
  | bc   (c : BcCtx)
  | ctr  (c : CtrCtx)
  | mgm  (m : MgmCtx)
  | omac (o : OmacCtx)
  deriving DecidableEq, Repr

/-- The whole state: the parameters of the unit (never written), the slot file, the two ports.

* `cfg`: the parameters (R9, R10; log 1).
* `ctx`: the `NCTX` context slots (R20); `NCTX` is its length (log 1).
* `cmd`: frames delivered on the command port and not yet executed, the oldest first (R51, R55; log 5).
* `rx`: the bytes of a half-received frame on the command port (R70, R370, R374; log 5).
* `resp`: responses given and not yet taken by the host, the oldest first (R51, R55; log 6). -/
structure State where
  cfg  : Config
  ctx  : List Slot
  cmd  : List Bytes
  rx   : Bytes
  resp : List Response
  deriving DecidableEq, Repr

/-- Why the machine could stop with a fault: never. Every command sequence has a defined result and there
is "no way for the unit to stop responding" (R344), so there is no constructor (log 10; safe, since no
claim can be made true by a fault). -/
inductive Fault where
  deriving DecidableEq, Repr

/-- Why an instruction could have no meaning. -/
inductive Refusal where
  /-- An arm of `exec` that has no meaning yet; no arm of this model raises it (safe: it would only stop). -/
  | notModelled (mnemonic : String)
  deriving DecidableEq, Repr

/-- The unit right after reset: every slot `Empty`, no frame waiting or half received, no response
pending (R48, R370), with the parameters the source means and the default number of slots (log 2). -/
def State.reset : State :=
  { cfg := Config.standard
    ctx := List.replicate Config.defaultNctx .empty
    cmd := []
    rx := []
    resp := [] }

end Sys2Proof.Machine
end

