-- ==== Sys2Proof/Machine/Ops.lean ====
section
/-! DEFINITION. The named operations on the slot file and the response port, the one shared operation that
raises a status, and the checks every meaning is made of (20_memory.md, 60_exceptions.md). -/

namespace Sys2Proof.Machine

/-- What a meaning answers. -/
abbrev Result := Host.Outcome State Fault Refusal

/-- `NCTX`, the number of context slots (R7, R20). -/
def State.nctx (s : State) : Nat := s.ctx.length

/-- `ctx[i]` (R14). An index outside the slot file, which the static checks refuse before any rule reads a
slot, reads as `Empty` (log 16). -/
def State.slot (s : State) (i : BitVec 4) : Slot := s.ctx.getD i.toNat .empty

/-- `ctx[i] <- record` (R14); slots do not alias (R20). -/
def State.setSlot (s : State) (i : BitVec 4) (x : Slot) : State := { s with ctx := s.ctx.set i.toNat x }

/-- One response put behind those already on the response port (R55). -/
def State.push (s : State) (st : Status) (p : Bytes) : State := { s with resp := s.resp ++ [⟨st, p⟩] }

/-- `respond(bytes)`: the command ends with status `OK` and this payload (R14). -/
def respond (s : State) (p : Bytes) : Result := .next (s.push .ok p)

/-- `raise <Status>`, the unit's whole exception mechanism: the command ends with this status and an empty
payload, and the state it is given is otherwise kept as it is (R14, R330, R341). Nothing is saved, no
handler runs, and there is nothing to return from (R330). -/
def raise (s : State) (st : Status) : Result := .next (s.push st [])

/-- Stage S1: the static checks of R79, before anything else of the command (R340). -/
def checked (i : Instr) (s : State) (k : Result) : Result :=
  if staticOk s.nctx i then k else raise s .illegalCommand

/-- One check of stages S3 to S5: go on where it holds, else raise its status (R340, R341). -/
def require (b : Bool) (st : Status) (s : State) (k : Result) : Result :=
  if b then k else raise s st

/-- The cipher of a creating command's `A` field (R23, R71); other codes were refused by R79 (3). -/
def withCipher (f : Fields) (s : State) (k : Cipher → Result) : Result :=
  match cipherOf f.a with
  | some c => k c
  | none => raise s .illegalCommand

/-- Stage S2 for the commands that need a `BC` context (R336). -/
def withBc (f : Fields) (s : State) (k : BcCtx → Result) : Result :=
  match s.slot f.ctx with
  | .bc c => k c
  | _ => raise s .keyNotSet

/-- Stage S2 for the commands that need a `CTR` context (R336). -/
def withCtr (f : Fields) (s : State) (k : CtrCtx → Result) : Result :=
  match s.slot f.ctx with
  | .ctr c => k c
  | _ => raise s .keyNotSet

/-- Stage S2 for the commands that need an `MGM` context (R336). -/
def withMgm (f : Fields) (s : State) (k : MgmCtx → Result) : Result :=
  match s.slot f.ctx with
  | .mgm m => k m
  | _ => raise s .keyNotSet

/-- Stage S2 for the commands that need an `OMAC` context (R336). -/
def withOmac (f : Fields) (s : State) (k : OmacCtx → Result) : Result :=
  match s.slot f.ctx with
  | .omac o => k o
  | _ => raise s .macKeyNotSet

/-- The status codes (R331). -/
def statusCode : Status → Nat
  | .ok => 0
  | .badOrder => 1
  | .dataTooLarge => 2
  | .authenticationFailed => 3
  | .badMac => 4
  | .invalidMacSize => 5
  | .invalidTagLength => 6
  | .macKeyNotSet => 7
  | .keyNotSet => 8
  | .internalError => 9
  | .illegalCommand => 10

/-- A response as it travels: `STATUS || RLEN || payload`, both words big-endian (R51, R52, R74). -/
def responseFrame (r : Response) : Bytes :=
  bytesOf 4 (statusCode r.status) ++ bytesOf 4 r.payload.length ++ r.payload

end Sys2Proof.Machine
end

