-- ==== Sys2Proof/Machine/Flags.lean ====
section
/-! DEFINITION. What plays the part of flags: phases, directions and the `acpkm` bit (R45 of 10_state.md),
which phases each command accepts (R142, R181, R242), and their codes (R5, R20, R27, R31, R36, R42). -/

namespace Sys2Proof.Machine

/-- The bit `acpkm` of an `OMAC` context (R40; log 12). -/
def OmacCtx.acpkm (o : OmacCtx) : Bool := o.master.isSome

/-- `CTR.CRYPT` needs `IVSet` (R142, R150). -/
def ctrStreams (c : CtrCtx) : Bool := c.phase == .ivSet

/-- The phases in which `MGM.TAGLEN` is accepted: all but `Finalized` (R181, R190). -/
def mgmTaglenPhase (m : MgmCtx) : Bool := m.phase != .finalized

/-- The phases in which `MGM.AAD` is accepted (R181, R186). -/
def mgmAadPhase (m : MgmCtx) : Bool := m.phase == .ivSet || m.phase == .processingAad

/-- The phases in which `MGM.ENC` and `MGM.DEC` are accepted (R181, R187). -/
def mgmDataPhase (m : MgmCtx) : Bool :=
  m.phase == .ivSet || m.phase == .processingAad || m.phase == .processingData

/-- The direction latched is none or this one (R187). -/
def mgmDirOk (m : MgmCtx) (d : Dir) : Bool := m.dir == .none || m.dir == d

/-- The phases in which a message can be finished, and the direction not the forbidden one (R181, R191, R193). -/
def mgmEndPhase (m : MgmCtx) (forbidden : Dir) : Bool :=
  (m.phase == .processingAad || m.phase == .processingData) && m.dir != forbidden

/-- The phase in which an `OMAC` context accepts commands (R42, R242). -/
def omacOpen (o : OmacCtx) : Bool := o.phase != .finalized

/-- A tag or MAC length in `[1, BS]` (R190, R249). -/
def lenOk (c : Cipher) (n : Nat) : Bool := 1 ≤ n && n ≤ bs c

/-- Phase codes of a `BC` context (R27). -/
def bcPhaseCode : BcPhase → Nat
  | .keySet => 1

/-- Phase codes of a `CTR` context (R31). -/
def ctrPhaseCode : CtrPhase → Nat
  | .keySet => 1
  | .ivSet => 2

/-- Phase codes of an `MGM` context (R36). -/
def mgmPhaseCode : MgmPhase → Nat
  | .keySet => 1
  | .ivSet => 2
  | .processingAad => 3
  | .processingData => 4
  | .finalized => 5

/-- Phase codes of an `OMAC` context (R42). -/
def omacPhaseCode : OmacPhase → Nat
  | .keySet => 1
  | .finalized => 5

/-- Kind codes (R20). -/
def kindCode : Slot → Nat
  | .empty => 0
  | .bc _ => 1
  | .ctr _ => 2
  | .mgm _ => 3
  | .omac _ => 4

end Sys2Proof.Machine
end

