-- ==== Sys2Proof/Machine/Operands.lean ====
section
/-! DEFINITION. The operand forms of the payloads: what each command cuts from its payload, at the fixed
offsets its rule states (R75, R76 of 30_encoding.md). -/

namespace Sys2Proof.Machine

/-- The key of a creating command: the first 32 bytes (R101, R144, R182, R244, R247). -/
def keyOperand (f : Fields) : Bytes := slice f.payload 0 keyLen

/-- The two operands `a || b` of a multiplication of blocks of `BS(c)` bytes (R123, R124). -/
def factors (f : Fields) (c : Cipher) : Bytes × Bytes :=
  (slice f.payload 0 (bs c), slice f.payload (bs c) (2 * bs c))

/-- The section size of `CTR.SECTION`: the payload read big-endian (R148). -/
def sectionSize (f : Fields) : Nat := intOf f.payload

/-- `N` and `T*` of `OMAC.INITA` (R247). -/
def sections (f : Fields) : Nat × Nat := (initaN f.payload, initaT f.payload)

/-- The length operand in `IMM` (R190, R249). -/
def lenOperand (f : Fields) : Nat := f.imm.toNat

end Sys2Proof.Machine
end

