-- ==== Sys2Proof/Machine/Bc.lean ====
section
/-! DEFINITION. The block cipher core commands (40_block_cipher.md). -/

namespace Sys2Proof.Machine

/-- `BC.SETKEY` (R101): the slot becomes a `BC` context under the payload's key, whatever it held (R294). -/
def execBcSetkey (f : Fields) (s : State) : Result :=
  checked (.bcSetkey f) s <| withCipher f s fun c =>
    respond (s.setSlot f.ctx (.bc { cipher := c, key := keyOperand f, phase := .keySet })) []

/-- `BC.ENC` (R102): `E` of one block; no state is written. -/
def execBcEnc (f : Fields) (s : State) : Result :=
  checked (.bcEnc f) s <| withBc f s fun c =>
    require (f.plen == bs c.cipher) .illegalCommand s <|
      respond s (encBlock s.cfg.bc c.cipher c.key f.payload)

/-- `BC.DEC` (R103): `D` of one block; no state is written. -/
def execBcDec (f : Fields) (s : State) : Result :=
  checked (.bcDec f) s <| withBc f s fun c =>
    require (f.plen == bs c.cipher) .illegalCommand s <|
      respond s (decBlock s.cfg.bc c.cipher c.key f.payload)

end Sys2Proof.Machine
end

