-- ==== Sys2Proof/Machine/CtrStream.lean ====
section
/-! DEFINITION. The ACPKM rekeying step and the CTR keystream driver (R141, R149 of 42_ctr_acpkm.md), shared
by the CTR engine and the OMAC master (R140). -/

namespace Sys2Proof.Machine

/-- `D_j`, for `j` from 0: the `j`-th `BS`-byte slice of `ACPKM_D` (R10). -/
def acpkmConst (cfg : Config) (c : Cipher) (j : Nat) : Bytes := slice cfg.acpkmD (j * bs c) ((j + 1) * bs c)

/-- `acpkm_next_key`: the constants `D_1 .. D_J` encrypted under the old key, in order (R141). -/
def acpkmNextKey (cfg : Config) (c : Cipher) (k : Bytes) : Bytes :=
  (List.range (blocksPerKey c)).flatMap fun j => encBlock cfg.bc c k (acpkmConst cfg c j)

/-- `num & (BS-1)`: the low bits are kept, not cleared to zero (R149, R152). -/
def maskNum (c : Cipher) (num : BitVec 64) : BitVec 64 := num &&& BitVec.ofNat 64 (bs c - 1)

/-- The counter has reached a section size that is not 0 (R149). -/
def sectionDue (g : CtrGen) : Bool := g.sect != 0 && g.sect.toNat ≤ g.num.toNat

/-- The meshing part of the driver, at a block boundary: where the section is used up, the key is replaced and `num` masked (R149). -/
def ctrMesh (cfg : Config) (c : Cipher) (g : CtrGen) : CtrGen :=
  if sectionDue g then { g with key := acpkmNextKey cfg c g.key, num := maskNum c g.num } else g

/-- A new keystream block: mesh where due, encrypt the counter, increment it (R149, R146). -/
def ctrRefill (cfg : Config) (c : Cipher) (g : CtrGen) : CtrGen :=
  let g1 := ctrMesh cfg c g
  { g1 with ks := encBlock cfg.bc c g1.key g1.ctr, ctr := incrFull g1.ctr }

/-- What the driver has at hand when it takes a byte: a new keystream block where `num mod BS = 0` (R149). -/
def ctrReady (cfg : Config) (c : Cipher) (g : CtrGen) : CtrGen :=
  if g.num.toNat % bs c = 0 then ctrRefill cfg c g else g

/-- One byte through the driver: the byte out, and the generator after it (R149). A used-up `ks` keeps its bytes
(DEDUCED, log 11). -/
def ctrByte (cfg : Config) (c : Cipher) (g : CtrGen) (b : Byte) : Byte × CtrGen :=
  let g1 := ctrReady cfg c g
  (b ^^^ g1.ks.getD (g1.num.toNat % bs c) 0, { g1 with num := g1.num + 1 })

/-- `ctr_stream(s, data)`: byte after byte; as many bytes out as in (R149). -/
def ctrStream (cfg : Config) (c : Cipher) : CtrGen → Bytes → Bytes × CtrGen
  | g, [] => ([], g)
  | g, b :: rest =>
    let r := ctrByte cfg c g b
    let t := ctrStream cfg c r.2 rest
    (r.1 :: t.1, t.2)

end Sys2Proof.Machine
end

