-- ==== Sys2Proof/Machine/Ctr.lean ====
section
/-! DEFINITION. The CTR and ACPKM commands (42_ctr_acpkm.md). -/

namespace Sys2Proof.Machine

/-- `CTR.SETKEY` (R144): a new context in phase `KeySet`, meshing off. -/
def execCtrSetkey (f : Fields) (s : State) : Result :=
  checked (.ctrSetkey f) s <| withCipher f s fun c =>
    respond (s.setSlot f.ctx (.ctr
      { cipher := c, phase := .keySet,
        gen := { key := keyOperand f, ctr := zeros (bs c), ks := zeros (bs c), num := 0, sect := 0 } })) []

/-- `CTR.SETIV` (R145): the counter block is the half-IV and then zeros; `key` and `section` are kept. -/
def execCtrSetiv (f : Fields) (s : State) : Result :=
  checked (.ctrSetiv f) s <| withCtr f s fun c =>
    require (f.plen == halfBs c.cipher) .illegalCommand s <|
      respond (s.setSlot f.ctx (.ctr
        { c with
          phase := .ivSet,
          gen := { c.gen with ctr := f.payload ++ zeros (halfBs c.cipher), ks := zeros (bs c.cipher), num := 0 } })) []

/-- `CTR.SECTION` (R148): the section size, a multiple of `BS`; nothing else is touched. -/
def execCtrSection (f : Fields) (s : State) : Result :=
  checked (.ctrSection f) s <| withCtr f s fun c =>
    require (sectionSize f % bs c.cipher == 0) .illegalCommand s <|
      respond (s.setSlot f.ctx (.ctr { c with gen := { c.gen with sect := BitVec.ofNat 32 (sectionSize f) } })) []

/-- `CTR.CRYPT` (R150): the payload through the driver. -/
def execCtrCrypt (f : Fields) (s : State) : Result :=
  checked (.ctrCrypt f) s <| withCtr f s fun c =>
    require (ctrStreams c) .badOrder s <|
      respond (s.setSlot f.ctx (.ctr { c with gen := (ctrStream s.cfg c.cipher c.gen f.payload).2 }))
        (ctrStream s.cfg c.cipher c.gen f.payload).1

/-- `ACPKM.MESH` (R152): one unconditional rekeying step of a `BC` or a `CTR` context; on a `CTR` context
`num` is masked. -/
def execAcpkmMesh (f : Fields) (s : State) : Result :=
  checked (.acpkmMesh f) s <|
    match s.slot f.ctx with
    | .bc c => respond (s.setSlot f.ctx (.bc { c with key := acpkmNextKey s.cfg c.cipher c.key })) []
    | .ctr c =>
      respond (s.setSlot f.ctx (.ctr
        { c with gen := { c.gen with key := acpkmNextKey s.cfg c.cipher c.gen.key, num := maskNum c.cipher c.gen.num } })) []
    | _ => raise s .keyNotSet

end Sys2Proof.Machine
end

