-- ==== Sys2Proof/Machine/Ctx.lean ====
section
/-! DEFINITION. The context management commands and `NOP` (45_context.md). -/

namespace Sys2Proof.Machine

/-- The four bytes `CTX.QUERY` answers: kind, cipher, phase, tag or MAC length (R295). -/
def queryBytes (x : Slot) : Bytes :=
  let kind := BitVec.ofNat 8 (kindCode x)
  match x with
  | .empty => [0, 0, 0, 0]
  | .bc c => [kind, BitVec.ofNat 8 (cipherCode c.cipher), BitVec.ofNat 8 (bcPhaseCode c.phase), 0]
  | .ctr c => [kind, BitVec.ofNat 8 (cipherCode c.cipher), BitVec.ofNat 8 (ctrPhaseCode c.phase), 0]
  | .mgm m => [kind, BitVec.ofNat 8 (cipherCode m.cipher), BitVec.ofNat 8 (mgmPhaseCode m.phase), BitVec.ofNat 8 m.taglen]
  | .omac o => [kind, BitVec.ofNat 8 (cipherCode o.cipher), BitVec.ofNat 8 (omacPhaseCode o.phase), BitVec.ofNat 8 o.maclen]

/-- `NOP` (R296): no state change, an empty response. -/
def execNop (f : Fields) (s : State) : Result := checked (.nop f) s <| respond s []

/-- `CTX.CLONE` (R291): the destination becomes a copy of the source by value; onto itself it changes nothing. -/
def execCtxClone (f : Fields) (s : State) : Result :=
  checked (.ctxClone f) s <|
    if f.ctx = f.a then respond s [] else respond (s.setSlot f.ctx (s.slot f.a)) []

/-- `CTX.DESTROY` (R293): the slot becomes `Empty`. -/
def execCtxDestroy (f : Fields) (s : State) : Result :=
  checked (.ctxDestroy f) s <| respond (s.setSlot f.ctx .empty) []

/-- `CTX.QUERY` (R295): no state change. -/
def execCtxQuery (f : Fields) (s : State) : Result :=
  checked (.ctxQuery f) s <| respond s (queryBytes (s.slot f.ctx))

end Sys2Proof.Machine
end

