-- ==== Sys2Proof/Machine/GfMul.lean ====
section
/-! DEFINITION. The field multiplier `gf_mul` (R120 to R122 of 41_gf_mul.md) and the doubling rule `dbl` (R241 of 44_omac.md). -/

namespace Sys2Proof.Machine

/-- `x` times the polynomial `x`, reduced: shift left by one in `n` bits, and where a bit falls out xor in
`red` (the body of the loop of R122, and R241). -/
def shiftReduce (n red x : Nat) : Nat :=
  if 2 * x < 2 ^ n then 2 * x else (2 * x) % 2 ^ n ^^^ red

/-- The bit-serial procedure of R122: the steps `k = n - todo .. n-1` of the loop. -/
def gfLoop (n red : Nat) : (todo : Nat) → (x y r : Nat) → Nat
  | 0, _, _, r => r
  | todo + 1, x, y, r =>
    gfLoop n red todo (shiftReduce n red x) (y / 2) (if y % 2 = 1 then r ^^^ x else r)

/-- `gf_mul(a, b)` on blocks of `BS(c)` bytes, read big-endian (R121, R122). -/
def gfMul (c : Cipher) (a b : Bytes) : Bytes :=
  bytesOf (bs c) (gfLoop (8 * bs c) (reduction c) (8 * bs c) (intOf a) (intOf b) 0)

/-- `dbl(X)` (R241): shift left by one, and xor `Rb` in where the top bit was 1. -/
def dbl (c : Cipher) (x : Bytes) : Bytes :=
  bytesOf (bs c) (((intOf x * 2) % 2 ^ (8 * bs c)) ^^^ (if intOf x / 2 ^ (8 * bs c - 1) % 2 = 1 then reduction c else 0))

end Sys2Proof.Machine
end

