-- ==== Sys2Proof/Machine/Gf.lean ====
section
/-! DEFINITION. The field multiplier commands (41_gf_mul.md). -/

namespace Sys2Proof.Machine

/-- `GF.MUL64` (R123): the product of two 8-byte blocks; no state is read or written. -/
def execGfMul64 (f : Fields) (s : State) : Result :=
  checked (.gfMul64 f) s <| respond s (gfMul .magma (factors f .magma).1 (factors f .magma).2)

/-- `GF.MUL128` (R124): the product of two 16-byte blocks; no state is read or written. -/
def execGfMul128 (f : Fields) (s : State) : Result :=
  checked (.gfMul128 f) s <| respond s (gfMul .grasshopper (factors f .grasshopper).1 (factors f .grasshopper).2)

end Sys2Proof.Machine
end

