-- ==== Sys2Proof/Machine/MgmEngine.lean ====
section
/-! DEFINITION. The building blocks of the MGM engine (43_mgm.md section 1 and the effects of R186 and R187). -/

namespace Sys2Proof.Machine

/-- `E_K(X)` of an `MGM` context (R14). -/
def mgmE (cfg : Config) (m : MgmCtx) (x : Bytes) : Bytes := encBlock cfg.bc m.cipher m.key x

/-- `fold(m, X)` (R180): `H = E_K(Z)`, `sum ^= gf_mul(H, X)`, `Z` to `incr_l(Z)`. -/
def mgmFold (cfg : Config) (m : MgmCtx) (x : Bytes) : MgmCtx :=
  { m with sum := xorB m.sum (gfMul m.cipher (mgmE cfg m m.z) x), z := incrL m.z }

/-- The waiting partial block of associated data is folded, zero-padded, and its buffer emptied (R187, R189). -/
def mgmFlushAad (cfg : Config) (m : MgmCtx) : MgmCtx :=
  if 0 < m.ares then { mgmFold cfg m m.abuf with ares := 0, abuf := zeros (bs m.cipher) } else m

/-- The waiting partial block of ciphertext is folded, zero-padded, and its buffer emptied (R189). -/
def mgmFlushData (cfg : Config) (m : MgmCtx) : MgmCtx :=
  if 0 < m.mres then { mgmFold cfg m m.cbuf with mres := 0, cbuf := zeros (bs m.cipher) } else m

/-- `Z_1 = E_K(settop(nonce, 1))`, computed in phase `IVSet` (R186, R187). -/
def mgmStartZ (cfg : Config) (m : MgmCtx) : MgmCtx :=
  if m.phase = .ivSet then { m with z := mgmE cfg m (settop m.nonce true) } else m

/-- The start of an `MGM.AAD`: the first one computes `Z_1` and moves to `ProcessingAAD` (R186). -/
def mgmOpenAad (cfg : Config) (m : MgmCtx) : MgmCtx :=
  { mgmStartZ cfg m with phase := .processingAad }

/-- One byte of associated data (R186). -/
def mgmAadByte (cfg : Config) (m : MgmCtx) (b : Byte) : MgmCtx :=
  let m1 := { m with abuf := m.abuf.set m.ares b, ares := m.ares + 1 }
  if m1.ares = bs m.cipher then { mgmFold cfg m1 m1.abuf with ares := 0, abuf := zeros (bs m.cipher) } else m1

/-- The effect of `MGM.AAD` on the context (R186). -/
def mgmAad (cfg : Config) (m : MgmCtx) (p : Bytes) : MgmCtx :=
  let m1 := p.foldl (mgmAadByte cfg) (mgmOpenAad cfg m)
  { m1 with aLen := m1.aLen + BitVec.ofNat 64 p.length }

/-- The start of a data command: on the first one of the message `Z_1` where associated data was never
started, `Y_1`, the flush of the waiting associated data, and the phase; then the direction is latched (R187). -/
def mgmOpenData (cfg : Config) (m : MgmCtx) (d : Dir) : MgmCtx :=
  if m.phase = .processingData then { m with dir := d }
  else
    let m1 := mgmStartZ cfg m
    let m2 := { m1 with y := mgmE cfg m1 (settop m1.nonce false) }
    { mgmFlushAad cfg m2 with phase := .processingData, dir := d }

/-- A new keystream block where none is in use: `ks = E_K(Y)`, `Y` to `incr_r(Y)` (R187). -/
def mgmReady (cfg : Config) (m : MgmCtx) : MgmCtx :=
  if m.mres = 0 then { m with ks := mgmE cfg m m.y, y := incrR m.y } else m

/-- One byte of the message: the byte out, and the context after the ciphertext byte, whichever side it is
on, went into the authenticator (R187). A used-up `ks` keeps its bytes (DEDUCED, log 11). -/
def mgmDataByte (cfg : Config) (d : Dir) (m : MgmCtx) (b : Byte) : Byte × MgmCtx :=
  let m1 := mgmReady cfg m
  let o := b ^^^ m1.ks.getD m1.mres 0
  let c := if d = .enc then o else b
  let m2 := { m1 with cbuf := m1.cbuf.set m1.mres c, mres := m1.mres + 1 }
  (o, if m2.mres = bs m.cipher then { mgmFold cfg m2 m2.cbuf with mres := 0, cbuf := zeros (bs m.cipher) } else m2)

/-- The bytes of a data command, in order (R187). -/
def mgmDataBytes (cfg : Config) (d : Dir) : MgmCtx → Bytes → Bytes × MgmCtx
  | m, [] => ([], m)
  | m, b :: rest =>
    let r := mgmDataByte cfg d m b
    let t := mgmDataBytes cfg d r.2 rest
    (r.1 :: t.1, t.2)

/-- `mgm_data(m, payload, d)` (R187): the bytes out and the context after them. -/
def mgmData (cfg : Config) (m : MgmCtx) (p : Bytes) (d : Dir) : Bytes × MgmCtx :=
  let r := mgmDataBytes cfg d (mgmOpenData cfg m d) p
  (r.1, { r.2 with cLen := r.2.cLen + BitVec.ofNat 64 p.length })

/-- The length block `L`: the two bit counts, associated data first, `h` bytes each (R189). -/
def mgmLengthBlock (m : MgmCtx) : Bytes :=
  bytesOf (halfBs m.cipher) (8 * m.aLen.toNat) ++ bytesOf (halfBs m.cipher) (8 * m.cLen.toNat)

/-- `mgm_finish(m)` (R189). -/
def mgmFinish (cfg : Config) (m : MgmCtx) : MgmCtx :=
  let m1 := mgmFlushData cfg (mgmFlushAad cfg m)
  let m2 := mgmFold cfg m1 (mgmLengthBlock m1)
  { m2 with tag := mgmE cfg m2 m2.sum, phase := .finalized }

end Sys2Proof.Machine
end

