-- ==== Sys2Proof/Machine/Mgm.lean ====
section
/-! DEFINITION. The MGM commands (43_mgm.md section 3). -/

namespace Sys2Proof.Machine

/-- The length bound of R192, strict: a total of exactly `MGM_LIMIT` bytes is accepted. -/
def mgmFits (c : Cipher) (sofar : BitVec 64) (plen : Nat) : Bool := sofar.toNat + plen ≤ mgmLimit c

/-- `MGM.INIT` (R182). -/
def execMgmInit (f : Fields) (s : State) : Result :=
  checked (.mgmInit f) s <| withCipher f s fun c =>
    let z := zeros (bs c)
    respond (s.setSlot f.ctx (.mgm
      { cipher := c, key := keyOperand f, phase := .keySet, dir := .none, taglen := bs c, nonce := z, z := z, y := z,
        sum := z, aLen := 0, cLen := 0, ares := 0, mres := 0, abuf := z, cbuf := z, ks := z, tag := z })) []

/-- `MGM.SETIV` (R183): a new message under the same key and tag length, in every phase. -/
def execMgmSetiv (f : Fields) (s : State) : Result :=
  checked (.mgmSetiv f) s <| withMgm f s fun m =>
    require (f.plen == bs m.cipher) .illegalCommand s <|
      let z := zeros (bs m.cipher)
      respond (s.setSlot f.ctx (.mgm
        { m with
          nonce := settop f.payload false, aLen := 0, cLen := 0, ares := 0, mres := 0, sum := z, abuf := z,
          cbuf := z, ks := z, tag := z, z := z, y := z, dir := .none, phase := .ivSet })) []

/-- `MGM.TAGLEN` (R190). -/
def execMgmTaglen (f : Fields) (s : State) : Result :=
  checked (.mgmTaglen f) s <| withMgm f s fun m =>
    require (mgmTaglenPhase m) .badOrder s <|
      require (lenOk m.cipher (lenOperand f)) .invalidTagLength s <|
        respond (s.setSlot f.ctx (.mgm { m with taglen := lenOperand f })) []

/-- `MGM.AAD` (R186). -/
def execMgmAad (f : Fields) (s : State) : Result :=
  checked (.mgmAad f) s <| withMgm f s fun m =>
    require (mgmAadPhase m) .badOrder s <|
      require (mgmFits m.cipher m.aLen f.plen) .dataTooLarge s <|
        respond (s.setSlot f.ctx (.mgm (mgmAad s.cfg m f.payload))) []

/-- The checks and effect `MGM.ENC` and `MGM.DEC` share (R187, R188). -/
def mgmDataCommand (f : Fields) (s : State) (d : Dir) : Result :=
  withMgm f s fun m =>
    require (mgmDataPhase m) .badOrder s <|
      require (mgmDirOk m d) .badOrder s <|
        require (mgmFits m.cipher m.cLen f.plen) .dataTooLarge s <|
          respond (s.setSlot f.ctx (.mgm (mgmData s.cfg m f.payload d).2)) (mgmData s.cfg m f.payload d).1

/-- `MGM.ENC` (R187). -/
def execMgmEnc (f : Fields) (s : State) : Result :=
  checked (.mgmEnc f) s <| mgmDataCommand f s .enc

/-- `MGM.DEC` (R188). -/
def execMgmDec (f : Fields) (s : State) : Result :=
  checked (.mgmDec f) s <| mgmDataCommand f s .dec

/-- `MGM.FINISH` (R191): the leading `taglen` bytes of the tag. -/
def execMgmFinish (f : Fields) (s : State) : Result :=
  checked (.mgmFinish f) s <| withMgm f s fun m =>
    require (mgmEndPhase m .dec) .badOrder s <|
      respond (s.setSlot f.ctx (.mgm (mgmFinish s.cfg m))) ((mgmFinish s.cfg m).tag.take m.taglen)

/-- `MGM.VERIFY` (R193): the state change of the finishing computation is kept whatever the verdict. -/
def execMgmVerify (f : Fields) (s : State) : Result :=
  checked (.mgmVerify f) s <| withMgm f s fun m =>
    require (mgmEndPhase m .enc) .badOrder s <|
      require (f.plen == m.taglen) .invalidTagLength s <|
        let s1 := s.setSlot f.ctx (.mgm (mgmFinish s.cfg m))
        if (mgmFinish s.cfg m).tag.take m.taglen = f.payload then respond s1 [] else raise s1 .authenticationFailed

end Sys2Proof.Machine
end

