-- ==== Sys2Proof/Machine/OmacEngine.lean ====
section
/-! DEFINITION. The building blocks of the OMAC engine (44_omac.md section 1 and the effects of R247, R250, R252). -/

namespace Sys2Proof.Machine

/-- `E_key(X)` of an `OMAC` context. -/
def omacE (cfg : Config) (o : OmacCtx) (x : Bytes) : Bytes := encBlock cfg.bc o.cipher o.key x

/-- The next `32 + BS` bytes of a master's keystream, and the master after them (R247, R251). -/
def masterKeys (cfg : Config) (c : Cipher) (g : CtrGen) : Bytes × CtrGen :=
  ctrStream cfg c g (zeros (keyLen + bs c))

/-- The master generator of a new context: the user's key, the wide IV, the section size `T*` (R247). -/
def masterInit (c : Cipher) (key : Bytes) (t : Nat) : CtrGen :=
  { key := key, ctr := List.replicate (halfBs c) 0xFF#8 ++ zeros (halfBs c), ks := zeros (bs c),
    num := 0, sect := BitVec.ofNat 32 t }

/-- The mesh is due: `acpkm = 1`, `N != 0` and `num >= N` (R251). -/
def omacMeshDue (o : OmacCtx) : Bool := o.acpkm && o.n != 0 && o.n.toNat ≤ o.num.toNat

/-- `omac_mesh_check(o)` (R251): where due, `key`, `K1` and `K2` are replaced together and `num` is 0;
`chain`, `lbuf` and `nlast` are not touched. -/
def omacMeshCheck (cfg : Config) (o : OmacCtx) : OmacCtx :=
  match o.master with
  | none => o
  | some g =>
    if omacMeshDue o then
      let r := masterKeys cfg o.cipher g
      { o with
        key := slice r.1 0 keyLen, k1 := slice r.1 keyLen (keyLen + bs o.cipher),
        k2 := dbl o.cipher (slice r.1 keyLen (keyLen + bs o.cipher)), num := 0, master := some r.2 }
    else o

/-- The waiting complete block goes into the chain, under the key the mesh check leaves (R250). `num` has 64 bits
(R7) and wraps (DEDUCED, log 14). -/
def omacChain (cfg : Config) (o : OmacCtx) : OmacCtx :=
  let o1 := omacMeshCheck cfg o
  { o1 with
    chain := omacE cfg o1 (xorB o1.chain o1.lbuf), num := o1.num + BitVec.ofNat 64 (bs o.cipher),
    nlast := 0, lbuf := zeros (bs o.cipher) }

/-- One byte of the message (R250). -/
def omacByte (cfg : Config) (o : OmacCtx) (b : Byte) : OmacCtx :=
  let o1 := if o.nlast = bs o.cipher then omacChain cfg o else o
  { o1 with lbuf := o1.lbuf.set o1.nlast b, nlast := o1.nlast + 1 }

/-- The effect of `OMAC.UPDATE` on the context (R250). -/
def omacUpdate (cfg : Config) (o : OmacCtx) (p : Bytes) : OmacCtx := p.foldl (omacByte cfg) o

/-- The whitened last block `W` (R252). -/
def omacLast (o : OmacCtx) : Bytes :=
  if o.nlast = bs o.cipher then xorB o.lbuf o.k1
  else xorB (o.lbuf.take o.nlast ++ 0x80#8 :: zeros (bs o.cipher - o.nlast - 1)) o.k2

/-- The effect of `OMAC.FINAL` on the context (R252). -/
def omacFinal (cfg : Config) (o : OmacCtx) : OmacCtx :=
  let o1 := omacMeshCheck cfg o
  { o1 with mac := omacE cfg o1 (xorB o1.chain (omacLast o1)), phase := .finalized }

end Sys2Proof.Machine
end

