-- ==== Sys2Proof/Machine/Omac.lean ====
section
/-! DEFINITION. The OMAC commands (44_omac.md section 2). -/

namespace Sys2Proof.Machine

/-- `OMAC.INIT` (R244): plain OMAC, `K1 = dbl(E_K(0))`, `K2 = dbl(K1)`. -/
def execOmacInit (f : Fields) (s : State) : Result :=
  checked (.omacInit f) s <| withCipher f s fun c =>
    let z := zeros (bs c)
    let k1 := dbl c (encBlock s.cfg.bc c (keyOperand f) z)
    respond (s.setSlot f.ctx (.omac
      { cipher := c, phase := .keySet, key := keyOperand f, k1 := k1, k2 := dbl c k1, chain := z, lbuf := z, nlast := 0,
        num := 0, n := 0, maclen := bs c, mac := z, master := none })) []

/-- `OMAC.INITA` (R247): OMAC with ACPKM, `key` and `K1` from the master's keystream. -/
def execOmacInita (f : Fields) (s : State) : Result :=
  checked (.omacInita f) s <| withCipher f s fun c =>
    let z := zeros (bs c)
    let r := masterKeys s.cfg c (masterInit c (keyOperand f) (sections f).2)
    let k1 := slice r.1 keyLen (keyLen + bs c)
    respond (s.setSlot f.ctx (.omac
      { cipher := c, phase := .keySet, key := slice r.1 0 keyLen, k1 := k1, k2 := dbl c k1, chain := z, lbuf := z,
        nlast := 0, num := 0, n := BitVec.ofNat 32 (sections f).1, maclen := bs c, mac := z, master := some r.2 })) []

/-- `OMAC.MACLEN` (R249). -/
def execOmacMaclen (f : Fields) (s : State) : Result :=
  checked (.omacMaclen f) s <| withOmac f s fun o =>
    require (omacOpen o) .badOrder s <|
      require (lenOk o.cipher (lenOperand f)) .invalidMacSize s <|
        respond (s.setSlot f.ctx (.omac { o with maclen := lenOperand f })) []

/-- `OMAC.UPDATE` (R250). -/
def execOmacUpdate (f : Fields) (s : State) : Result :=
  checked (.omacUpdate f) s <| withOmac f s fun o =>
    require (omacOpen o) .badOrder s <|
      respond (s.setSlot f.ctx (.omac (omacUpdate s.cfg o f.payload))) []

/-- `OMAC.FINAL` (R252): the leading `maclen` bytes of the MAC. -/
def execOmacFinal (f : Fields) (s : State) : Result :=
  checked (.omacFinal f) s <| withOmac f s fun o =>
    require (omacOpen o) .badOrder s <|
      respond (s.setSlot f.ctx (.omac (omacFinal s.cfg o))) ((omacFinal s.cfg o).mac.take o.maclen)

end Sys2Proof.Machine
end

