-- ==== Sys2Proof/Machine/Dispatch.lean ====
section
/-! DEFINITION. The meaning of every command: one arm per row of the opcode map (R76). -/

namespace Sys2Proof.Machine

def exec (i : Instr) (s : State) : Host.Outcome State Fault Refusal :=
  match i with
  | .nop f => Sys2Proof.Machine.execNop f s
  | .bcSetkey f => Sys2Proof.Machine.execBcSetkey f s
  | .bcEnc f => Sys2Proof.Machine.execBcEnc f s
  | .bcDec f => Sys2Proof.Machine.execBcDec f s
  | .gfMul64 f => Sys2Proof.Machine.execGfMul64 f s
  | .gfMul128 f => Sys2Proof.Machine.execGfMul128 f s
  | .ctrSetkey f => Sys2Proof.Machine.execCtrSetkey f s
  | .ctrSetiv f => Sys2Proof.Machine.execCtrSetiv f s
  | .ctrSection f => Sys2Proof.Machine.execCtrSection f s
  | .ctrCrypt f => Sys2Proof.Machine.execCtrCrypt f s
  | .acpkmMesh f => Sys2Proof.Machine.execAcpkmMesh f s
  | .mgmInit f => Sys2Proof.Machine.execMgmInit f s
  | .mgmSetiv f => Sys2Proof.Machine.execMgmSetiv f s
  | .mgmTaglen f => Sys2Proof.Machine.execMgmTaglen f s
  | .mgmAad f => Sys2Proof.Machine.execMgmAad f s
  | .mgmEnc f => Sys2Proof.Machine.execMgmEnc f s
  | .mgmDec f => Sys2Proof.Machine.execMgmDec f s
  | .mgmFinish f => Sys2Proof.Machine.execMgmFinish f s
  | .mgmVerify f => Sys2Proof.Machine.execMgmVerify f s
  | .omacInit f => Sys2Proof.Machine.execOmacInit f s
  | .omacInita f => Sys2Proof.Machine.execOmacInita f s
  | .omacMaclen f => Sys2Proof.Machine.execOmacMaclen f s
  | .omacUpdate f => Sys2Proof.Machine.execOmacUpdate f s
  | .omacFinal f => Sys2Proof.Machine.execOmacFinal f s
  | .ctxClone f => Sys2Proof.Machine.execCtxClone f s
  | .ctxDestroy f => Sys2Proof.Machine.execCtxDestroy f s
  | .ctxQuery f => Sys2Proof.Machine.execCtxQuery f s

end Sys2Proof.Machine
end

