-- ==== Sys2Proof/Machine/Front.lean ====
section
/-! DEFINITION. The command front end: a byte string taken as a frame is decoded and executed (R11, R78). -/

namespace Sys2Proof.Machine

/-- A frame against a state: the command it decodes to is executed, and what is no command is answered
`IllegalCommand` with no state change (R78). Total on every byte string (R11). -/
def runFrame (frame : Bytes) (s : State) : Result :=
  match decode frame with
  | .ok i => exec i s
  | .error _ => raise s .illegalCommand

/-- One step: the oldest waiting frame leaves the command port and is executed whole (R11, R55); with no
frame waiting the unit waits, and nothing changes (R62, R371; log 7). -/
def stepFront (s : State) : Result :=
  match s.cmd with
  | [] => .next s
  | frame :: rest => runFrame frame { s with cmd := rest }

/-- The state with a frame in front of all that wait on the command port. -/
def placeFrame (s : State) (frame : Bytes) : State := { s with cmd := frame :: s.cmd }

end Sys2Proof.Machine
end

