-- ==== Sys2Proof/Machine/Port.lean ====
section
/-! DEFINITION. What the host does at the ports (R51, R62 of 20_memory.md): these are inputs, not steps. -/

namespace Sys2Proof.Machine

/-- The host delivers a byte string as a frame (R62, R78). Where another frame is half received in bytes, this one joins the
waiting frames and the half-received bytes stay (DESIGN CHOICE, log 20: R51 and R374 do not say how the two ways of
delivery mix). -/
def hostSendFrame (s : State) (frame : Bytes) : State := { s with cmd := s.cmd ++ [frame] }

/-- The host writes bytes on the command port: every frame that is now whole joins the waiting ones, the
rest stays half received (R51, R70). -/
def hostSendBytes (s : State) (bytes : Bytes) : State :=
  let r := splitFrames (s.rx ++ bytes).length (s.rx ++ bytes)
  { s with cmd := s.cmd ++ r.1, rx := r.2 }

/-- The host takes the oldest response frame from the response port, where there is one (R51, R55). -/
def hostReceive (s : State) : Option (Bytes × State) :=
  match s.resp with
  | [] => none
  | r :: rest => some (responseFrame r, { s with resp := rest })

/-- Reset of a unit: every slot `Empty`, nothing waiting, half received or pending; the parameters of the
unit are what they were (R370; DEDUCED, log 17). -/
def hostReset (s : State) : State :=
  { cfg := s.cfg, ctx := List.replicate s.nctx .empty, cmd := [], rx := [], resp := [] }

end Sys2Proof.Machine
end

