-- ==== Sys2Proof/Machine/Step.lean ====
section
/-! DEFINITION. One step of the unit, and how the host of the proofs places its next command. -/

namespace Sys2Proof.Machine

/-- One step of the unit: see `stepFront`. -/
def step (s : State) : Host.Outcome State Fault Refusal := stepFront s

/-- The state whose next step runs the command with the bits `w`: its frame, the bits from `nbits` up zero,
stands in front of the frames waiting on the command port (log 8). -/
def State.withFetchWord (s : State) (nbits w : Nat) : State := placeFrame s (tableFrame nbits w)

end Sys2Proof.Machine
end

