-- ==== Sys2Proof/Safety.lean ====
section
/-! DEFINITION. What a well-formed state of the unit is (the widths and invariants of 10_state.md), and which
statuses each command may answer (R342 of 60_exceptions.md): the terms claims are stated in. -/

namespace Sys2Proof.Machine

/-- A string of one block of the cipher. -/
def IsBlock (c : Cipher) (b : Bytes) : Prop := b.length = bs c

/-- The widths of a CTR generator (R30), and its section size a multiple of `BS` (R30, R148). -/
structure GenWf (c : Cipher) (g : CtrGen) : Prop where
  key  : g.key.length = keyLen
  ctr  : IsBlock c g.ctr
  ks   : IsBlock c g.ks
  sect : g.sect.toNat % bs c = 0

/-- The widths, ranges and invariants of an `MGM` context (R35, R37 (a) to (g)). The last two fields say that
the length counters are 0 before their first command (R182, R183; DEDUCED, log 15), which R37 (e) needs to be kept by a step. -/
structure MgmWf (m : MgmCtx) : Prop where
  key      : m.key.length = keyLen
  taglen   : 1 ≤ m.taglen ∧ m.taglen ≤ bs m.cipher
  blocks   : ∀ b ∈ [m.nonce, m.z, m.y, m.sum, m.abuf, m.cbuf, m.ks, m.tag], IsBlock m.cipher b
  ares     : m.ares < bs m.cipher
  mres     : m.mres < bs m.cipher
  abuf     : m.abuf.drop m.ares = zeros (bs m.cipher - m.ares)
  cbuf     : m.cbuf.drop m.mres = zeros (bs m.cipher - m.mres)
  aresWhen : 0 < m.ares → m.phase = .processingAad
  mresWhen : 0 < m.mres → m.phase = .processingData
  aLen     : m.aLen.toNat ≤ mgmLimit m.cipher
  cLen     : m.cLen.toNat ≤ mgmLimit m.cipher
  aresIs   : m.phase = .processingAad → m.ares = m.aLen.toNat % bs m.cipher
  mresIs   : m.phase = .processingData → m.mres = m.cLen.toNat % bs m.cipher
  nonce    : settop m.nonce false = m.nonce
  idle     : m.phase = .keySet ∨ m.phase = .ivSet → m.z = zeros (bs m.cipher) ∧ m.y = zeros (bs m.cipher)
  aLenZero : m.phase = .keySet ∨ m.phase = .ivSet → m.aLen = 0
  cLenZero : m.phase = .keySet ∨ m.phase = .ivSet ∨ m.phase = .processingAad → m.cLen = 0

/-- The widths, ranges and invariants of an `OMAC` context (R40, R43); `acpkm = 0` has `N = 0` (R40), and
the master's `num` stays a multiple of `BS` (R247). -/
structure OmacWf (o : OmacCtx) : Prop where
  key    : o.key.length = keyLen
  blocks : ∀ b ∈ [o.k1, o.k2, o.chain, o.lbuf, o.mac], IsBlock o.cipher b
  maclen : 1 ≤ o.maclen ∧ o.maclen ≤ bs o.cipher
  nlast  : o.nlast ≤ bs o.cipher
  lbuf   : o.lbuf.drop o.nlast = zeros (bs o.cipher - o.nlast)
  k2     : o.k2 = dbl o.cipher o.k1
  num    : o.num.toNat % bs o.cipher = 0
  n      : o.n.toNat % bs o.cipher = 0
  numLe  : o.acpkm = true → o.n ≠ 0 → o.num.toNat ≤ o.n.toNat
  plain  : o.acpkm = false → o.n = 0
  master : ∀ g, o.master = some g → GenWf o.cipher g ∧ g.num.toNat % bs o.cipher = 0

/-- A well-formed slot, by its kind. -/
def SlotWf : Slot → Prop
  | .empty => True
  | .bc c => c.key.length = keyLen
  | .ctr c => GenWf c.cipher c.gen
  | .mgm m => MgmWf m
  | .omac o => OmacWf o

/-- What `ks` is while some of it is still to be used (R32, and R37 (h)). In a `CTR` context it is the keystream block of the
counter block before the one in `ctr`, under the key the context has now or had some meshing steps ago: `ACPKM.MESH`
in mid-block keeps the rest of a block made under the old key (R152). In an `MGM` context it is the encryption of the
`Y` before the one in `y`. The master of an `OMAC` context has no block in use between commands (`OmacWf.master`). -/
def StreamWf (cfg : Config) : Slot → Prop
  | .ctr c => c.gen.num.toNat % bs c.cipher ≠ 0 →
      ∃ key ctr0 steps, key.length = keyLen ∧ IsBlock c.cipher ctr0 ∧ (acpkmNextKey cfg c.cipher)^[steps] key = c.gen.key ∧
        c.gen.ks = encBlock cfg.bc c.cipher key ctr0 ∧ c.gen.ctr = incrFull ctr0
  | .mgm m => m.mres ≠ 0 →
      ∃ y0, IsBlock m.cipher y0 ∧ m.ks = encBlock cfg.bc m.cipher m.key y0 ∧ m.y = incrR y0
  | _ => True

/-- A well-formed state: `ACPKM_D` has 32 bytes (R10), there are 1 to 16 slots (R7), and every slot is
well-formed, its keystream block included. -/
structure StateWf (s : State) : Prop where
  acpkmD  : s.cfg.acpkmD.length = keyLen
  nctx    : 1 ≤ s.nctx ∧ s.nctx ≤ 16
  slots   : ∀ x ∈ s.ctx, SlotWf x
  streams : ∀ x ∈ s.ctx, StreamWf s.cfg x

/-- The table of R342: the statuses a command may answer, besides `OK` and the `IllegalCommand` of the
stages S0 and S1, which every command may. -/
def mayRaise : Instr → List Status
  | .nop _ | .gfMul64 _ | .gfMul128 _ => []
  | .bcSetkey _ | .ctrSetkey _ | .mgmInit _ | .omacInit _ | .omacInita _ => []
  | .ctxClone _ | .ctxDestroy _ | .ctxQuery _ => []
  | .bcEnc _ | .bcDec _ | .ctrSetiv _ | .ctrSection _ | .mgmSetiv _ => [.keyNotSet, .illegalCommand]
  | .ctrCrypt _ => [.keyNotSet, .badOrder]
  | .acpkmMesh _ => [.keyNotSet]
  | .mgmTaglen _ => [.keyNotSet, .badOrder, .invalidTagLength]
  | .mgmAad _ | .mgmEnc _ | .mgmDec _ => [.keyNotSet, .badOrder, .dataTooLarge]
  | .mgmFinish _ => [.keyNotSet, .badOrder]
  | .mgmVerify _ => [.keyNotSet, .badOrder, .invalidTagLength, .authenticationFailed]
  | .omacMaclen _ => [.macKeyNotSet, .badOrder, .invalidMacSize]
  | .omacUpdate _ | .omacFinal _ => [.macKeyNotSet, .badOrder]

/-- The commands that change no state at all (R57). -/
def readsOnly : Instr → Bool
  | .ctxQuery _ | .bcEnc _ | .bcDec _ | .gfMul64 _ | .gfMul128 _ | .nop _ => true
  | _ => false

/-- The state after a command that did nothing but answer with this status and payload. -/
def answered (s : State) (st : Status) (p : Bytes) : State := { s with resp := s.resp ++ [⟨st, p⟩] }

/-- The state after a command that replaced the slot `n` by `x`, touched nothing else, and answered with
this status and payload. -/
def answeredWith (s : State) (n : BitVec 4) (x : Slot) (st : Status) (p : Bytes) : State :=
  { s with ctx := s.ctx.set n.toNat x, resp := s.resp ++ [⟨st, p⟩] }

/-- The slot a command names holds this record (so the index is below `NCTX`). -/
def holdsSlot (s : State) (n : BitVec 4) (x : Slot) : Prop := s.ctx[n.toNat]? = some x

/-- A frame whose `A` and `IMM` fields are 0, as most commands ask (R71). -/
def noOperands (f : Fields) : Prop := f.a = 0 ∧ f.imm = 0

/-- The form of a creating command for the cipher `c` with a payload of `len` bytes (R71, R79). -/
def createsForm (s : State) (f : Fields) (c : Cipher) (len : Nat) : Prop :=
  f.ctx.toNat < s.ctx.length ∧ f.a.toNat = cipherCode c ∧ f.imm = 0 ∧ f.payload.length = len

/-! ### Sequences of commands -/

/-- The fields of a command that names a slot and carries a payload, its `A` and `IMM` 0 (R71). -/
def onSlot (n : BitVec 4) (p : Bytes) : Fields := { ctx := n, a := 0, imm := 0, payload := p }

/-- Commands executed one after the other (R55); `none` if one of them stopped the machine. -/
def runCommands : List Instr → State → Option State
  | [], s => some s
  | i :: rest, s =>
    match exec i s with
    | .next t => runCommands rest t
    | _ => none

/-- The responses to those commands of a sequence whose `CTX` field is `n`, in order. -/
def answersTo (n : BitVec 4) : List Instr → State → List Response
  | [], _ => []
  | i :: rest, s =>
    match exec i s with
    | .next t => (if i.fields.ctx = n then t.resp.drop s.resp.length else []) ++ answersTo n rest t
    | _ => []

/-! ### Whole messages at once (R150 (c), R194, R255) -/

/-- A byte string cut into blocks of `n` bytes, the last one zero-padded (R194). -/
def blocksOf (n : Nat) (b : Bytes) : List Bytes :=
  (List.range ((b.length + n - 1) / n)).map fun i => fit n (slice b (i * n) ((i + 1) * n))

/-- The key of section `e` of a CTR-ACPKM stream: `e` meshing steps from the first one (R32). -/
def sectionKey (cfg : Config) (c : Cipher) (key : Bytes) (e : Nat) : Bytes := (acpkmNextKey cfg c)^[e] key

/-- Byte `j` of the keystream that starts at the counter block `ctr0` under `key`, meshed every `sect` bytes
where `sect` is not 0 (R32, R150 (c)). -/
def ctrKeystream (cfg : Config) (c : Cipher) (key ctr0 : Bytes) (sect j : Nat) : Byte :=
  let k := sectionKey cfg c key (if sect = 0 then 0 else j / sect)
  (encBlock cfg.bc c k (bytesOf (bs c) (intOf ctr0 + j / bs c))).getD (j % bs c) 0

/-- The MGM ciphertext of a message, or its plaintext: byte `j` is xored with byte `j mod BS` of
`E_K(Y_{1 + j div BS})` (R194). -/
def mgmCiphertext (cfg : Config) (c : Cipher) (key nonce p : Bytes) : Bytes :=
  (List.range p.length).map fun j =>
    p.getD j 0 ^^^ (encBlock cfg.bc c key (incrR^[j / bs c] (encBlock cfg.bc c key nonce))).getD (j % bs c) 0

/-- The MGM tag of associated data `a` and a ciphertext `x` (R194), before truncation. -/
def mgmTag (cfg : Config) (c : Cipher) (key nonce a x : Bytes) : Bytes :=
  let z1 := encBlock cfg.bc c key (settop nonce true)
  let blocks := blocksOf (bs c) a ++ blocksOf (bs c) x
    ++ [bytesOf (halfBs c) (8 * a.length) ++ bytesOf (halfBs c) (8 * x.length)]
  let sum := (List.range blocks.length).foldl
    (fun acc i => xorB acc (gfMul c (encBlock cfg.bc c key (incrL^[i] z1)) (blocks.getD i []))) (zeros (bs c))
  encBlock cfg.bc c key sum

/-- The OMAC of a message whose block `i`, from 0, is processed under the key and the whitening subkey `K1`
that `km i` gives (R240, R255), before truncation. -/
def omacOf (cfg : Config) (c : Cipher) (km : Nat → Bytes × Bytes) (msg : Bytes) : Bytes :=
  let q := max 1 ((msg.length + bs c - 1) / bs c)
  let chain := (List.range (q - 1)).foldl
    (fun ch i => encBlock cfg.bc c (km i).1 (xorB ch (slice msg (i * bs c) ((i + 1) * bs c)))) (zeros (bs c))
  let last := msg.drop ((q - 1) * bs c)
  let k1 := (km (q - 1)).2
  let w := if last.length = bs c then xorB last k1
    else xorB (last ++ 0x80#8 :: zeros (bs c - last.length - 1)) (dbl c k1)
  encBlock cfg.bc c (km (q - 1)).1 (xorB chain w)

/-- The key material of plain OMAC: the user's key and `K1 = dbl(E_K(0))`, for every block (R244, R255). -/
def plainMaterial (cfg : Config) (c : Cipher) (key : Bytes) : Bytes × Bytes :=
  (key, dbl c (encBlock cfg.bc c key (zeros (bs c))))

/-- The key material of OMAC with ACPKM for block `i`, from 0: the section is `i * BS / N` (0 where `N = 0`), and
section `e` has bytes `e * (32 + BS)` up to `(e + 1) * (32 + BS)` of the keystream of the master, whose
own key is meshed every `t` bytes (R255). -/
def sectionMaterial (cfg : Config) (c : Cipher) (key : Bytes) (n t i : Nat) : Bytes × Bytes :=
  let e := if n = 0 then 0 else i * bs c / n
  let len := keyLen + bs c
  let ctr0 := List.replicate (halfBs c) 0xFF#8 ++ zeros (halfBs c)
  let b := (List.range len).map fun j => ctrKeystream cfg c key ctr0 t (e * len + j)
  (b.take keyLen, b.drop keyLen)

end Sys2Proof.Machine
end

