-- ==== Sys2Proof/Certificates/Slice0/Obligations.lean ====
section
/-! DEFINITION. The statements for the provers: each a proposition about the unit, with the rules of spec/ it comes
from. Where a command is stated, its result is the whole next state: `answered` and `answeredWith` (Safety.lean)
say that every other slot, the configuration, the frames waiting, the half-received bytes and the earlier
responses are as they were. -/

open Sys2Proof Sys2Proof.Machine

/-! ### Encoding and framing -/

/-- Decode and encode agree: the frame of a command that fits a frame decodes to that command, with every field
at every value (R70, R71, R72, R77). -/
def Obligations.DecodeOfEncode : Prop :=
  ∀ i : Instr, i.encodable = true → decode (encode i) = .ok i

/-- The other direction: a byte string that decodes is the frame of the command it decodes to, so no bit of a frame is
ignored and no two frames are the same command (R78: "no encoding that executes as another command"). -/
def Obligations.EncodeOfDecode : Prop :=
  ∀ (frame : Bytes) (i : Instr), decode frame = .ok i → i.encodable = true ∧ encode i = frame

/-- The header word, as a number (R71), and match and mask (R77): a header decodes to a command exactly when, under the mask, it is
the opcode of a row in the top byte; the command it decodes to has that opcode, and the fields at their places. -/
def Obligations.HeaderMatchAndMask : Prop :=
  (∀ i : Instr, (hdrWord i).toNat = (opcodeOf i).toNat * 2 ^ 24 + i.fields.ctx.toNat * 2 ^ 20
    + i.fields.a.toNat * 2 ^ 16 + i.fields.imm.toNat * 2 ^ 8) ∧
  ∀ (h : BitVec 32) (p : Bytes),
    (∀ i, decodeHdr h p = .ok i → h = hdrWord i ∧ i.fields.payload = p ∧
      (h &&& 0xFF0000FF#32).toNat = (opcodeOf i).toNat * 2 ^ 24) ∧
    (∀ i : Instr, (h &&& 0xFF0000FF#32).toNat = (opcodeOf i).toNat * 2 ^ 24 →
      ∃ j, decodeHdr h p = .ok j ∧ opcodeOf j = opcodeOf i)

/-- The decoder is total and refuses by name (R78): a frame shorter than 8 bytes, one whose payload is not of the length
`PLEN` says, and one whose `OP` is not in the opcode map, is answered `IllegalCommand`, and nothing else changes. -/
def Obligations.IllegalFramesAreRefused : Prop :=
  ∀ (s : State) (frame : Bytes) (rest : List Bytes), s.cmd = frame :: rest →
    (frame.length < 8 ∨ frame.length - 8 ≠ intOf (slice frame 4 8) ∨
      (frame.getD 0 0).toNat ∉ [0x00, 0x10, 0x11, 0x12, 0x20, 0x21, 0x30, 0x31, 0x32, 0x33, 0x34, 0x40, 0x41, 0x42,
        0x43, 0x44, 0x45, 0x46, 0x47, 0x50, 0x51, 0x52, 0x53, 0x54, 0x60, 0x61, 0x62]) →
    step s = .next (answered { s with cmd := rest } .illegalCommand [])

/-- The static checks (R79), written from the rule by opcode: each of the six, failing, is answered `IllegalCommand`
with no state change, whatever the slots hold. Check (1) is made on a frame, the others on the decoded command. -/
def Obligations.StaticChecksRefuse : Prop :=
  (∀ (s : State) (frame : Bytes) (rest : List Bytes), s.cmd = frame :: rest → 8 ≤ frame.length → frame.getD 3 0 ≠ 0 →
    step s = .next (answered { s with cmd := rest } .illegalCommand [])) ∧
  (∀ (i : Instr) (s : State),
    let op := (opcodeOf i).toNat
    let f := i.fields
    let bsA := if f.a = 0 then 8 else 16
    (op ∉ [0x00, 0x20, 0x21] ∧ s.nctx ≤ f.ctx.toNat) ∨
    (op ∈ [0x00, 0x20, 0x21] ∧ f.ctx ≠ 0) ∨
    (op ∈ [0x10, 0x30, 0x40, 0x50, 0x51] ∧ 1 < f.a.toNat) ∨
    (op = 0x60 ∧ s.nctx ≤ f.a.toNat) ∨
    (op ∉ [0x10, 0x30, 0x40, 0x50, 0x51, 0x60] ∧ f.a ≠ 0) ∨
    (op ∉ [0x42, 0x52] ∧ f.imm ≠ 0) ∨
    (op ∈ [0x00, 0x34, 0x42, 0x46, 0x52, 0x54, 0x60, 0x61, 0x62] ∧ f.plen ≠ 0) ∨
    (op ∈ [0x10, 0x30, 0x40, 0x50, 0x21] ∧ f.plen ≠ 32) ∨
    (op = 0x20 ∧ f.plen ≠ 16) ∨ (op = 0x32 ∧ f.plen ≠ 4) ∨ (op = 0x51 ∧ f.plen ≠ 40) ∨
    (op = 0x51 ∧ (intOf (slice f.payload 32 36) % bsA ≠ 0 ∨ intOf (slice f.payload 36 40) % bsA ≠ 0)) →
    exec i s = .next (answered s .illegalCommand []))

/-- The command port as a byte stream (R51, R70): how the host cuts the bytes does not show; and the bytes of any commands, one
frame after the other, queue exactly those frames, in order, and leave nothing half received. The queue of frames and the
half-received bytes are the model's form of the port (log 5). -/
def Obligations.ByteStreamFraming : Prop :=
  (∀ (s : State) (a b : Bytes), hostSendBytes (hostSendBytes s a) b = hostSendBytes s (a ++ b)) ∧
  (∀ (s : State) (cmds : List Instr), s.rx = [] → (∀ i ∈ cmds, i.encodable = true) →
    hostSendBytes s (cmds.flatMap encode) = { s with cmd := s.cmd ++ cmds.map encode })

/-- A few words written out from R71, R76 and R81 decode to the commands they stand for. -/
def Obligations.WorkedWordsDecode : Prop :=
  decode [0x42, 0x20, 0x08, 0x00, 0, 0, 0, 0] = .ok (.mgmTaglen ⟨2, 0, 8, []⟩) ∧
  decode [0x60, 0x10, 0x00, 0x00, 0, 0, 0, 0] = .ok (.ctxClone ⟨1, 0, 0, []⟩) ∧
  decode [0x32, 0x30, 0x00, 0x00, 0, 0, 0, 4, 0, 0, 0, 0x20] = .ok (.ctrSection ⟨3, 0, 0, [0, 0, 0, 0x20]⟩) ∧
  decode [0x00, 0x00, 0x00, 0x00, 0, 0, 0, 0] = .ok (.nop ⟨0, 0, 0, []⟩)

/-- A response frame says its response whole (R74, R331): its status code and its length, four bytes each, big-endian, then the
payload, with the code of each of the eleven statuses written out; and two responses whose payloads fit the
`RLEN` word and whose frames are the same bytes are the same response. -/
def Obligations.ResponseFramesAreUnambiguous : Prop :=
  (∀ (st : Status) (p : Bytes),
    let code : Byte :=
      match st with
      | .ok => 0 | .badOrder => 1 | .dataTooLarge => 2 | .authenticationFailed => 3 | .badMac => 4 | .invalidMacSize => 5
      | .invalidTagLength => 6 | .macKeyNotSet => 7 | .keyNotSet => 8 | .internalError => 9 | .illegalCommand => 10
    let byte (n : Nat) : Byte := BitVec.ofNat 8 (p.length / 2 ^ n)
    responseFrame ⟨st, p⟩ = [0, 0, 0, code, byte 24, byte 16, byte 8, byte 0] ++ p) ∧
  (∀ r q : Response, r.payload.length ≤ maxPay → q.payload.length ≤ maxPay → responseFrame r = responseFrame q → r = q)

/-! ### The step and the machine as a whole -/

/-- A step runs the decoded command: the oldest waiting frame leaves the command port; a frame that decodes is
executed, one that does not is answered `IllegalCommand`; with no frame waiting nothing changes, which is the model's
reading of R62 and R371 (log 7). -/
def Obligations.StepRunsTheDecodedCommand : Prop :=
  (∀ (s : State) (frame : Bytes) (rest : List Bytes) (i : Instr), s.cmd = frame :: rest → decode frame = .ok i →
    step s = exec i { s with cmd := rest }) ∧
  (∀ (s : State) (frame : Bytes) (rest : List Bytes) (e : DecodeError), s.cmd = frame :: rest → decode frame = .error e →
    step s = .next (answered { s with cmd := rest } .illegalCommand [])) ∧
  (∀ s : State, s.cmd = [] → step s = .next s)

/-- The two ports are first in, first out (R51, R55), and the unit is quiescent when every delivered frame has been answered (R62):
as many steps as there are frames waiting leave none waiting and give that many responses, behind the earlier ones;
they never stop (R344). A frame joins the end of the queue, and the host takes the oldest response, as its bytes.
When the host delivers a frame or takes a response does not show (R373): either may come before or after a step. That a
step with no frame leaves the state as it is, is the model's reading (log 7), that the ports are such queues the
model's form (log 5, 6), and that a delivered frame leaves a half-received one as it is the model's choice
(log 20). -/
def Obligations.EveryDeliveredFrameIsAnswered : Prop :=
  (∀ s : State, ∃ t rs, core.run s.cmd.length s = .next t ∧ t.cmd = [] ∧ t.resp = s.resp ++ rs ∧
    rs.length = s.cmd.length ∧ step t = .next t) ∧
  (∀ (s : State) (frame : Bytes), hostSendFrame s frame = { s with cmd := s.cmd ++ [frame] }) ∧
  (∀ s : State, (s.resp = [] → hostReceive s = none) ∧
    ∀ r rest, s.resp = r :: rest → hostReceive s = some (responseFrame r, { s with resp := rest })) ∧
  (∀ (s t : State) (frame : Bytes), s.cmd ≠ [] → step s = .next t →
    step (hostSendFrame s frame) = .next (hostSendFrame t frame)) ∧
  (∀ (s t u : State) (bytes : Bytes), hostReceive s = some (bytes, u) → step s = .next t →
    ∃ v, hostReceive t = some (bytes, v) ∧ step u = .next v)

/-- One response for every command, and which statuses it can have (R330, R342, R338): one that fails a static check answers
`IllegalCommand`; past them it answers `OK` or a status of its row of the table, so never `BadMac` and never
`InternalError`; a command whose row is empty answers `OK`; and a status that is not `OK` comes with no payload. -/
def Obligations.StatusesOfTheTable : Prop :=
  ∀ (i : Instr) (s : State), ∃ t st p, exec i s = .next t ∧ t.resp = s.resp ++ [⟨st, p⟩] ∧ (st ≠ .ok → p = []) ∧
    (staticOk s.nctx i = false → st = .illegalCommand) ∧
    (staticOk s.nctx i = true → st = .ok ∨ st ∈ mayRaise i) ∧
    (staticOk s.nctx i = true → mayRaise i = [] → st = .ok) ∧
    st ≠ .badMac ∧ st ≠ .internalError

/-- The state after an error (R341): every status but `OK` and `AuthenticationFailed` leaves the whole unit as it was, the
response apart; `AuthenticationFailed` is answered by `MGM.VERIFY` only and keeps the finishing computation, so the context is
`Finalized`, with the computed tag, its buffers flushed, and no other slot changes. -/
def Obligations.RefusedCommandsChangeNothing : Prop :=
  ∀ (i : Instr) (s : State), ∃ t st p, exec i s = .next t ∧ t.resp = s.resp ++ [⟨st, p⟩] ∧
    (st ≠ .ok → st ≠ .authenticationFailed → t = answered s st []) ∧
    (st = .authenticationFailed → ∃ f m, i = .mgmVerify f ∧ holdsSlot s f.ctx (.mgm m) ∧
      t = answeredWith s f.ctx (.mgm (mgmFinish s.cfg m)) .authenticationFailed [] ∧
      (mgmFinish s.cfg m).phase = .finalized ∧ (mgmFinish s.cfg m).ares = 0 ∧ (mgmFinish s.cfg m).mres = 0)

/-- What a command can change (R57): the commands that only read change nothing but the responses, and answer the same when
issued again; every other one changes at most the slot its `CTX` field names, and never the configuration, the
number of slots, or the command port. -/
def Obligations.OnlyTheNamedSlotChanges : Prop :=
  ∀ (i : Instr) (s t : State), exec i s = .next t →
    (readsOnly i = true → ∃ st p, t = answered s st p ∧ exec i t = .next (answered t st p)) ∧
    (∀ j : Nat, j ≠ i.fields.ctx.toNat → t.ctx[j]? = s.ctx[j]?) ∧
    t.cfg = s.cfg ∧ t.nctx = s.nctx ∧ t.cmd = s.cmd ∧ t.rx = s.rx

/-- Two sessions on two slots do not affect each other (R20, R60): of any sequence of commands, those that name slot `n` are
answered as if only they had been issued, and the slot ends the same, as long as none of them clones another slot
into it. -/
def Obligations.SessionsAreIndependent : Prop :=
  ∀ (n : BitVec 4) (cmds : List Instr) (s : State),
    (∀ f, Instr.ctxClone f ∈ cmds → f.ctx = n → f.a = n) →
    answersTo n cmds s = answersTo n (cmds.filter fun i => i.fields.ctx = n) s ∧
    ∃ t u, runCommands cmds s = some t ∧ runCommands (cmds.filter fun i => i.fields.ctx = n) s = some u ∧
      t.slot n = u.slot n

/-- The invariants of the state are kept by every step (R30, R32, R35, R37 (a) to (h), R40, R43, R338): the widths, ranges and
relations of the fields of every context, and, while a keystream block is in use, which block it is. The key schedule of
R32 is a statement of its own, KeystreamIsPeriodic. That the length counters are 0 before their first command is the
model's addition (log 15). -/
def Obligations.StepKeepsTheInvariants : Prop :=
  ∀ s t : State, StateWf s → step s = .next t → StateWf t

/-- The state after reset has the invariants (its configuration is the model's choice, log 2), and so has any unit of 1 to
16 slots with a 32-byte `ACPKM_D` once it is reset. -/
def Obligations.ResetHasTheInvariants : Prop :=
  StateWf State.reset ∧
  ∀ s : State, s.cfg.acpkmD.length = 32 → 1 ≤ s.nctx → s.nctx ≤ 16 → StateWf (hostReset s)

/-- After reset every slot is `Empty` (R48), of the machine's reset state and of any unit that is reset, and both ports
are empty (R370; the ports are the model's fields, log 5 and 6). -/
def Obligations.ResetEmptiesEverySlot : Prop :=
  (∀ i : BitVec 4, i.toNat < State.reset.nctx → holdsSlot State.reset i .empty) ∧
  State.reset.cmd = [] ∧ State.reset.rx = [] ∧ State.reset.resp = [] ∧
  (∀ (s : State) (i : BitVec 4), i.toNat < s.nctx → holdsSlot (hostReset s) i .empty) ∧
  ∀ s : State, (hostReset s).cmd = [] ∧ (hostReset s).rx = [] ∧ (hostReset s).resp = []

/-! ### The block cipher core -/

/-- `BC.SETKEY` (R101): on a slot of any kind and in any phase, the slot becomes a `BC` context of the named cipher under the
payload's 32 bytes. -/
def Obligations.BcSetkeyKeysTheSlot : Prop :=
  ∀ (s : State) (f : Fields) (c : Cipher), opcodeOf (.bcSetkey f) = 0x10 ∧
    (createsForm s f c 32 → exec (.bcSetkey f) s =
      .next (answeredWith s f.ctx (.bc { cipher := c, key := f.payload, phase := .keySet }) .ok []))

/-- `BC.ENC` and `BC.DEC` (R102, R103): a slot that is not `BC` gives `KeyNotSet`, then a payload that is not one block
`IllegalCommand`; else the response is `E`, or `D`, of the block, and nothing is written. Where the block cipher
obeys the law of R9, each of the two commands gives back the block the other was given. -/
def Obligations.BcEncAndDecAnswerABlock : Prop :=
  ∀ (s : State) (f : Fields), opcodeOf (.bcEnc f) = 0x11 ∧ opcodeOf (.bcDec f) = 0x12 ∧
    (f.ctx.toNat < s.nctx → noOperands f →
    ((∀ c, ¬ holdsSlot s f.ctx (.bc c)) →
      exec (.bcEnc f) s = .next (answered s .keyNotSet []) ∧ exec (.bcDec f) s = .next (answered s .keyNotSet [])) ∧
    (∀ c, holdsSlot s f.ctx (.bc c) → f.plen ≠ bs c.cipher →
      exec (.bcEnc f) s = .next (answered s .illegalCommand []) ∧
      exec (.bcDec f) s = .next (answered s .illegalCommand [])) ∧
    (∀ c, holdsSlot s f.ctx (.bc c) → f.plen = bs c.cipher →
      let y := encBlock s.cfg.bc c.cipher c.key f.payload
      let x := decBlock s.cfg.bc c.cipher c.key f.payload
      exec (.bcEnc f) s = .next (answered s .ok y) ∧ exec (.bcDec f) s = .next (answered s .ok x) ∧
      (Lawful s.cfg.bc → c.key.length = 32 →
        exec (.bcDec { f with payload := y }) s = .next (answered s .ok f.payload) ∧
        exec (.bcEnc { f with payload := x }) s = .next (answered s .ok f.payload))))

/-- The instantiation `STD`, whose tables are from general knowledge (log 3), obeys the law of R9: per key, `D` undoes `E`
and `E` undoes `D`, for Magma and for Grasshopper. -/
def Obligations.StdObeysTheLaw : Prop := Lawful .std

/-! ### The field multiplier -/

/-- `GF.MUL64` and `GF.MUL128` (R123, R124): past the static checks they always answer the product of the two halves of the
payload, and read and write no slot. -/
def Obligations.GfMulCommandsAnswerTheProduct : Prop :=
  ∀ (s : State) (f : Fields) (a b : Bytes), opcodeOf (.gfMul64 f) = 0x20 ∧ opcodeOf (.gfMul128 f) = 0x21 ∧
    (f.ctx = 0 → noOperands f → f.payload = a ++ b →
      (a.length = 8 → b.length = 8 → exec (.gfMul64 f) s = .next (answered s .ok (gfMul .magma a b))) ∧
      (a.length = 16 → b.length = 16 → exec (.gfMul128 f) s = .next (answered s .ok (gfMul .grasshopper a b))))

/-- The product is the product of the field (R121, R122): a block stands for the polynomial over GF(2) whose coefficient of
`x^j` is bit `j` of its big-endian integer, and the product's polynomial is the remainder of the product of
the factors' polynomials by `p64` or `p128`. -/
def Obligations.GfMulIsTheFieldProduct : Prop :=
  ∀ (c : Cipher) (a b : Bytes), a.length = bs c → b.length = bs c →
    let X : Polynomial (ZMod 2) := Polynomial.X
    let poly (v : Bytes) : Polynomial (ZMod 2) :=
      ∑ j ∈ Finset.range (8 * bs c), if (intOf v).testBit j then X ^ j else 0
    let modulus : Polynomial (ZMod 2) :=
      match c with
      | .magma => X ^ 64 + X ^ 4 + X ^ 3 + X + 1
      | .grasshopper => X ^ 128 + X ^ 7 + X ^ 2 + X + 1
    poly (gfMul c a b) = (poly a * poly b) %ₘ modulus

/-- Laws of the product (R122): commutative, associative, distributive over xor; zero and one. -/
def Obligations.GfMulLaws : Prop :=
  ∀ (c : Cipher) (x y z : Bytes), x.length = bs c → y.length = bs c → z.length = bs c →
    gfMul c x y = gfMul c y x ∧
    gfMul c (gfMul c x y) z = gfMul c x (gfMul c y z) ∧
    gfMul c x (xorB y z) = xorB (gfMul c x y) (gfMul c x z) ∧
    gfMul c x (zeros (bs c)) = zeros (bs c) ∧
    gfMul c x (zeros (bs c - 1) ++ [1]) = x

/-- The doubling rule (R241): a shift of the whole block by one bit, with the constant xored in where the top bit was 1;
and it is the product by the polynomial `x`. -/
def Obligations.DoublingIsMultiplicationByX : Prop :=
  ∀ (c : Cipher) (x : Bytes), x.length = bs c →
    ((intOf x).testBit (8 * bs c - 1) = false → dbl c x = bytesOf (bs c) (intOf x * 2)) ∧
    ((intOf x).testBit (8 * bs c - 1) = true →
      dbl c x = xorB (bytesOf (bs c) (intOf x * 2)) (zeros (bs c - 1) ++ [if c = .magma then 0x1B else 0x87])) ∧
    dbl c x = gfMul c x (zeros (bs c - 1) ++ [2])

/-! ### The CTR driver and ACPKM -/

/-- The rekeying step (R141): the constants, slices of `ACPKM_D`, all encrypted under the old key and put together in order,
four for Magma and two for Grasshopper: 32 bytes. -/
def Obligations.RekeyingStep : Prop :=
  ∀ (cfg : Config) (k : Bytes),
    (let E := encBlock cfg.bc .magma k
     let d (i : Nat) := slice cfg.acpkmD (i * 8) ((i + 1) * 8)
     acpkmNextKey cfg .magma k = E (d 0) ++ E (d 1) ++ E (d 2) ++ E (d 3)) ∧
    (let E := encBlock cfg.bc .grasshopper k
     let d (i : Nat) := slice cfg.acpkmD (i * 16) ((i + 1) * 16)
     acpkmNextKey cfg .grasshopper k = E (d 0) ++ E (d 1)) ∧
    ∀ c, (acpkmNextKey cfg c k).length = 32

/-- `CTR.SETKEY` (R144): on any slot in any state, a new context in phase `KeySet`, meshing off. -/
def Obligations.CtrSetkeyCreates : Prop :=
  ∀ (s : State) (f : Fields) (c : Cipher), opcodeOf (.ctrSetkey f) = 0x30 ∧
    (createsForm s f c 32 → exec (.ctrSetkey f) s =
      .next (answeredWith s f.ctx (.ctr
        { cipher := c, phase := .keySet,
          gen := { key := f.payload, ctr := zeros (bs c), ks := zeros (bs c), num := 0, sect := 0 } }) .ok []))

/-- `CTR.SETIV` (R145): the checks in order, and the effect: the counter block is the half-IV followed by zeros, the position
starts again, `key` and `section` are kept. -/
def Obligations.CtrSetivRestartsTheStream : Prop :=
  ∀ (s : State) (f : Fields), opcodeOf (.ctrSetiv f) = 0x31 ∧ (f.ctx.toNat < s.nctx → noOperands f →
    ((∀ c, ¬ holdsSlot s f.ctx (.ctr c)) → exec (.ctrSetiv f) s = .next (answered s .keyNotSet [])) ∧
    (∀ c, holdsSlot s f.ctx (.ctr c) → 2 * f.plen ≠ bs c.cipher →
      exec (.ctrSetiv f) s = .next (answered s .illegalCommand [])) ∧
    (∀ c, holdsSlot s f.ctx (.ctr c) → 2 * f.plen = bs c.cipher → exec (.ctrSetiv f) s =
      .next (answeredWith s f.ctx (.ctr
        { cipher := c.cipher, phase := .ivSet,
          gen := { key := c.gen.key, ctr := f.payload ++ zeros f.plen, ks := zeros (bs c.cipher), num := 0,
                   sect := c.gen.sect } }) .ok [])))

/-- `CTR.SECTION` (R148): the checks in order, and the effect: the section size is the payload's big-endian number, and nothing
else of the context is touched, in either phase. -/
def Obligations.CtrSectionSetsTheSize : Prop :=
  ∀ (s : State) (f : Fields), opcodeOf (.ctrSection f) = 0x32 ∧
    (f.ctx.toNat < s.nctx → noOperands f → f.plen = 4 →
    ((∀ c, ¬ holdsSlot s f.ctx (.ctr c)) → exec (.ctrSection f) s = .next (answered s .keyNotSet [])) ∧
    (∀ c, holdsSlot s f.ctx (.ctr c) → intOf f.payload % bs c.cipher ≠ 0 →
      exec (.ctrSection f) s = .next (answered s .illegalCommand [])) ∧
    (∀ c, holdsSlot s f.ctx (.ctr c) → intOf f.payload % bs c.cipher = 0 →
      ∃ size : BitVec 32, size.toNat = intOf f.payload ∧ exec (.ctrSection f) s =
        .next (answeredWith s f.ctx (.ctr { c with gen := { c.gen with sect := size } }) .ok [])))

/-- The keystream driver, byte by byte, as its pseudocode has it (R149): at a block boundary mesh where the section is
used up, keeping the counter's low bits, then encrypt the counter block and increment it as one number;
then one byte is xored and counted. -/
def Obligations.KeystreamDriver : Prop :=
  ∀ (cfg : Config) (c : Cipher) (g : CtrGen), GenWf c g →
    ctrStream cfg c g [] = ([], g) ∧
    ∀ (b : Byte) (data : Bytes),
      let due : Prop := g.sect.toNat ≠ 0 ∧ g.sect.toNat ≤ g.num.toNat
      let key := if due then acpkmNextKey cfg c g.key else g.key
      let num : BitVec 64 := if due then BitVec.ofNat 64 (g.num.toNat % bs c) else g.num
      let g1 : CtrGen :=
        if g.num.toNat % bs c = 0 then
          { g with key := key, num := num, ks := encBlock cfg.bc c key g.ctr,
                   ctr := bytesOf (bs c) ((intOf g.ctr + 1) % 2 ^ (8 * bs c)) }
        else g
      let g2 : CtrGen := { g1 with num := BitVec.ofNat 64 ((g1.num.toNat + 1) % 2 ^ 64) }
      ctrStream cfg c g (b :: data) =
        ((b ^^^ g1.ks.getD (g1.num.toNat % bs c) 0) :: (ctrStream cfg c g2 data).1, (ctrStream cfg c g2 data).2)

/-- `CTR.CRYPT` (R150): the checks in order, and the effect: the payload through the driver, as many bytes out as in; an
empty payload changes nothing; the phase and the section size never change. -/
def Obligations.CtrCryptRunsTheDriver : Prop :=
  ∀ (s : State) (f : Fields), opcodeOf (.ctrCrypt f) = 0x33 ∧ (f.ctx.toNat < s.nctx → noOperands f →
    ((∀ c, ¬ holdsSlot s f.ctx (.ctr c)) → exec (.ctrCrypt f) s = .next (answered s .keyNotSet [])) ∧
    (∀ c, holdsSlot s f.ctx (.ctr c) → c.phase ≠ .ivSet → exec (.ctrCrypt f) s = .next (answered s .badOrder [])) ∧
    (∀ c, holdsSlot s f.ctx (.ctr c) → c.phase = .ivSet →
      ∃ out g, ctrStream s.cfg c.cipher c.gen f.payload = (out, g) ∧ out.length = f.plen ∧ g.sect = c.gen.sect ∧
        exec (.ctrCrypt f) s = .next (answeredWith s f.ctx (.ctr { c with gen := g }) .ok out) ∧
        (f.payload = [] → exec (.ctrCrypt f) s = .next (answered s .ok []))))

/-- The keystream as a whole (R32, R150 (c)): from a freshly loaded counter, byte `j` of the output is byte `j` of the input xored
with byte `j mod BS` of the encryption of the counter plus `j div BS`, under the key that `j div section`
meshing steps give (the original key where meshing is off). -/
def Obligations.KeystreamIsPeriodic : Prop :=
  ∀ (cfg : Config) (c : Cipher) (g : CtrGen) (data : Bytes), GenWf c g → g.num = 0 →
    (ctrStream cfg c g data).1 =
      (List.range data.length).map fun j => data.getD j 0 ^^^ ctrKeystream cfg c g.key g.ctr g.sect.toNat j

/-- Cutting a stream does not show, and CTR is its own inverse (R54, R140, R150 (a) and (b)): two `CTR.CRYPT` commands leave the
same context as one over the bytes together, and answer the same bytes between them; and the output fed back through
the same starting context gives the input, and leaves the same context. -/
def Obligations.CtrChunkingAndInvolution : Prop :=
  ∀ (s : State) (n : BitVec 4) (c : CtrCtx) (p q : Bytes), holdsSlot s n (.ctr c) → c.phase = .ivSet →
    ∃ c1 c2 o1 o2,
      let s1 := answeredWith s n (.ctr c1) .ok o1
      exec (.ctrCrypt (onSlot n p)) s = .next s1 ∧
      exec (.ctrCrypt (onSlot n q)) s1 = .next (answeredWith s1 n (.ctr c2) .ok o2) ∧
      exec (.ctrCrypt (onSlot n (p ++ q))) s = .next (answeredWith s n (.ctr c2) .ok (o1 ++ o2)) ∧
      o1.length = p.length ∧ o2.length = q.length ∧
      exec (.ctrCrypt (onSlot n o1)) s = .next (answeredWith s n (.ctr c1) .ok p)

/-- `ACPKM.MESH` (R152): one unconditional rekeying step; on a `BC` context only `key` changes, on a `CTR` context, in either
phase, `num` keeps its low bits besides, and every other kind of slot gives `KeyNotSet`. -/
def Obligations.AcpkmMeshRekeysOnce : Prop :=
  ∀ (s : State) (f : Fields), opcodeOf (.acpkmMesh f) = 0x34 ∧
    (f.ctx.toNat < s.nctx → noOperands f → f.payload = [] →
    (∀ c, holdsSlot s f.ctx (.bc c) → exec (.acpkmMesh f) s =
      .next (answeredWith s f.ctx (.bc { c with key := acpkmNextKey s.cfg c.cipher c.key }) .ok [])) ∧
    (∀ c, holdsSlot s f.ctx (.ctr c) → ∃ num : BitVec 64, num.toNat = c.gen.num.toNat % bs c.cipher ∧
      exec (.acpkmMesh f) s = .next (answeredWith s f.ctx (.ctr
        { c with gen := { c.gen with key := acpkmNextKey s.cfg c.cipher c.gen.key, num := num } }) .ok [])) ∧
    ((∀ c, ¬ holdsSlot s f.ctx (.bc c)) → (∀ c, ¬ holdsSlot s f.ctx (.ctr c)) →
      exec (.acpkmMesh f) s = .next (answered s .keyNotSet [])))

/-! ### MGM -/

/-- The fold (R180, R184): `H = E_K(Z)`, `sum` xored with the product of `H` and the block, and the left half of `Z`
incremented as a number, the right half kept; every other field is kept. -/
def Obligations.MgmFoldStep : Prop :=
  ∀ (cfg : Config) (m : MgmCtx) (x : Bytes), MgmWf m →
    let h := bs m.cipher / 2
    mgmFold cfg m x =
      { m with
        sum := xorB m.sum (gfMul m.cipher (encBlock cfg.bc m.cipher m.key m.z) x),
        z := bytesOf h ((intOf (slice m.z 0 h) + 1) % 2 ^ (8 * h)) ++ slice m.z h (bs m.cipher) }

/-- `MGM.INIT` (R182): on any slot, a new context in phase `KeySet`, its tag length the block size, everything else zero. -/
def Obligations.MgmInitCreates : Prop :=
  ∀ (s : State) (f : Fields) (c : Cipher), opcodeOf (.mgmInit f) = 0x40 ∧
    (createsForm s f c 32 →
      let z := zeros (bs c)
      exec (.mgmInit f) s = .next (answeredWith s f.ctx (.mgm
        { cipher := c, key := f.payload, phase := .keySet, dir := .none, taglen := bs c, nonce := z, z := z, y := z,
          sum := z, aLen := 0, cLen := 0, ares := 0, mres := 0, abuf := z, cbuf := z, ks := z, tag := z }) .ok []))

/-- `MGM.SETIV` (R183): the checks in order, and the effect, in every phase: a new message under the same key and tag length;
the nonce is stored with its top bit 0, so two nonces that differ only there give the same session. And `settop`, of
which the later rules of MGM speak: the first byte's bit 7 is set or cleared, everything else is kept. -/
def Obligations.MgmSetivStartsAMessage : Prop :=
  (∀ (b : Byte) (r : Bytes), settop (b :: r) true = (b ||| 0x80#8) :: r ∧ settop (b :: r) false = (b &&& 0x7F#8) :: r) ∧
  ∀ (s : State) (f : Fields), opcodeOf (.mgmSetiv f) = 0x41 ∧ (f.ctx.toNat < s.nctx → noOperands f →
    ((∀ m, ¬ holdsSlot s f.ctx (.mgm m)) → exec (.mgmSetiv f) s = .next (answered s .keyNotSet [])) ∧
    (∀ m, holdsSlot s f.ctx (.mgm m) → f.plen ≠ bs m.cipher →
      exec (.mgmSetiv f) s = .next (answered s .illegalCommand [])) ∧
    (∀ m, holdsSlot s f.ctx (.mgm m) → f.plen = bs m.cipher →
      ∃ (b : Byte) (r : Bytes), f.payload = b :: r ∧
        (let z := zeros (bs m.cipher)
         exec (.mgmSetiv f) s = .next (answeredWith s f.ctx (.mgm
          { cipher := m.cipher, key := m.key, taglen := m.taglen, nonce := (b &&& 0x7F#8) :: r, phase := .ivSet,
            dir := .none, z := z, y := z, sum := z, aLen := 0, cLen := 0, ares := 0, mres := 0, abuf := z, cbuf := z,
            ks := z, tag := z }) .ok [])) ∧
        ∀ b' : Byte, b' &&& 0x7F#8 = b &&& 0x7F#8 →
          exec (.mgmSetiv { f with payload := b' :: r }) s = exec (.mgmSetiv f) s))

/-- `MGM.TAGLEN` and `OMAC.MACLEN` (R190, R249): the checks in order, kind, phase, range, and the effect: the tag or MAC length is
`IMM`, and nothing else changes. -/
def Obligations.LengthCommandsSetTheLength : Prop :=
  ∀ (s : State) (f : Fields), opcodeOf (.mgmTaglen f) = 0x42 ∧ opcodeOf (.omacMaclen f) = 0x52 ∧
    (f.ctx.toNat < s.nctx → f.a = 0 → f.payload = [] →
    ((∀ m, ¬ holdsSlot s f.ctx (.mgm m)) → exec (.mgmTaglen f) s = .next (answered s .keyNotSet [])) ∧
    (∀ m, holdsSlot s f.ctx (.mgm m) → m.phase = .finalized → exec (.mgmTaglen f) s = .next (answered s .badOrder [])) ∧
    (∀ m, holdsSlot s f.ctx (.mgm m) → m.phase ≠ .finalized → (f.imm.toNat < 1 ∨ bs m.cipher < f.imm.toNat) →
      exec (.mgmTaglen f) s = .next (answered s .invalidTagLength [])) ∧
    (∀ m, holdsSlot s f.ctx (.mgm m) → m.phase ≠ .finalized → 1 ≤ f.imm.toNat → f.imm.toNat ≤ bs m.cipher →
      exec (.mgmTaglen f) s = .next (answeredWith s f.ctx (.mgm { m with taglen := f.imm.toNat }) .ok [])) ∧
    ((∀ o, ¬ holdsSlot s f.ctx (.omac o)) → exec (.omacMaclen f) s = .next (answered s .macKeyNotSet [])) ∧
    (∀ o, holdsSlot s f.ctx (.omac o) → o.phase = .finalized → exec (.omacMaclen f) s = .next (answered s .badOrder [])) ∧
    (∀ o, holdsSlot s f.ctx (.omac o) → o.phase ≠ .finalized → (f.imm.toNat < 1 ∨ bs o.cipher < f.imm.toNat) →
      exec (.omacMaclen f) s = .next (answered s .invalidMacSize [])) ∧
    (∀ o, holdsSlot s f.ctx (.omac o) → o.phase ≠ .finalized → 1 ≤ f.imm.toNat → f.imm.toNat ≤ bs o.cipher →
      exec (.omacMaclen f) s = .next (answeredWith s f.ctx (.omac { o with maclen := f.imm.toNat }) .ok [])))

/-- `MGM.AAD` (R186): the checks in order, and the effect as its pseudocode has it: the first one computes `Z_1`; each byte goes
into the buffer, and a full buffer is folded and emptied; the length is counted. -/
def Obligations.MgmAadAbsorbs : Prop :=
  ∀ (s : State) (f : Fields), opcodeOf (.mgmAad f) = 0x43 ∧ (f.ctx.toNat < s.nctx → noOperands f →
    ((∀ m, ¬ holdsSlot s f.ctx (.mgm m)) → exec (.mgmAad f) s = .next (answered s .keyNotSet [])) ∧
    (∀ m, holdsSlot s f.ctx (.mgm m) → m.phase ≠ .ivSet → m.phase ≠ .processingAad →
      exec (.mgmAad f) s = .next (answered s .badOrder [])) ∧
    (∀ m, holdsSlot s f.ctx (.mgm m) → (m.phase = .ivSet ∨ m.phase = .processingAad) →
      2 ^ (bs m.cipher * 4 - 3) < m.aLen.toNat + f.plen → exec (.mgmAad f) s = .next (answered s .dataTooLarge [])) ∧
    (∀ m, holdsSlot s f.ctx (.mgm m) → (m.phase = .ivSet ∨ m.phase = .processingAad) →
      m.aLen.toNat + f.plen ≤ 2 ^ (bs m.cipher * 4 - 3) →
      let m0 : MgmCtx :=
        if m.phase = .ivSet then
          { m with z := encBlock s.cfg.bc m.cipher m.key (settop m.nonce true), phase := .processingAad }
        else m
      let absorb (q : MgmCtx) (b : Byte) : MgmCtx :=
        let q1 := { q with abuf := q.abuf.set q.ares b, ares := q.ares + 1 }
        if q1.ares = bs q.cipher then { mgmFold s.cfg q1 q1.abuf with ares := 0, abuf := zeros (bs q.cipher) } else q1
      exec (.mgmAad f) s = .next (answeredWith s f.ctx (.mgm
        { f.payload.foldl absorb m0 with aLen := BitVec.ofNat 64 (m.aLen.toNat + f.plen) }) .ok [])))

/-- `MGM.ENC` and `MGM.DEC` (R187, R188): the checks in order, and the opening of the message as the pseudocode has it: on the first
data command `Z_1` where it is not there yet, `Y_1`, and the flush of the waiting associated data; the
direction is latched; then the bytes go through the loop, and the length is counted. -/
def Obligations.MgmDataCommands : Prop :=
  ∀ (s : State) (f : Fields), opcodeOf (.mgmEnc f) = 0x44 ∧ opcodeOf (.mgmDec f) = 0x45 ∧
    ∀ (d : Dir) (i : Instr), (d = .enc ∧ i = .mgmEnc f ∨ d = .dec ∧ i = .mgmDec f) → f.ctx.toNat < s.nctx → noOperands f →
    ((∀ m, ¬ holdsSlot s f.ctx (.mgm m)) → exec i s = .next (answered s .keyNotSet [])) ∧
    (∀ m, holdsSlot s f.ctx (.mgm m) →
      (m.phase = .keySet ∨ m.phase = .finalized ∨ (m.dir ≠ .none ∧ m.dir ≠ d)) →
      exec i s = .next (answered s .badOrder [])) ∧
    (∀ m, holdsSlot s f.ctx (.mgm m) → m.phase ≠ .keySet → m.phase ≠ .finalized → (m.dir = .none ∨ m.dir = d) →
      2 ^ (bs m.cipher * 4 - 3) < m.cLen.toNat + f.plen → exec i s = .next (answered s .dataTooLarge [])) ∧
    (∀ m, holdsSlot s f.ctx (.mgm m) → m.phase ≠ .keySet → m.phase ≠ .finalized → (m.dir = .none ∨ m.dir = d) →
      m.cLen.toNat + f.plen ≤ 2 ^ (bs m.cipher * 4 - 3) →
      let E := encBlock s.cfg.bc m.cipher m.key
      let m1 : MgmCtx := if m.phase = .ivSet then { m with z := E (settop m.nonce true) } else m
      let m2 : MgmCtx := { m1 with y := E (settop m.nonce false) }
      let m3 : MgmCtx :=
        if 0 < m2.ares then { mgmFold s.cfg m2 m2.abuf with ares := 0, abuf := zeros (bs m.cipher) } else m2
      let m4 : MgmCtx := if m.phase = .processingData then m else { m3 with phase := .processingData }
      let r := mgmDataBytes s.cfg d { m4 with dir := d } f.payload
      exec i s = .next (answeredWith s f.ctx (.mgm
        { r.2 with cLen := BitVec.ofNat 64 (m.cLen.toNat + f.plen) }) .ok r.1) ∧ r.1.length = f.plen)

/-- The data loop (R187, R185): a new keystream block where none is in use, with `Y` moved by its right half; the byte out is
the byte in xored with the keystream; the ciphertext byte, whichever side it is on, goes into the buffer, and
a full buffer is folded and emptied. A used-up `ks` is kept (log 11). -/
def Obligations.MgmDataLoop : Prop :=
  ∀ (cfg : Config) (d : Dir) (m : MgmCtx) (b : Byte) (data : Bytes), MgmWf m → (d = .enc ∨ d = .dec) →
    let h := bs m.cipher / 2
    let m1 : MgmCtx :=
      if m.mres = 0 then
        { m with ks := encBlock cfg.bc m.cipher m.key m.y,
                 y := slice m.y 0 h ++ bytesOf h ((intOf (slice m.y h (bs m.cipher)) + 1) % 2 ^ (8 * h)) }
      else m
    let o := b ^^^ m1.ks.getD m.mres 0
    let m2 : MgmCtx := { m1 with cbuf := m1.cbuf.set m.mres (if d = .enc then o else b), mres := m.mres + 1 }
    let m3 : MgmCtx :=
      if m2.mres = bs m.cipher then { mgmFold cfg m2 m2.cbuf with mres := 0, cbuf := zeros (bs m.cipher) } else m2
    mgmDataBytes cfg d m [] = ([], m) ∧
    mgmDataBytes cfg d m (b :: data) = (o :: (mgmDataBytes cfg d m3 data).1, (mgmDataBytes cfg d m3 data).2)

/-- The finishing procedure (R189): the waiting partial blocks are folded, the associated data's first, then the length
block of the two bit counts; the tag is the encryption of `sum`. -/
def Obligations.MgmFinishingProcedure : Prop :=
  ∀ (cfg : Config) (m : MgmCtx),
    let h := bs m.cipher / 2
    let m1 : MgmCtx := if 0 < m.ares then { mgmFold cfg m m.abuf with ares := 0, abuf := zeros (bs m.cipher) } else m
    let m2 : MgmCtx := if 0 < m1.mres then { mgmFold cfg m1 m1.cbuf with mres := 0, cbuf := zeros (bs m.cipher) } else m1
    let len := bytesOf h (8 * m.aLen.toNat % 2 ^ (8 * h)) ++ bytesOf h (8 * m.cLen.toNat % 2 ^ (8 * h))
    let m3 := mgmFold cfg m2 len
    mgmFinish cfg m = { m3 with tag := encBlock cfg.bc m.cipher m.key m3.sum, phase := .finalized }

/-- `MGM.FINISH` (R191): the checks in order, and the effect: the message is finished and the leading `taglen` bytes of the tag
are answered. -/
def Obligations.MgmFinishAnswersTheTag : Prop :=
  ∀ (s : State) (f : Fields), opcodeOf (.mgmFinish f) = 0x46 ∧
    (f.ctx.toNat < s.nctx → noOperands f → f.payload = [] →
    ((∀ m, ¬ holdsSlot s f.ctx (.mgm m)) → exec (.mgmFinish f) s = .next (answered s .keyNotSet [])) ∧
    (∀ m, holdsSlot s f.ctx (.mgm m) → (m.phase ≠ .processingAad ∧ m.phase ≠ .processingData ∨ m.dir = .dec) →
      exec (.mgmFinish f) s = .next (answered s .badOrder [])) ∧
    (∀ m, holdsSlot s f.ctx (.mgm m) → (m.phase = .processingAad ∨ m.phase = .processingData) → m.dir ≠ .dec →
      exec (.mgmFinish f) s = .next (answeredWith s f.ctx (.mgm (mgmFinish s.cfg m)) .ok
        (slice (mgmFinish s.cfg m).tag 0 m.taglen))))

/-- `MGM.VERIFY` (R193): the checks in order, and the effect: the message is finished whatever the verdict; the verdict is
`OK` where the leading `taglen` bytes of the tag are the payload, else `AuthenticationFailed`; no data either way. -/
def Obligations.MgmVerifyGivesAVerdict : Prop :=
  ∀ (s : State) (f : Fields), opcodeOf (.mgmVerify f) = 0x47 ∧ (f.ctx.toNat < s.nctx → noOperands f →
    ((∀ m, ¬ holdsSlot s f.ctx (.mgm m)) → exec (.mgmVerify f) s = .next (answered s .keyNotSet [])) ∧
    (∀ m, holdsSlot s f.ctx (.mgm m) → (m.phase ≠ .processingAad ∧ m.phase ≠ .processingData ∨ m.dir = .enc) →
      exec (.mgmVerify f) s = .next (answered s .badOrder [])) ∧
    (∀ m, holdsSlot s f.ctx (.mgm m) → (m.phase = .processingAad ∨ m.phase = .processingData) → m.dir ≠ .enc →
      f.plen ≠ m.taglen → exec (.mgmVerify f) s = .next (answered s .invalidTagLength [])) ∧
    (∀ m, holdsSlot s f.ctx (.mgm m) → (m.phase = .processingAad ∨ m.phase = .processingData) → m.dir ≠ .enc →
      f.plen = m.taglen →
      (slice (mgmFinish s.cfg m).tag 0 m.taglen = f.payload →
        exec (.mgmVerify f) s = .next (answeredWith s f.ctx (.mgm (mgmFinish s.cfg m)) .ok [])) ∧
      (slice (mgmFinish s.cfg m).tag 0 m.taglen ≠ f.payload →
        exec (.mgmVerify f) s = .next (answeredWith s f.ctx (.mgm (mgmFinish s.cfg m)) .authenticationFailed []))))

/-- The phase table of MGM (R181): for a slot that holds an `MGM` context, each command is refused with `BadOrder`, and the
context kept, in the phases and directions the table says, and where it is answered `OK` the next phase is
the table's. -/
def Obligations.MgmPhaseTable : Prop :=
  ∀ (s : State) (m : MgmCtx) (i : Instr), holdsSlot s i.fields.ctx (.mgm m) → staticOk s.nctx i = true →
    let cell : Option (Option MgmPhase) :=
      match i with
      | .mgmInit _ => some (some .keySet)
      | .mgmSetiv _ => some (some .ivSet)
      | .mgmTaglen _ => some (if m.phase = .finalized then none else some m.phase)
      | .mgmAad _ => some (if m.phase = .ivSet ∨ m.phase = .processingAad then some .processingAad else none)
      | .mgmEnc _ => some (if m.phase = .keySet ∨ m.phase = .finalized ∨ m.dir = .dec then none else some .processingData)
      | .mgmDec _ => some (if m.phase = .keySet ∨ m.phase = .finalized ∨ m.dir = .enc then none else some .processingData)
      | .mgmFinish _ => some (if (m.phase = .processingAad ∨ m.phase = .processingData) ∧ m.dir ≠ .dec then some .finalized else none)
      | .mgmVerify _ => some (if (m.phase = .processingAad ∨ m.phase = .processingData) ∧ m.dir ≠ .enc then some .finalized else none)
      | _ => none
    ∀ entry, cell = some entry →
      ∃ t st p m', exec i s = .next t ∧ t.resp = s.resp ++ [⟨st, p⟩] ∧ holdsSlot t i.fields.ctx (.mgm m') ∧
        (entry = none → st = .badOrder ∧ m' = m) ∧
        (∀ ph, entry = some ph → st ≠ .badOrder ∧ (st = .ok ∨ st = .authenticationFailed → m'.phase = ph) ∧
          (st ≠ .ok → st ≠ .authenticationFailed → m' = m))

/-- Cutting associated data or a message does not show (R54): where one `MGM.AAD`, `MGM.ENC` or `MGM.DEC` over the bytes together is
accepted, so are the two pieces; they leave the same context and answer the same bytes between them. -/
def Obligations.MgmChunkingInvariance : Prop :=
  (∀ (s : State) (n : BitVec 4) (m : MgmCtx) (p q : Bytes), holdsSlot s n (.mgm m) →
    (m.phase = .ivSet ∨ m.phase = .processingAad) → m.aLen.toNat + (p ++ q).length ≤ mgmLimit m.cipher →
    ∃ m1 m2,
      let s1 := answeredWith s n (.mgm m1) .ok []
      exec (.mgmAad (onSlot n p)) s = .next s1 ∧
      exec (.mgmAad (onSlot n q)) s1 = .next (answeredWith s1 n (.mgm m2) .ok []) ∧
      exec (.mgmAad (onSlot n (p ++ q))) s = .next (answeredWith s n (.mgm m2) .ok [])) ∧
  (∀ (s : State) (n : BitVec 4) (m : MgmCtx) (p q : Bytes) (d : Dir) (i : Fields → Instr), holdsSlot s n (.mgm m) →
    (d = .enc ∧ i = Instr.mgmEnc ∨ d = .dec ∧ i = Instr.mgmDec) → m.phase ≠ .keySet → m.phase ≠ .finalized →
    (m.dir = .none ∨ m.dir = d) → m.cLen.toNat + (p ++ q).length ≤ mgmLimit m.cipher →
    ∃ m1 m2 o1 o2,
      let s1 := answeredWith s n (.mgm m1) .ok o1
      exec (i (onSlot n p)) s = .next s1 ∧
      exec (i (onSlot n q)) s1 = .next (answeredWith s1 n (.mgm m2) .ok o2) ∧
      exec (i (onSlot n (p ++ q))) s = .next (answeredWith s n (.mgm m2) .ok (o1 ++ o2)) ∧
      o1.length = p.length ∧ o2.length = q.length)

/-- For equal contexts, `MGM.DEC` of what `MGM.ENC` answered returns the plaintext and leaves every field but `dir` as `MGM.ENC`
left it (R188). -/
def Obligations.MgmDecUndoesEnc : Prop :=
  ∀ (s : State) (n : BitVec 4) (m : MgmCtx) (p : Bytes), holdsSlot s n (.mgm m) →
    m.phase ≠ .keySet → m.phase ≠ .finalized → m.dir = .none → m.cLen.toNat + p.length ≤ mgmLimit m.cipher →
    ∃ m1 out, exec (.mgmEnc (onSlot n p)) s = .next (answeredWith s n (.mgm m1) .ok out) ∧ m1.dir = .enc ∧
      exec (.mgmDec (onSlot n out)) s = .next (answeredWith s n (.mgm { m1 with dir := .dec }) .ok p)

/-- The whole message at once (R194): a session keyed, given a nonce, fed associated data and a message in any pieces, not both
absent and within the bounds, and finished, answers the ciphertext and the tag of the closed form, however it
was cut. -/
def Obligations.MgmClosedForm : Prop :=
  ∀ (s : State) (n : BitVec 4) (c : Cipher) (key nonce : Bytes) (taglen : BitVec 8) (ads ps : List Bytes),
    n.toNat < s.nctx → key.length = 32 → nonce.length = bs c → 1 ≤ taglen.toNat → taglen.toNat ≤ bs c →
    (ads ≠ [] ∨ ps ≠ []) → ads.flatten.length ≤ mgmLimit c → ps.flatten.length ≤ mgmLimit c →
    let session : List Instr :=
      [.mgmInit { ctx := n, a := BitVec.ofNat 4 (cipherCode c), imm := 0, payload := key },
       .mgmTaglen { ctx := n, a := 0, imm := taglen, payload := [] }, .mgmSetiv (onSlot n nonce)]
      ++ ads.map (fun a => .mgmAad (onSlot n a)) ++ ps.map (fun p => .mgmEnc (onSlot n p)) ++ [.mgmFinish (onSlot n [])]
    let nn := settop nonce false
    let x := mgmCiphertext s.cfg c key nn ps.flatten
    ∃ (t : State) (outs : List Bytes), runCommands session s = some t ∧ outs.flatten = x ∧ outs.map List.length = ps.map List.length ∧
      t.resp = s.resp ++ List.replicate (3 + ads.length) ⟨.ok, []⟩ ++ outs.map (fun o => ⟨.ok, o⟩)
        ++ [⟨.ok, (mgmTag s.cfg c key nn ads.flatten x).take taglen.toNat⟩]

/-- Round trip and tamper detection (R195): what one session enciphered and tagged, another under the same key, nonce, tag length
and associated data, each cut in any pieces, deciphers to the plaintext and verifies; and another tag of that
length is refused with `AuthenticationFailed`. -/
def Obligations.MgmRoundTrip : Prop :=
  ∀ (s u : State) (n k : BitVec 4) (m r : MgmCtx) (ads ads' ps cs : List Bytes),
    s.cfg = u.cfg → holdsSlot s n (.mgm m) → holdsSlot u k (.mgm r) → MgmWf m → MgmWf r →
    m.phase = .ivSet → r.phase = .ivSet → m.dir = .none → r.dir = .none →
    m.sum = zeros (bs m.cipher) → r.sum = zeros (bs r.cipher) →
    r.cipher = m.cipher → r.key = m.key → r.nonce = m.nonce → r.taglen = m.taglen →
    ads.flatten = ads'.flatten → (ads ≠ [] ∨ ps ≠ []) → (ads' ≠ [] ∨ cs ≠ []) →
    ads.flatten.length ≤ mgmLimit m.cipher → ps.flatten.length ≤ mgmLimit m.cipher →
    ∃ (t : State) (outs : List Bytes) (tag : Bytes),
      runCommands (ads.map (fun a => .mgmAad (onSlot n a)) ++ ps.map (fun p => .mgmEnc (onSlot n p))
        ++ [.mgmFinish (onSlot n [])]) s = some t ∧
      t.resp = s.resp ++ List.replicate ads.length ⟨.ok, []⟩ ++ outs.map (fun o => ⟨.ok, o⟩) ++ [⟨.ok, tag⟩] ∧
      (cs.flatten = outs.flatten →
        ∀ tag' : Bytes, tag'.length = tag.length →
        ∃ (v : State) (plain : List Bytes),
          runCommands (ads'.map (fun a => .mgmAad (onSlot k a)) ++ cs.map (fun x => .mgmDec (onSlot k x))
            ++ [.mgmVerify (onSlot k tag')]) u = some v ∧
          plain.flatten = ps.flatten ∧
          v.resp = u.resp ++ List.replicate ads'.length ⟨.ok, []⟩ ++ plain.map (fun o => ⟨.ok, o⟩)
            ++ [⟨if tag' = tag then .ok else .authenticationFailed, []⟩])

/-! ### OMAC -/

/-- `OMAC.INIT` (R244): on any slot, a new context in phase `KeySet`, with `acpkm = 0`, `K1 = dbl(E_K(0))` and `K2 = dbl(K1)`. -/
def Obligations.OmacInitCreates : Prop :=
  ∀ (s : State) (f : Fields) (c : Cipher), opcodeOf (.omacInit f) = 0x50 ∧
    (createsForm s f c 32 →
      let z := zeros (bs c)
      let k1 := dbl c (encBlock s.cfg.bc c f.payload z)
      let o : OmacCtx :=
        { cipher := c, phase := .keySet, key := f.payload, k1 := k1, k2 := dbl c k1, chain := z, lbuf := z, nlast := 0,
          num := 0, n := 0, maclen := bs c, mac := z, master := none }
      exec (.omacInit f) s = .next (answeredWith s f.ctx (.omac o) .ok []) ∧ o.acpkm = false)

/-- `OMAC.INITA` (R247): the two section sizes must be multiples of `BS(A)`, else `IllegalCommand`; the key and `K1` of the new
context, with `acpkm = 1`, are the first `32 + BS` bytes of the keystream of a master under the user's key, with
the wide IV and the section size `T*`; the master is kept as that leaves it. -/
def Obligations.OmacInitaCreates : Prop :=
  ∀ (s : State) (f : Fields) (c : Cipher) (key : Bytes) (n t : BitVec 32), opcodeOf (.omacInita f) = 0x51 ∧
    (createsForm s f c 40 → key.length = 32 → f.payload = key ++ bytesOf 4 n.toNat ++ bytesOf 4 t.toNat →
      (n.toNat % bs c ≠ 0 ∨ t.toNat % bs c ≠ 0 → exec (.omacInita f) s = .next (answered s .illegalCommand [])) ∧
      (n.toNat % bs c = 0 → t.toNat % bs c = 0 →
        let z := zeros (bs c)
        let half := bs c / 2
        let r := ctrStream s.cfg c
          { key := key, ctr := List.replicate half 0xFF#8 ++ zeros half, ks := z, num := 0, sect := t } (zeros (32 + bs c))
        let k1 := slice r.1 32 (32 + bs c)
        let o : OmacCtx :=
          { cipher := c, phase := .keySet, key := slice r.1 0 32, k1 := k1, k2 := dbl c k1, chain := z, lbuf := z,
            nlast := 0, num := 0, n := n, maclen := bs c, mac := z, master := some r.2 }
        exec (.omacInita f) s = .next (answeredWith s f.ctx (.omac o) .ok []) ∧ o.acpkm = true))

/-- The mesh step (R251): where `acpkm = 1`, `N` is not 0 and `num` has reached it, the next `32 + BS` bytes of the master's
keystream replace `key` and `K1`, `K2` is the double of `K1`, and `num` is 0; `chain`, `lbuf` and `nlast` are not
touched; otherwise nothing happens. -/
def Obligations.OmacMeshStep : Prop :=
  ∀ (cfg : Config) (o : OmacCtx),
    (∀ g, o.master = some g → o.n.toNat ≠ 0 → o.n.toNat ≤ o.num.toNat →
      let r := ctrStream cfg o.cipher g (zeros (32 + bs o.cipher))
      let k1 := slice r.1 32 (32 + bs o.cipher)
      omacMeshCheck cfg o =
        { o with key := slice r.1 0 32, k1 := k1, k2 := dbl o.cipher k1, num := 0, master := some r.2 }) ∧
    ((o.acpkm = false ∨ o.n.toNat = 0 ∨ o.num.toNat < o.n.toNat) → omacMeshCheck cfg o = o)

/-- `OMAC.UPDATE` (R250): the checks in order, and the effect as its pseudocode has it: a byte that finds a complete block
waiting first has that block chained, under the key the mesh step leaves, and counted, modulo `2^64` (log 14); then
it goes into the buffer. -/
def Obligations.OmacUpdateAbsorbs : Prop :=
  ∀ (s : State) (f : Fields), opcodeOf (.omacUpdate f) = 0x53 ∧ (f.ctx.toNat < s.nctx → noOperands f →
    ((∀ o, ¬ holdsSlot s f.ctx (.omac o)) → exec (.omacUpdate f) s = .next (answered s .macKeyNotSet [])) ∧
    (∀ o, holdsSlot s f.ctx (.omac o) → o.phase = .finalized → exec (.omacUpdate f) s = .next (answered s .badOrder [])) ∧
    (∀ o, holdsSlot s f.ctx (.omac o) → o.phase ≠ .finalized →
      let absorb (q : OmacCtx) (b : Byte) : OmacCtx :=
        let q1 := omacMeshCheck s.cfg q
        let q2 : OmacCtx :=
          if q.nlast = bs q.cipher then
            { q1 with chain := encBlock s.cfg.bc q1.cipher q1.key (xorB q1.chain q1.lbuf),
                      num := q1.num + BitVec.ofNat 64 (bs q.cipher), nlast := 0, lbuf := zeros (bs q.cipher) }
          else q
        { q2 with lbuf := q2.lbuf.set q2.nlast b, nlast := q2.nlast + 1 }
      exec (.omacUpdate f) s = .next (answeredWith s f.ctx (.omac (f.payload.foldl absorb o)) .ok [])))

/-- `OMAC.FINAL` (R252): the checks in order, and the effect: after the mesh step, the last block, whitened with `K1` where it is
complete and padded and whitened with `K2` where it is not, is xored into the chain and encrypted; the leading
`maclen` bytes are answered; `lbuf`, `nlast` and `chain` stay. -/
def Obligations.OmacFinalAnswersTheMac : Prop :=
  ∀ (s : State) (f : Fields), opcodeOf (.omacFinal f) = 0x54 ∧
    (f.ctx.toNat < s.nctx → noOperands f → f.payload = [] →
    ((∀ o, ¬ holdsSlot s f.ctx (.omac o)) → exec (.omacFinal f) s = .next (answered s .macKeyNotSet [])) ∧
    (∀ o, holdsSlot s f.ctx (.omac o) → o.phase = .finalized → exec (.omacFinal f) s = .next (answered s .badOrder [])) ∧
    (∀ o, holdsSlot s f.ctx (.omac o) → o.phase ≠ .finalized →
      let q := omacMeshCheck s.cfg o
      let w :=
        if q.nlast = bs q.cipher then xorB q.lbuf q.k1
        else xorB (slice q.lbuf 0 q.nlast ++ [0x80] ++ zeros (bs q.cipher - q.nlast - 1)) q.k2
      let mac := encBlock s.cfg.bc q.cipher q.key (xorB q.chain w)
      exec (.omacFinal f) s = .next (answeredWith s f.ctx (.omac { q with mac := mac, phase := .finalized }) .ok
        (slice mac 0 o.maclen)) ∧ q.chain = o.chain ∧ q.lbuf = o.lbuf ∧ q.nlast = o.nlast))

/-- Cutting a message does not show (R54, R255): two `OMAC.UPDATE` commands leave the same context as one over the bytes
together. -/
def Obligations.OmacChunkingInvariance : Prop :=
  ∀ (s : State) (n : BitVec 4) (o : OmacCtx) (p q : Bytes), holdsSlot s n (.omac o) → o.phase ≠ .finalized →
    ∃ o1 o2,
      let s1 := answeredWith s n (.omac o1) .ok []
      exec (.omacUpdate (onSlot n p)) s = .next s1 ∧
      exec (.omacUpdate (onSlot n q)) s1 = .next (answeredWith s1 n (.omac o2) .ok []) ∧
      exec (.omacUpdate (onSlot n (p ++ q))) s = .next (answeredWith s n (.omac o2) .ok [])

/-- The closed form of plain OMAC (R255): a context keyed, given a MAC length, fed a message in any pieces and finished, answers
the leading bytes of the CBC-MAC of the whole message, its last block whitened. -/
def Obligations.OmacClosedFormPlain : Prop :=
  ∀ (s : State) (n : BitVec 4) (c : Cipher) (key : Bytes) (maclen : BitVec 8) (ps : List Bytes),
    n.toNat < s.nctx → key.length = 32 → 1 ≤ maclen.toNat → maclen.toNat ≤ bs c →
    ∃ t, runCommands
        ([.omacInit { ctx := n, a := BitVec.ofNat 4 (cipherCode c), imm := 0, payload := key },
          .omacMaclen { ctx := n, a := 0, imm := maclen, payload := [] }]
          ++ ps.map (fun p => .omacUpdate (onSlot n p)) ++ [.omacFinal (onSlot n [])]) s = some t ∧
      t.resp = s.resp ++ List.replicate (2 + ps.length) ⟨.ok, []⟩
        ++ [⟨.ok, (omacOf s.cfg c (fun _ => plainMaterial s.cfg c key) ps.flatten).take maclen.toNat⟩]

/-- The closed form of OMAC with ACPKM (R255): the same, with block `i` of the message under the key material of its section,
taken from the keystream of the master, whose own key is meshed every `T*` bytes of that keystream. -/
def Obligations.OmacClosedFormAcpkm : Prop :=
  ∀ (s : State) (n : BitVec 4) (c : Cipher) (key : Bytes) (sec t : BitVec 32) (ps : List Bytes),
    n.toNat < s.nctx → key.length = 32 → sec.toNat % bs c = 0 → t.toNat % bs c = 0 →
    ∃ u, runCommands
        ([.omacInita { ctx := n, a := BitVec.ofNat 4 (cipherCode c), imm := 0,
                       payload := key ++ bytesOf 4 sec.toNat ++ bytesOf 4 t.toNat }]
          ++ ps.map (fun p => .omacUpdate (onSlot n p)) ++ [.omacFinal (onSlot n [])]) s = some u ∧
      u.resp = s.resp ++ List.replicate (1 + ps.length) ⟨.ok, []⟩
        ++ [⟨.ok, omacOf s.cfg c (sectionMaterial s.cfg c key sec.toNat t.toNat) ps.flatten⟩]

/-! ### Context management -/

/-- `CTX.CLONE` (R291): the destination becomes a copy of the source, of any kind and in any phase; onto itself it changes
nothing; and after it the one of the two that no command names stays as it is, whatever sequence of commands runs on
the other, or on any other slot. -/
def Obligations.CtxCloneCopiesByValue : Prop :=
  ∀ (s : State) (f : Fields) (x : Slot), opcodeOf (.ctxClone f) = 0x60 ∧
    (f.ctx.toNat < s.nctx → holdsSlot s f.a x → f.imm = 0 → f.payload = [] →
    (f.ctx = f.a → exec (.ctxClone f) s = .next (answered s .ok [])) ∧
    (f.ctx ≠ f.a → exec (.ctxClone f) s = .next (answeredWith s f.ctx x .ok []) ∧
      holdsSlot (answeredWith s f.ctx x .ok []) f.ctx x ∧ holdsSlot (answeredWith s f.ctx x .ok []) f.a x ∧
      ∀ (cmds : List Instr) (t : State), runCommands cmds (answeredWith s f.ctx x .ok []) = some t →
        ((∀ i ∈ cmds, i.fields.ctx ≠ f.a) → holdsSlot t f.a x) ∧
        ((∀ i ∈ cmds, i.fields.ctx ≠ f.ctx) → holdsSlot t f.ctx x)))

/-- `CTX.DESTROY` (R293): the slot, of any kind, becomes `Empty`: after it the query answers zeros. -/
def Obligations.CtxDestroyEmpties : Prop :=
  ∀ (s : State) (f : Fields), opcodeOf (.ctxDestroy f) = 0x61 ∧
    (f.ctx.toNat < s.nctx → noOperands f → f.payload = [] →
      let t := answeredWith s f.ctx .empty .ok []
      exec (.ctxDestroy f) s = .next t ∧ (holdsSlot s f.ctx .empty → t = answered s .ok []) ∧
      exec (.ctxQuery f) t = .next (answered t .ok [0, 0, 0, 0]) ∧
      ∀ p, exec (.mgmAad (onSlot f.ctx p)) t = .next (answered t .keyNotSet []))

/-- `CTX.QUERY` (R295): four bytes, the kind, the cipher, the phase and the tag or MAC length, by the codes of R5, R20, R27, R31,
R36 and R42; nothing changes. -/
def Obligations.CtxQueryAnswersFourBytes : Prop :=
  ∀ (s : State) (f : Fields) (x : Slot), opcodeOf (.ctxQuery f) = 0x62 ∧
    (holdsSlot s f.ctx x → noOperands f → f.payload = [] →
      let cc (c : Cipher) : Byte := match c with | .magma => 0 | .grasshopper => 1
      exec (.ctxQuery f) s = .next (answered s .ok
        (match x with
        | .empty => [0, 0, 0, 0]
        | .bc c => [1, cc c.cipher, 1, 0]
        | .ctr c => [2, cc c.cipher, match c.phase with | .keySet => 1 | .ivSet => 2, 0]
        | .mgm m =>
          [3, cc m.cipher,
            match m.phase with
            | .keySet => 1 | .ivSet => 2 | .processingAad => 3 | .processingData => 4 | .finalized => 5,
            BitVec.ofNat 8 m.taglen]
        | .omac o =>
          [4, cc o.cipher, match o.phase with | .keySet => 1 | .finalized => 5, BitVec.ofNat 8 o.maclen])))

/-- `NOP` (R296): eight zero bytes are the whole frame, nothing changes, and the response travels as eight zero bytes. -/
def Obligations.NopDoesNothing : Prop :=
  ∀ (s : State) (rest : List Bytes), s.cmd = zeros 8 :: rest →
    decode (zeros 8) = .ok (.nop (onSlot 0 [])) ∧
    exec (.nop (onSlot 0 [])) { s with cmd := rest } = .next (answered { s with cmd := rest } .ok []) ∧
    step s = .next (answered { s with cmd := rest } .ok []) ∧ responseFrame ⟨.ok, []⟩ = zeros 8
end

