-- ==== Sys2Proof/Laws/Bytes.lean ====
section
/-! SUPPORT. Lemmas on byte strings: lengths, the integer reading and its inverse, xor, padding, the counters. -/

namespace Sys2Proof.Machine

@[simp] theorem length_zeros (k : Nat) : (zeros k).length = k := by simp [zeros]

@[simp] theorem zeros_zero : zeros 0 = [] := rfl

theorem zeros_succ (k : Nat) : zeros (k + 1) = 0 :: zeros k := rfl

theorem zeros_append (a b : Nat) : zeros a ++ zeros b = zeros (a + b) := by
  simp [zeros, List.replicate_append_replicate]

@[simp] theorem drop_zeros (i k : Nat) : (zeros k).drop i = zeros (k - i) := by simp [zeros]

@[simp] theorem take_zeros (i k : Nat) : (zeros k).take i = zeros (min i k) := by simp [zeros]

/-! ### The integer reading -/

theorem intOf_foldl (b : Bytes) (a : Nat) :
    b.foldl (fun acc x => acc * 256 + x.toNat) a = a * 256 ^ b.length + intOf b := by
  induction b generalizing a with
  | nil => simp [intOf]
  | cons x r ih =>
    simp only [List.foldl_cons, List.length_cons, intOf]
    rw [ih, ih (0 * 256 + x.toNat)]
    ring

@[simp] theorem intOf_nil : intOf [] = 0 := rfl

theorem intOf_cons (x : Byte) (r : Bytes) : intOf (x :: r) = x.toNat * 256 ^ r.length + intOf r := by
  rw [intOf, List.foldl_cons, intOf_foldl]
  simp

theorem intOf_append (a b : Bytes) : intOf (a ++ b) = intOf a * 256 ^ b.length + intOf b := by
  rw [intOf, List.foldl_append, intOf_foldl]
  rfl

theorem intOf_lt (b : Bytes) : intOf b < 256 ^ b.length := by
  induction b with
  | nil => simp
  | cons x r ih =>
    rw [intOf_cons, List.length_cons, pow_succ]
    have hx : x.toNat < 256 := x.isLt
    have hle : x.toNat * 256 ^ r.length ≤ 255 * 256 ^ r.length := Nat.mul_le_mul_right _ (by omega)
    omega

@[simp] theorem length_bytesOf (k v : Nat) : (bytesOf k v).length = k := by
  induction k with
  | zero => rfl
  | succ k ih => simp [bytesOf, ih]

/-- `bytes_k(v)` is the string whose integer is `v mod 256^k` (R13). -/
theorem intOf_bytesOf (k v : Nat) : intOf (bytesOf k v) = v % 256 ^ k := by
  induction k with
  | zero => simp [bytesOf, Nat.mod_one]
  | succ k ih =>
    simp only [bytesOf]
    have h := Nat.mod_mul (x := v) (a := 256 ^ k) (b := 256)
    rw [intOf_cons, ih, length_bytesOf, BitVec.toNat_ofNat, pow_succ 256 k, h, Nat.mul_comm, Nat.add_comm]

/-- `bytes_k` undoes `int` on strings of `k` bytes (R13). -/
theorem bytesOf_intOf (b : Bytes) : bytesOf b.length (intOf b) = b := by
  induction b with
  | nil => rfl
  | cons x r ih =>
    simp only [List.length_cons, bytesOf, intOf_cons]
    have hr := intOf_lt r
    have hp : 0 < 256 ^ r.length := Nat.pow_pos (by omega)
    congr 1
    · rw [Nat.mul_comm, Nat.mul_add_div hp, Nat.div_eq_of_lt hr]
      simp
    · have : ∀ (k w c : Nat), bytesOf k (c * 256 ^ k + w) = bytesOf k w := by
        intro k
        induction k with
        | zero => intros; rfl
        | succ k ihk =>
          intro w c
          simp only [bytesOf]
          have h1 : c * 256 ^ (k + 1) + w = (c * 256) * 256 ^ k + w := by ring
          rw [h1, ihk]
          congr 1
          have hk : 0 < 256 ^ k := Nat.pow_pos (by omega)
          rw [Nat.mul_comm (c * 256), Nat.mul_add_div hk]
          apply BitVec.eq_of_toNat_eq
          simp
      rw [this, ih]

theorem bytesOf_intOf_of_length {b : Bytes} {k : Nat} (h : b.length = k) : bytesOf k (intOf b) = b := by
  rw [← h, bytesOf_intOf]

/-- Two strings of one length with the same integer are the same string (R13). -/
theorem intOf_injective {a b : Bytes} (hl : a.length = b.length) (h : intOf a = intOf b) : a = b := by
  rw [← bytesOf_intOf a, ← bytesOf_intOf b, hl, h]

theorem bytesOf_mod (k v : Nat) : bytesOf k (v % 256 ^ k) = bytesOf k v :=
  intOf_injective (by simp) (by simp [intOf_bytesOf])

theorem bytesOf_eq_iff (k v w : Nat) : bytesOf k v = bytesOf k w ↔ v % 256 ^ k = w % 256 ^ k := by
  constructor
  · intro h
    rw [← intOf_bytesOf, h, intOf_bytesOf]
  · intro h
    rw [← bytesOf_mod, h, bytesOf_mod]

theorem intOf_zeros (k : Nat) : intOf (zeros k) = 0 := by
  induction k with
  | zero => rfl
  | succ k ih => simp [zeros_succ, intOf_cons, ih]

/-! ### Xor -/

@[simp] theorem length_xorB (a b : Bytes) : (xorB a b).length = min a.length b.length := by simp [xorB]

theorem xorB_comm (a b : Bytes) : xorB a b = xorB b a := by
  unfold xorB
  rw [List.zipWith_comm]
  simp [BitVec.xor_comm]

theorem xorB_assoc (a b c : Bytes) : xorB (xorB a b) c = xorB a (xorB b c) := by
  unfold xorB
  induction a generalizing b c with
  | nil => simp
  | cons x a ih => cases b <;> cases c <;> simp [ih, BitVec.xor_assoc]

theorem xorB_self (a : Bytes) : xorB a a = zeros a.length := by
  simp [xorB, zeros]

theorem xorB_zeros_right {a : Bytes} {k : Nat} (h : a.length = k) : xorB a (zeros k) = a := by
  subst h
  induction a with
  | nil => rfl
  | cons x a ih =>
    simp only [xorB] at ih
    simpa [xorB, zeros_succ] using ih

/-- Xoring the same string twice gives the string back. -/
theorem xorB_cancel {a b : Bytes} (h : a.length = b.length) : xorB (xorB a b) b = a := by
  rw [xorB_assoc, xorB_self, xorB_zeros_right h]

/-! ### Cutting and filling -/

@[simp] theorem length_fit (n : Nat) (b : Bytes) : (fit n b).length = n := by
  simp [fit]

theorem fit_of_length {n : Nat} {b : Bytes} (h : b.length = n) : fit n b = b := by
  simp [fit, ← h]

theorem length_slice (b : Bytes) (i j : Nat) : (slice b i j).length = min (j - i) (b.length - i) := by
  simp [slice]

theorem length_slice_of_le {b : Bytes} {i j : Nat} (hij : i ≤ j) (hj : j ≤ b.length) :
    (slice b i j).length = j - i := by
  rw [length_slice]
  omega

theorem slice_zero_length {b : Bytes} {n : Nat} (h : b.length = n) : slice b 0 n = b := by
  simp [slice, ← h]

/-! ### The top bit -/

@[simp] theorem length_settop (b : Bytes) (t : Bool) : (settop b t).length = b.length := by
  cases b <;> cases t <;> simp [settop]

theorem settop_settop (b : Bytes) (t u : Bool) : settop (settop b t) u = settop b u := by
  cases b with
  | nil => cases t <;> cases u <;> rfl
  | cons x r =>
    have h1 : ∀ x : Byte, (x ||| 0x80#8) ||| 0x80#8 = x ||| 0x80#8 := by decide
    have h2 : ∀ x : Byte, (x ||| 0x80#8) &&& 0x7F#8 = x &&& 0x7F#8 := by decide
    have h3 : ∀ x : Byte, (x &&& 0x7F#8) ||| 0x80#8 = x ||| 0x80#8 := by decide
    have h4 : ∀ x : Byte, (x &&& 0x7F#8) &&& 0x7F#8 = x &&& 0x7F#8 := by decide
    cases t <;> cases u
    · simp only [settop, h4]
    · simp only [settop, h3]
    · simp only [settop, h2]
    · simp only [settop, h1]

theorem settop_zeros (k : Nat) : settop (zeros k) false = zeros k := by
  cases k <;> rfl

/-! ### The counters -/

@[simp] theorem length_incrFull (b : Bytes) : (incrFull b).length = b.length := by simp [incrFull]

@[simp] theorem length_incrL (b : Bytes) : (incrL b).length = b.length := by
  simp [incrL]; omega

@[simp] theorem length_incrR (b : Bytes) : (incrR b).length = b.length := by
  simp [incrR]; omega

theorem intOf_incrFull (b : Bytes) : intOf (incrFull b) = (intOf b + 1) % 256 ^ b.length := by
  rw [incrFull, intOf_bytesOf]

/-! ### Buffers filled from the left -/

theorem length_set_eq (b : Bytes) (i : Nat) (x : Byte) : (b.set i x).length = b.length := by simp

/-- Writing the byte at the fill count of a buffer that is zero from there on leaves it zero beyond the new fill count. -/
theorem drop_set_fill {b : Bytes} {n i : Nat} (x : Byte) (hl : b.length = n)
    (hz : b.drop i = zeros (n - i)) : (b.set i x).drop (i + 1) = zeros (n - (i + 1)) := by
  subst hl
  rw [List.drop_set_of_lt (by omega), ← List.drop_drop, hz, drop_zeros]
  congr 1

end Sys2Proof.Machine
end

