-- ==== Sys2Proof/Laws/Cipher.lean ====
section
/-! SUPPORT. Sizes of what the shared functions answer: blocks are blocks and keys are keys. -/

namespace Sys2Proof.Machine

theorem bs_pos (c : Cipher) : 0 < bs c := by cases c <;> decide

theorem bs_cases (c : Cipher) : bs c = 8 ∨ bs c = 16 := by cases c <;> decide

theorem halfBs_add_halfBs (c : Cipher) : halfBs c + halfBs c = bs c := by cases c <;> rfl

theorem blocksPerKey_mul_bs (c : Cipher) : blocksPerKey c * bs c = keyLen := by cases c <;> rfl

theorem bs_dvd_pow64 (c : Cipher) : bs c ∣ 2 ^ 64 := by cases c <;> decide

/-- Every length bound of R192 fits a 64-bit counter. -/
theorem mgmLimit_lt (c : Cipher) : mgmLimit c < 2 ^ 64 := by cases c <;> decide

theorem keyLen_add_bs_mod (c : Cipher) : (keyLen + bs c) % bs c = 0 := by cases c <;> rfl

@[simp] theorem length_encBlock (b : BlockCipher) (c : Cipher) (k x : Bytes) :
    (encBlock b c k x).length = bs c := by simp [encBlock]

@[simp] theorem length_decBlock (b : BlockCipher) (c : Cipher) (k x : Bytes) :
    (decBlock b c k x).length = bs c := by simp [decBlock]

@[simp] theorem length_gfMul (c : Cipher) (a b : Bytes) : (gfMul c a b).length = bs c := by simp [gfMul]

@[simp] theorem length_dbl (c : Cipher) (x : Bytes) : (dbl c x).length = bs c := by simp [dbl]

/-- A meshed key is a key (R141). -/
@[simp] theorem length_acpkmNextKey (cfg : Config) (c : Cipher) (k : Bytes) :
    (acpkmNextKey cfg c k).length = keyLen := by
  simp only [acpkmNextKey, List.length_flatMap, length_encBlock]
  rw [List.map_const', List.sum_replicate, List.length_range, smul_eq_mul, blocksPerKey_mul_bs]

/-- The counter's low bits are its remainder (R149). -/
theorem toNat_maskNum (c : Cipher) (n : BitVec 64) : (maskNum c n).toNat = n.toNat % bs c := by
  cases c
  · have h : (maskNum .magma n).toNat = n.toNat &&& (2 ^ 3 - 1) := rfl
    rw [h, Nat.and_two_pow_sub_one_eq_mod]
    rfl
  · have h : (maskNum .grasshopper n).toNat = n.toNat &&& (2 ^ 4 - 1) := rfl
    rw [h, Nat.and_two_pow_sub_one_eq_mod]
    rfl

theorem pow_eight_mul_bs (c : Cipher) : 256 ^ bs c = 2 ^ (8 * bs c) := by cases c <;> rfl

/-- `TOY` obeys the law of R9 (95_test_vectors.md section 2). -/
theorem toy_lawful : Lawful .toy := by
  intro c k x hk hx
  have hp := pow_eight_mul_bs c
  have hkl : keyLen = 32 := rfl
  have hbs := bs_cases c
  have ha : intOf (slice k 0 (bs c)) < 2 ^ (8 * bs c) := by
    have h := intOf_lt (slice k 0 (bs c)); rwa [length_slice_of_le (by omega) (by omega), Nat.sub_zero, hp] at h
  have hb : intOf (slice k (bs c) (2 * bs c)) < 2 ^ (8 * bs c) := by
    have h := intOf_lt (slice k (bs c) (2 * bs c))
    rwa [length_slice_of_le (by omega) (by omega), show 2 * bs c - bs c = bs c by omega, hp] at h
  have hxl : intOf x < 2 ^ (8 * bs c) := by have h := intOf_lt x; rwa [hx, hp] at h
  have hpos : 0 < 2 ^ (8 * bs c) := Nat.two_pow_pos _
  have he : encBlock .toy c k x = toyE c k x := fit_of_length (by simp [toyE])
  have hd : decBlock .toy c k x = toyD c k x := fit_of_length (by simp [toyD])
  have he' : ∀ y, encBlock .toy c k y = toyE c k y := fun y => fit_of_length (by simp [toyE])
  have hd' : ∀ y, decBlock .toy c k y = toyD c k y := fun y => fit_of_length (by simp [toyD])
  rw [he, hd, hd', he']
  unfold toyD toyE
  generalize intOf (slice k 0 (bs c)) = a at *
  generalize intOf (slice k (bs c) (2 * bs c)) = b at *
  rw [intOf_bytesOf, intOf_bytesOf, hp]
  constructor
  · rw [Nat.mod_eq_of_lt (Nat.xor_lt_two_pow (Nat.mod_lt _ hpos) hb), Nat.xor_assoc, Nat.xor_self, Nat.xor_zero]
    refine Eq.trans ?_ (bytesOf_intOf_of_length hx)
    rw [bytesOf_eq_iff, hp, Nat.mod_eq_of_lt hxl]
    generalize 2 ^ (8 * bs c) = m at *
    rcases Nat.lt_or_ge (intOf x + a) m with h | h
    · rw [Nat.mod_eq_of_lt h, show intOf x + a + m - a = intOf x + m by omega, Nat.add_mod_right, Nat.mod_eq_of_lt hxl]
    · rw [Nat.mod_eq_sub_mod h, Nat.mod_eq_of_lt (a := intOf x + a - m) (by omega), show intOf x + a - m + m - a = intOf x by omega, Nat.mod_eq_of_lt hxl]
  · have hxb := Nat.xor_lt_two_pow hxl hb
    refine Eq.trans ?_ (bytesOf_intOf_of_length hx)
    congr 1
    have : ((intOf x ^^^ b) + 2 ^ (8 * bs c) - a) % 2 ^ (8 * bs c) + a = (intOf x ^^^ b) ∨ ((intOf x ^^^ b) + 2 ^ (8 * bs c) - a) % 2 ^ (8 * bs c) + a = (intOf x ^^^ b) + 2 ^ (8 * bs c) := by
      rcases Nat.lt_or_ge (intOf x ^^^ b) a with h | h
      · right; rw [Nat.mod_eq_of_lt (by omega)]; omega
      · left; rw [show (intOf x ^^^ b) + 2 ^ (8 * bs c) - a = (intOf x ^^^ b) - a + 2 ^ (8 * bs c) by omega, Nat.add_mod_right, Nat.mod_eq_of_lt (by omega)]; omega
    have h2 : (((intOf x ^^^ b) + 2 ^ (8 * bs c) - a) % 2 ^ (8 * bs c) + a) % 2 ^ (8 * bs c) = (intOf x ^^^ b) := by
      rcases this with h | h <;> rw [h]
      · exact Nat.mod_eq_of_lt hxb
      · rw [Nat.add_mod_right, Nat.mod_eq_of_lt hxb]
    rw [h2, Nat.xor_assoc, Nat.xor_self, Nat.xor_zero]

end Sys2Proof.Machine
end

