-- ==== Sys2Proof/Laws/Ctr.lean ====
section
/-! SUPPORT. The CTR keystream driver: lengths, cutting the data, what its state does not depend on, and the
widths it keeps. -/

namespace Sys2Proof.Machine

@[simp] theorem ctrStream_nil (cfg : Config) (c : Cipher) (g : CtrGen) : ctrStream cfg c g [] = ([], g) := rfl

theorem ctrStream_cons (cfg : Config) (c : Cipher) (g : CtrGen) (b : Byte) (r : Bytes) :
    ctrStream cfg c g (b :: r) =
      ((ctrByte cfg c g b).1 :: (ctrStream cfg c (ctrByte cfg c g b).2 r).1, (ctrStream cfg c (ctrByte cfg c g b).2 r).2) := rfl

/-- As many bytes out as in (R149). -/
@[simp] theorem length_ctrStream (cfg : Config) (c : Cipher) (g : CtrGen) (p : Bytes) :
    (ctrStream cfg c g p).1.length = p.length := by
  induction p generalizing g with
  | nil => rfl
  | cons b r ih => simp [ctrStream_cons, ih]

/-- Two runs of the driver one after the other are one run over the bytes together. -/
theorem ctrStream_append (cfg : Config) (c : Cipher) (g : CtrGen) (p q : Bytes) :
    ctrStream cfg c g (p ++ q) =
      ((ctrStream cfg c g p).1 ++ (ctrStream cfg c (ctrStream cfg c g p).2 q).1,
        (ctrStream cfg c (ctrStream cfg c g p).2 q).2) := by
  induction p generalizing g with
  | nil => simp
  | cons b r ih => simp [ctrStream_cons, ih]

/-- The generator after a byte does not depend on the byte. -/
theorem ctrByte_snd (cfg : Config) (c : Cipher) (g : CtrGen) (b : Byte) :
    (ctrByte cfg c g b).2 = { ctrReady cfg c g with num := (ctrReady cfg c g).num + 1 } := rfl

theorem ctrByte_fst (cfg : Config) (c : Cipher) (g : CtrGen) (b : Byte) :
    (ctrByte cfg c g b).1 = b ^^^ (ctrReady cfg c g).ks.getD ((ctrReady cfg c g).num.toNat % bs c) 0 := rfl

/-- The generator after a run depends only on how many bytes went through it. -/
theorem ctrStream_snd_congr (cfg : Config) (c : Cipher) (g : CtrGen) {p q : Bytes} (h : p.length = q.length) :
    (ctrStream cfg c g p).2 = (ctrStream cfg c g q).2 := by
  induction p generalizing g q with
  | nil =>
    cases q with
    | nil => rfl
    | cons _ _ => simp at h
  | cons b r ih =>
    cases q with
    | nil => simp at h
    | cons b' r' =>
      simp only [ctrStream_cons, ctrByte_snd]
      exact ih _ (by simpa using h)

/-! ### The parts of a step -/

@[simp] theorem ctrMesh_ctr (cfg : Config) (c : Cipher) (g : CtrGen) : (ctrMesh cfg c g).ctr = g.ctr := by
  unfold ctrMesh; split <;> rfl
@[simp] theorem ctrMesh_ks (cfg : Config) (c : Cipher) (g : CtrGen) : (ctrMesh cfg c g).ks = g.ks := by
  unfold ctrMesh; split <;> rfl
@[simp] theorem ctrMesh_sect (cfg : Config) (c : Cipher) (g : CtrGen) : (ctrMesh cfg c g).sect = g.sect := by
  unfold ctrMesh; split <;> rfl
@[simp] theorem ctrRefill_sect (cfg : Config) (c : Cipher) (g : CtrGen) : (ctrRefill cfg c g).sect = g.sect := by
  simp [ctrRefill]
@[simp] theorem ctrReady_sect (cfg : Config) (c : Cipher) (g : CtrGen) : (ctrReady cfg c g).sect = g.sect := by
  unfold ctrReady; split <;> simp

/-- The driver never writes the section size. -/
@[simp] theorem ctrStream_sect (cfg : Config) (c : Cipher) (g : CtrGen) (p : Bytes) :
    (ctrStream cfg c g p).2.sect = g.sect := by
  induction p generalizing g with
  | nil => rfl
  | cons b r ih => simp [ctrStream_cons, ih, ctrByte_snd]

theorem length_key_ctrMesh (cfg : Config) (c : Cipher) {g : CtrGen} (h : g.key.length = keyLen) :
    (ctrMesh cfg c g).key.length = keyLen := by
  unfold ctrMesh; split <;> simp [h]

/-- A meshing step keeps the position inside the block (R149). -/
theorem ctrMesh_num_mod (cfg : Config) (c : Cipher) (g : CtrGen) :
    (ctrMesh cfg c g).num.toNat % bs c = g.num.toNat % bs c := by
  unfold ctrMesh; split <;> simp [toNat_maskNum]

/-- The widths of a generator are kept by a byte (R30). -/
theorem GenWf.ctrReady {cfg : Config} {c : Cipher} {g : CtrGen} (h : GenWf c g) : GenWf c (ctrReady cfg c g) := by
  unfold Machine.ctrReady
  split
  · exact ⟨length_key_ctrMesh cfg c h.key, by simp [IsBlock, ctrRefill, show g.ctr.length = bs c from h.ctr],
      by simp [IsBlock, ctrRefill], by simpa using h.sect⟩
  · exact h

theorem GenWf.ctrByte {cfg : Config} {c : Cipher} {g : CtrGen} (h : GenWf c g) (b : Byte) :
    GenWf c (ctrByte cfg c g b).2 :=
  have h' := h.ctrReady (cfg := cfg)
  ⟨h'.key, h'.ctr, h'.ks, h'.sect⟩

/-- The widths of a generator are kept by a run of the driver (R30). -/
theorem GenWf.ctrStream {cfg : Config} {c : Cipher} {g : CtrGen} (h : GenWf c g) (p : Bytes) :
    GenWf c (ctrStream cfg c g p).2 := by
  induction p generalizing g with
  | nil => exact h
  | cons b r ih => exact ih (h.ctrByte b)

/-- One byte moves the position inside the block by one. -/
theorem ctrByte_num_mod (cfg : Config) (c : Cipher) (g : CtrGen) (b : Byte) :
    (ctrByte cfg c g b).2.num.toNat % bs c = (g.num.toNat + 1) % bs c := by
  have h0 : (ctrReady cfg c g).num.toNat % bs c = g.num.toNat % bs c := by
    unfold ctrReady
    split
    · exact ctrMesh_num_mod cfg c g
    · rfl
  rw [ctrByte_snd]
  simp only [BitVec.toNat_add]
  rw [Nat.mod_mod_of_dvd _ (bs_dvd_pow64 c), Nat.add_mod, h0, ← Nat.add_mod]
  rfl

/-- A run of `n` bytes moves the position inside the block by `n` (R149). -/
theorem ctrStream_num_mod (cfg : Config) (c : Cipher) (g : CtrGen) (p : Bytes) :
    (ctrStream cfg c g p).2.num.toNat % bs c = (g.num.toNat + p.length) % bs c := by
  induction p generalizing g with
  | nil => simp
  | cons b r ih =>
    rw [ctrStream_cons]
    simp only [ih, List.length_cons]
    rw [Nat.add_mod, ctrByte_num_mod, ← Nat.add_mod]
    congr 1
    omega

/-- Sending the output through a generator in the same state gives the input back (R150 (b)). -/
theorem ctrByte_ctrByte (cfg : Config) (c : Cipher) (g : CtrGen) (b : Byte) :
    (ctrByte cfg c g (ctrByte cfg c g b).1).1 = b := by
  simp [ctrByte_fst]

end Sys2Proof.Machine
end

