-- ==== Sys2Proof/Laws/Decode.lean ====
section
/-! SUPPORT. What the parts of the decoder can do: the fields of a header word, the opcode map read both ways, and the first
frame of a byte stream (R70 to R78 of 30_encoding.md). -/

namespace Sys2Proof

open Machine

/-- A concatenation as a number. -/
theorem toNat_append_eq {m n : Nat} (x : BitVec m) (y : BitVec n) : (x ++ y).toNat = x.toNat * 2 ^ n + y.toNat := by
  rw [BitVec.toNat_append, ← Nat.shiftLeft_add_eq_or_of_lt y.isLt, Nat.shiftLeft_eq]

@[simp] theorem hdrOp_append (op : BitVec 8) (c a : BitVec 4) (m : BitVec 8) : hdrOp (op ++ c ++ a ++ m ++ 0#8) = op := by
  unfold hdrOp
  apply BitVec.eq_of_getLsbD_eq
  intro k hk
  simp only [BitVec.getLsbD_extractLsb', BitVec.getLsbD_append]
  interval_cases k <;> simp

@[simp] theorem hdrCtx_append (op : BitVec 8) (c a : BitVec 4) (m : BitVec 8) : hdrCtx (op ++ c ++ a ++ m ++ 0#8) = c := by
  unfold hdrCtx
  apply BitVec.eq_of_getLsbD_eq
  intro k hk
  simp only [BitVec.getLsbD_extractLsb', BitVec.getLsbD_append]
  interval_cases k <;> simp

@[simp] theorem hdrA_append (op : BitVec 8) (c a : BitVec 4) (m : BitVec 8) : hdrA (op ++ c ++ a ++ m ++ 0#8) = a := by
  unfold hdrA
  apply BitVec.eq_of_getLsbD_eq
  intro k hk
  simp only [BitVec.getLsbD_extractLsb', BitVec.getLsbD_append]
  interval_cases k <;> simp

@[simp] theorem hdrImm_append (op : BitVec 8) (c a : BitVec 4) (m : BitVec 8) : hdrImm (op ++ c ++ a ++ m ++ 0#8) = m := by
  unfold hdrImm
  apply BitVec.eq_of_getLsbD_eq
  intro k hk
  simp only [BitVec.getLsbD_extractLsb', BitVec.getLsbD_append]
  interval_cases k <;> simp

@[simp] theorem hdrRsv_append (op : BitVec 8) (c a : BitVec 4) (m : BitVec 8) : hdrRsv (op ++ c ++ a ++ m ++ 0#8) = 0 := by
  unfold hdrRsv
  apply BitVec.eq_of_getLsbD_eq
  intro k hk
  simp only [BitVec.getLsbD_extractLsb', BitVec.getLsbD_append]
  interval_cases k <;> simp

/-- A header word is its fields, from the most significant down (R71). -/
theorem hdr_fields (h : BitVec 32) : h = hdrOp h ++ hdrCtx h ++ hdrA h ++ hdrImm h ++ hdrRsv h := by
  unfold hdrOp hdrCtx hdrA hdrImm hdrRsv
  apply BitVec.eq_of_getLsbD_eq
  intro k hk
  simp only [BitVec.getLsbD_extractLsb', BitVec.getLsbD_append]
  interval_cases k <;> simp

/-- The opcode map read both ways (R76). -/
theorem ofOpcode_opcodeOf (i : Instr) : ofOpcode (opcodeOf i) i.fields = some i := by cases i <;> rfl

theorem ofOpcode_some {op : BitVec 8} {f : Fields} {i : Instr} (h : ofOpcode op f = some i) : opcodeOf i = op ∧ i.fields = f := by
  unfold ofOpcode at h
  split at h <;> first | (cases h; rename_i hh; exact ⟨BitVec.eq_of_toNat_eq hh.symm, rfl⟩) | cases h

/-- What a whole frame at the front of a stream is: it is there whatever follows, and has at least its 8 bytes (R70). -/
theorem takeFrame_some {x f r : Bytes} (h : takeFrame x = some (f, r)) :
    (∀ y, takeFrame (x ++ y) = some (f, r ++ y)) ∧ x = f ++ r ∧ 8 ≤ f.length := by
  unfold takeFrame at *
  split at h
  · cases h
  · split at h
    · cases h
    · rename_i h1 h2
      simp only [Option.some.injEq, Prod.mk.injEq] at h
      obtain ⟨rfl, rfl⟩ := h
      refine ⟨fun y => ?_, (List.take_append_drop _ _).symm, ?_⟩
      · have hs : slice (x ++ y) 4 8 = slice x 4 8 := by
          unfold slice
          rw [List.drop_append_of_le_length (by omega), List.take_append_of_le_length (by simp; omega)]
        have hf : frameLen (x ++ y) = frameLen x := by unfold frameLen; rw [hs]
        rw [if_neg (by simp; omega), hf, if_neg (by simp; omega)]
        rw [List.take_append_of_le_length (by omega), List.drop_append_of_le_length (by omega)]
      · simp [frameLen] at h2 ⊢
        omega

/-- Fuel as long as the stream is enough. -/
theorem splitFrames_fuel (n : Nat) : ∀ (x : Bytes) (m : Nat), x.length ≤ n → n ≤ m → splitFrames m x = splitFrames n x := by
  induction n with
  | zero =>
    intro x m hx hm
    obtain rfl : x = [] := List.eq_nil_of_length_eq_zero (by omega)
    cases m <;> simp [splitFrames, takeFrame]
  | succ n ih =>
    intro x m hx hm
    obtain ⟨m, rfl⟩ : ∃ k, m = k + 1 := ⟨m - 1, by omega⟩
    simp only [splitFrames]
    cases ht : takeFrame x with
    | none => rfl
    | some fr =>
      obtain ⟨f, r⟩ := fr
      obtain ⟨-, h2, h3⟩ := takeFrame_some ht
      have : x.length = f.length + r.length := by rw [h2]; simp
      simp only
      rw [ih r m (by omega) (by omega)]

end Sys2Proof
end

