-- ==== Sys2Proof/Laws/State.lean ====
section
/-! SUPPORT. One lemma per field per update of the state, and reading a slot after a write. -/

namespace Sys2Proof.Machine

/-! ### `State.setSlot` -/

@[simp] theorem State.setSlot_cfg (s : State) (i : BitVec 4) (x : Slot) : (s.setSlot i x).cfg = s.cfg := rfl
@[simp] theorem State.setSlot_ctx (s : State) (i : BitVec 4) (x : Slot) : (s.setSlot i x).ctx = s.ctx.set i.toNat x := rfl
@[simp] theorem State.setSlot_cmd (s : State) (i : BitVec 4) (x : Slot) : (s.setSlot i x).cmd = s.cmd := rfl
@[simp] theorem State.setSlot_rx (s : State) (i : BitVec 4) (x : Slot) : (s.setSlot i x).rx = s.rx := rfl
@[simp] theorem State.setSlot_resp (s : State) (i : BitVec 4) (x : Slot) : (s.setSlot i x).resp = s.resp := rfl
@[simp] theorem State.setSlot_nctx (s : State) (i : BitVec 4) (x : Slot) : (s.setSlot i x).nctx = s.nctx := by
  simp [State.nctx]

/-! ### `State.push` -/

@[simp] theorem State.push_cfg (s : State) (st : Status) (p : Bytes) : (s.push st p).cfg = s.cfg := rfl
@[simp] theorem State.push_ctx (s : State) (st : Status) (p : Bytes) : (s.push st p).ctx = s.ctx := rfl
@[simp] theorem State.push_cmd (s : State) (st : Status) (p : Bytes) : (s.push st p).cmd = s.cmd := rfl
@[simp] theorem State.push_rx (s : State) (st : Status) (p : Bytes) : (s.push st p).rx = s.rx := rfl
@[simp] theorem State.push_resp (s : State) (st : Status) (p : Bytes) : (s.push st p).resp = s.resp ++ [⟨st, p⟩] := rfl
@[simp] theorem State.push_nctx (s : State) (st : Status) (p : Bytes) : (s.push st p).nctx = s.nctx := rfl

/-! ### The two shapes a next state has -/

theorem answered_eq_push (s : State) (st : Status) (p : Bytes) : answered s st p = s.push st p := rfl

theorem answeredWith_eq_setSlot_push (s : State) (i : BitVec 4) (x : Slot) (st : Status) (p : Bytes) :
    answeredWith s i x st p = (s.setSlot i x).push st p := rfl

@[simp] theorem answered_cfg (s : State) (st : Status) (p : Bytes) : (answered s st p).cfg = s.cfg := rfl
@[simp] theorem answered_ctx (s : State) (st : Status) (p : Bytes) : (answered s st p).ctx = s.ctx := rfl
@[simp] theorem answered_cmd (s : State) (st : Status) (p : Bytes) : (answered s st p).cmd = s.cmd := rfl
@[simp] theorem answered_rx (s : State) (st : Status) (p : Bytes) : (answered s st p).rx = s.rx := rfl
@[simp] theorem answered_resp (s : State) (st : Status) (p : Bytes) :
    (answered s st p).resp = s.resp ++ [⟨st, p⟩] := rfl

@[simp] theorem answeredWith_cfg (s : State) (i : BitVec 4) (x : Slot) (st : Status) (p : Bytes) :
    (answeredWith s i x st p).cfg = s.cfg := rfl
@[simp] theorem answeredWith_ctx (s : State) (i : BitVec 4) (x : Slot) (st : Status) (p : Bytes) :
    (answeredWith s i x st p).ctx = s.ctx.set i.toNat x := rfl
@[simp] theorem answeredWith_cmd (s : State) (i : BitVec 4) (x : Slot) (st : Status) (p : Bytes) :
    (answeredWith s i x st p).cmd = s.cmd := rfl
@[simp] theorem answeredWith_rx (s : State) (i : BitVec 4) (x : Slot) (st : Status) (p : Bytes) :
    (answeredWith s i x st p).rx = s.rx := rfl
@[simp] theorem answeredWith_resp (s : State) (i : BitVec 4) (x : Slot) (st : Status) (p : Bytes) :
    (answeredWith s i x st p).resp = s.resp ++ [⟨st, p⟩] := rfl

/-! ### Reading a slot -/

/-- A slot that holds a record is inside the slot file. -/
theorem holdsSlot_lt {s : State} {i : BitVec 4} {x : Slot} (h : holdsSlot s i x) : i.toNat < s.nctx := by
  obtain ⟨h, -⟩ := List.getElem?_eq_some_iff.mp h
  exact h

theorem slot_of_holdsSlot {s : State} {i : BitVec 4} {x : Slot} (h : holdsSlot s i x) : s.slot i = x := by
  simp only [holdsSlot] at h
  simp [State.slot, List.getD_eq_getElem?_getD, h]

/-- Inside the slot file, what a slot reads as is what it holds. -/
theorem holdsSlot_slot {s : State} {i : BitVec 4} (h : i.toNat < s.nctx) : holdsSlot s i (s.slot i) := by
  have h' : i.toNat < s.ctx.length := h
  simp [holdsSlot, State.slot, List.getD_eq_getElem?_getD, List.getElem?_eq_getElem h']

/-- A read after a write of the same slot gives the value written. -/
theorem holdsSlot_setSlot_same {s : State} {i : BitVec 4} (x : Slot) (h : i.toNat < s.nctx) :
    holdsSlot (s.setSlot i x) i x := by
  have h' : i.toNat < s.ctx.length := h
  simp [holdsSlot, List.getElem?_set_self h']

/-- A write leaves every other slot alone. -/
theorem slot_setSlot_other {s : State} {i j : BitVec 4} (x : Slot) (h : i ≠ j) : (s.setSlot i x).slot j = s.slot j := by
  have hne : i.toNat ≠ j.toNat := fun e => h (BitVec.eq_of_toNat_eq e)
  simp [State.slot, List.getD_eq_getElem?_getD, List.getElem?_set_ne hne]

end Sys2Proof.Machine
end

