-- ==== Sys2Proof/Laws/Ops.lean ====
section
/-! SUPPORT. For each shared operation, once, everything it can do; and when it goes on. -/

namespace Sys2Proof.Machine

theorem respond_eq (s : State) (p : Bytes) : respond s p = .next (answered s .ok p) := rfl

theorem respond_setSlot_eq (s : State) (i : BitVec 4) (x : Slot) (p : Bytes) :
    respond (s.setSlot i x) p = .next (answeredWith s i x .ok p) := rfl

theorem raise_eq (s : State) (st : Status) : raise s st = .next (answered s st []) := rfl

/-- What the static stage can do: go on, or answer `IllegalCommand` and change nothing (R79, R340, R341). -/
theorem checked_cases {i : Instr} {s t : State} {k : Result} (h : checked i s k = .next t) :
    (staticOk s.nctx i = true ∧ k = .next t) ∨
    (staticOk s.nctx i = false ∧ t = answered s .illegalCommand []) := by
  unfold checked at h
  split at h
  · exact .inl ⟨‹_›, h⟩
  · rename_i hs
    exact .inr ⟨by simpa using hs, by cases h; rfl⟩

theorem checked_of_staticOk {i : Instr} {s : State} (k : Result) (h : staticOk s.nctx i = true) :
    checked i s k = k := by simp [checked, h]

theorem checked_of_not_staticOk {i : Instr} {s : State} (k : Result) (h : staticOk s.nctx i = false) :
    checked i s k = .next (answered s .illegalCommand []) := by simp [checked, h, raise_eq]

/-- What one check can do: go on, or raise its status and change nothing (R340, R341). -/
theorem require_cases {b : Bool} {st : Status} {s t : State} {k : Result} (h : require b st s k = .next t) :
    (b = true ∧ k = .next t) ∨ (b = false ∧ t = answered s st []) := by
  cases b
  · exact .inr ⟨rfl, by cases h; rfl⟩
  · exact .inl ⟨rfl, h⟩

@[simp] theorem require_true (st : Status) (s : State) (k : Result) : require true st s k = k := rfl

@[simp] theorem require_false (st : Status) (s : State) (k : Result) :
    require false st s k = .next (answered s st []) := rfl

/-- What reading the cipher code can do (R23). -/
theorem withCipher_cases {f : Fields} {s t : State} {k : Cipher → Result} (h : withCipher f s k = .next t) :
    (∃ c, cipherOf f.a = some c ∧ k c = .next t) ∨
    (cipherOf f.a = none ∧ t = answered s .illegalCommand []) := by
  unfold withCipher at h
  split at h
  · exact .inl ⟨_, ‹_›, h⟩
  · exact .inr ⟨‹_›, by cases h; rfl⟩

/-- What the kind check for `BC` can do (R336). -/
theorem withBc_cases {f : Fields} {s t : State} {k : BcCtx → Result} (h : withBc f s k = .next t) :
    (∃ c, s.slot f.ctx = .bc c ∧ k c = .next t) ∨
    ((∀ c, s.slot f.ctx ≠ .bc c) ∧ t = answered s .keyNotSet []) := by
  unfold withBc at h
  split at h
  · exact .inl ⟨_, ‹_›, h⟩
  · exact .inr ⟨by assumption, by cases h; rfl⟩

/-- What the kind check for `CTR` can do (R336). -/
theorem withCtr_cases {f : Fields} {s t : State} {k : CtrCtx → Result} (h : withCtr f s k = .next t) :
    (∃ c, s.slot f.ctx = .ctr c ∧ k c = .next t) ∨
    ((∀ c, s.slot f.ctx ≠ .ctr c) ∧ t = answered s .keyNotSet []) := by
  unfold withCtr at h
  split at h
  · exact .inl ⟨_, ‹_›, h⟩
  · exact .inr ⟨by assumption, by cases h; rfl⟩

/-- What the kind check for `MGM` can do (R336). -/
theorem withMgm_cases {f : Fields} {s t : State} {k : MgmCtx → Result} (h : withMgm f s k = .next t) :
    (∃ m, s.slot f.ctx = .mgm m ∧ k m = .next t) ∨
    ((∀ m, s.slot f.ctx ≠ .mgm m) ∧ t = answered s .keyNotSet []) := by
  unfold withMgm at h
  split at h
  · exact .inl ⟨_, ‹_›, h⟩
  · exact .inr ⟨by assumption, by cases h; rfl⟩

/-- What the kind check for `OMAC` can do (R336). -/
theorem withOmac_cases {f : Fields} {s t : State} {k : OmacCtx → Result} (h : withOmac f s k = .next t) :
    (∃ o, s.slot f.ctx = .omac o ∧ k o = .next t) ∨
    ((∀ o, s.slot f.ctx ≠ .omac o) ∧ t = answered s .macKeyNotSet []) := by
  unfold withOmac at h
  split at h
  · exact .inl ⟨_, ‹_›, h⟩
  · exact .inr ⟨by assumption, by cases h; rfl⟩

/-! ### The kind checks where the slot is known -/

theorem withBc_of_slot {f : Fields} {s : State} {c : BcCtx} (k : BcCtx → Result) (h : s.slot f.ctx = .bc c) :
    withBc f s k = k c := by simp [withBc, h]

theorem withCtr_of_slot {f : Fields} {s : State} {c : CtrCtx} (k : CtrCtx → Result) (h : s.slot f.ctx = .ctr c) :
    withCtr f s k = k c := by simp [withCtr, h]

theorem withMgm_of_slot {f : Fields} {s : State} {m : MgmCtx} (k : MgmCtx → Result) (h : s.slot f.ctx = .mgm m) :
    withMgm f s k = k m := by simp [withMgm, h]

theorem withOmac_of_slot {f : Fields} {s : State} {o : OmacCtx} (k : OmacCtx → Result) (h : s.slot f.ctx = .omac o) :
    withOmac f s k = k o := by simp [withOmac, h]

/-! ### The kind checks where the slot holds another kind -/

theorem slot_ne_of_not_holdsSlot {s : State} {n : BitVec 4} {x : Slot} (hn : n.toNat < s.nctx) (h : ¬ holdsSlot s n x) :
    s.slot n ≠ x := fun e => h (e ▸ holdsSlot_slot hn)

theorem withBc_of_other {f : Fields} {s : State} (k : BcCtx → Result) (hn : f.ctx.toNat < s.nctx)
    (h : ∀ c, ¬ holdsSlot s f.ctx (.bc c)) : withBc f s k = .next (answered s .keyNotSet []) := by
  unfold withBc
  split
  · exact absurd ‹_› (slot_ne_of_not_holdsSlot hn (h _))
  · rfl

theorem withCtr_of_other {f : Fields} {s : State} (k : CtrCtx → Result) (hn : f.ctx.toNat < s.nctx)
    (h : ∀ c, ¬ holdsSlot s f.ctx (.ctr c)) : withCtr f s k = .next (answered s .keyNotSet []) := by
  unfold withCtr
  split
  · exact absurd ‹_› (slot_ne_of_not_holdsSlot hn (h _))
  · rfl

theorem withMgm_of_other {f : Fields} {s : State} (k : MgmCtx → Result) (hn : f.ctx.toNat < s.nctx)
    (h : ∀ c, ¬ holdsSlot s f.ctx (.mgm c)) : withMgm f s k = .next (answered s .keyNotSet []) := by
  unfold withMgm
  split
  · exact absurd ‹_› (slot_ne_of_not_holdsSlot hn (h _))
  · rfl

theorem withOmac_of_other {f : Fields} {s : State} (k : OmacCtx → Result) (hn : f.ctx.toNat < s.nctx)
    (h : ∀ c, ¬ holdsSlot s f.ctx (.omac c)) : withOmac f s k = .next (answered s .macKeyNotSet []) := by
  unfold withOmac
  split
  · exact absurd ‹_› (slot_ne_of_not_holdsSlot hn (h _))
  · rfl

theorem withCipher_of_code {f : Fields} {s : State} {c : Cipher} (k : Cipher → Result) (h : f.a.toNat = cipherCode c) :
    withCipher f s k = k c := by
  have ha : cipherOf f.a = some c := by
    cases c
    · have : f.a = 0 := BitVec.eq_of_toNat_eq h
      rw [this]; rfl
    · have : f.a = 1 := BitVec.eq_of_toNat_eq h
      rw [this]; rfl
  simp [withCipher, ha]

/-- The code of a cipher reads back as that cipher (R5). -/
theorem cipherOf_of_code {a : BitVec 4} {c : Cipher} (h : a.toNat = cipherCode c) : cipherOf a = some c := by
  cases c
  · have : a = 0 := BitVec.eq_of_toNat_eq h
    rw [this]; rfl
  · have : a = 1 := BitVec.eq_of_toNat_eq h
    rw [this]; rfl

theorem cipherOf_eq_some {a : BitVec 4} {c : Cipher} (h : cipherOf a = some c) : a.toNat = cipherCode c := by
  unfold cipherOf at h
  split at h
  · cases h; rename_i h0; rw [h0]; rfl
  · split at h
    · cases h; rename_i h1; rw [h1]; rfl
    · cases h

end Sys2Proof.Machine
end

