-- ==== Sys2Proof/Laws/Static.lean ====
section
/-! SUPPORT. When the static checks pass, by the shape of a command's row in the opcode map (R76, R79). -/

namespace Sys2Proof.Machine

/-- The commands on a slot with a payload of any length, or of a length the context decides. -/
theorem staticOk_slot {nctx : Nat} {i : Instr} (hr : rowOf i = ⟨true, .zero, false, none⟩) (hs : sectionsOk i = true)
    (hc : i.fields.ctx.toNat < nctx) (h0 : noOperands i.fields) : staticOk nctx i = true := by
  obtain ⟨ha, hi⟩ := h0
  simp [staticOk, hr, hs, ctxOk, aOk, immOk, plenOk, hc, ha, hi]

/-- The commands on a slot with a payload of a fixed length. -/
theorem staticOk_slot_fixed {nctx n : Nat} {i : Instr} (hr : rowOf i = ⟨true, .zero, false, some n⟩)
    (hs : sectionsOk i = true) (hc : i.fields.ctx.toNat < nctx) (h0 : noOperands i.fields) (hp : i.fields.plen = n) :
    staticOk nctx i = true := by
  obtain ⟨ha, hi⟩ := h0
  simp only [Fields.plen] at hp
  simp [staticOk, hr, hs, ctxOk, aOk, immOk, plenOk, hc, ha, hi, hp]

/-- The commands on a slot with a length operand in `IMM`. -/
theorem staticOk_slot_imm {nctx : Nat} {i : Instr} (hr : rowOf i = ⟨true, .zero, true, some 0⟩)
    (hs : sectionsOk i = true) (hc : i.fields.ctx.toNat < nctx) (ha : i.fields.a = 0) (hp : i.fields.payload = []) :
    staticOk nctx i = true := by
  simp [staticOk, hr, hs, ctxOk, aOk, immOk, plenOk, hc, ha, hp]

/-- The creating commands. -/
theorem staticOk_create {s : State} {n : Nat} {c : Cipher} {i : Instr} (hr : rowOf i = ⟨true, .cipher, false, some n⟩)
    (hs : sectionsOk i = true) (h : createsForm s i.fields c n) : staticOk s.nctx i = true := by
  obtain ⟨hc, ha, hi, hp⟩ := h
  have hc' : i.fields.ctx.toNat < s.nctx := hc
  have ha' : i.fields.a.toNat ≤ 1 := by rw [ha]; cases c <;> decide
  simp [staticOk, hr, hs, ctxOk, aOk, immOk, plenOk, hc', ha', hi, hp]

/-- The commands that name no slot. -/
theorem staticOk_noSlot {nctx n : Nat} {i : Instr} (hr : rowOf i = ⟨false, .zero, false, some n⟩)
    (hs : sectionsOk i = true) (hc : i.fields.ctx = 0) (h0 : noOperands i.fields) (hp : i.fields.plen = n) :
    staticOk nctx i = true := by
  obtain ⟨ha, hi⟩ := h0
  simp only [Fields.plen] at hp
  simp [staticOk, hr, hs, ctxOk, aOk, immOk, plenOk, hc, ha, hi, hp]

/-- Past the static checks a command that names a slot names one inside the slot file. -/
theorem ctx_lt_of_staticOk {nctx : Nat} {i : Instr} (hr : (rowOf i).usesSlot = true) (h : staticOk nctx i = true) :
    i.fields.ctx.toNat < nctx := by
  simp only [staticOk, ctxOk, hr, if_true, Bool.and_eq_true, decide_eq_true_eq] at h
  exact h.1.1.1.1

end Sys2Proof.Machine
end

