-- ==== Sys2Proof/Laws/Exec.lean ====
section
/-! SUPPORT. Every command as one: the only two shapes a result can have. -/

namespace Sys2Proof.Machine

/-- Whatever the command and the state, the result is a next state: either nothing but a response was added, or the
slot the command names, which is inside the slot file, was replaced besides, and then the command is not one that only reads. -/
theorem exec_shape (i : Instr) (s : State) :
    ∃ st p, exec i s = .next (answered s st p) ∨
      ∃ x, exec i s = .next (answeredWith s i.fields.ctx x st p) ∧ readsOnly i = false ∧ i.fields.ctx.toNat < s.nctx := by
  by_cases hs : staticOk s.nctx i = true
  swap
  · have hs' : staticOk s.nctx i = false := by simpa using hs
    refine ⟨.illegalCommand, [], .inl ?_⟩
    cases i <;> exact checked_of_not_staticOk _ hs'
  cases i
  all_goals simp only [exec, execNop, execBcSetkey, execBcEnc, execBcDec, execGfMul64, execGfMul128, execCtrSetkey,
    execCtrSetiv, execCtrSection, execCtrCrypt, execAcpkmMesh, execMgmInit, execMgmSetiv, execMgmTaglen, execMgmAad,
    execMgmEnc, execMgmDec, execMgmFinish, execMgmVerify, execOmacInit, execOmacInita, execOmacMaclen, execOmacUpdate,
    execOmacFinal, execCtxClone, execCtxDestroy, execCtxQuery, checked_of_staticOk _ hs, mgmDataCommand, withCipher,
    withBc, withCtr, withMgm, withOmac]
  all_goals (try have hc := ctx_lt_of_staticOk rfl hs)
  all_goals repeat' split
  all_goals try unfold require
  all_goals repeat' split
  all_goals first
    | exact ⟨_, _, .inl rfl⟩
    | exact ⟨_, _, .inr ⟨_, rfl, rfl, hc⟩⟩

/-- What a result depends on: the parameters, the number of slots, the slot the command names, and for `CTX.CLONE` its
source. Two states that agree on these get the same response, and the same new record in the slot. -/
theorem exec_congr (i : Instr) (s u : State) (hcfg : u.cfg = s.cfg) (hn : u.nctx = s.nctx)
    (hslot : u.slot i.fields.ctx = s.slot i.fields.ctx)
    (hsrc : ∀ f, i = .ctxClone f → u.slot f.a = s.slot f.a) :
    ∃ st p, (exec i s = .next (answered s st p) ∧ exec i u = .next (answered u st p)) ∨
      ∃ x, exec i s = .next (answeredWith s i.fields.ctx x st p) ∧
        exec i u = .next (answeredWith u i.fields.ctx x st p) := by
  by_cases hs : staticOk s.nctx i = true
  swap
  · have hs' : staticOk s.nctx i = false := by simpa using hs
    have hu' : staticOk u.nctx i = false := by rw [hn]; exact hs'
    refine ⟨.illegalCommand, [], .inl ⟨?_, ?_⟩⟩
    · cases i <;> exact checked_of_not_staticOk _ hs'
    · cases i <;> exact checked_of_not_staticOk _ hu'
  have hu : staticOk u.nctx i = true := by rw [hn]; exact hs
  cases i
  all_goals simp only [exec, execNop, execBcSetkey, execBcEnc, execBcDec, execGfMul64, execGfMul128, execCtrSetkey,
    execCtrSetiv, execCtrSection, execCtrCrypt, execAcpkmMesh, execMgmInit, execMgmSetiv, execMgmTaglen, execMgmAad,
    execMgmEnc, execMgmDec, execMgmFinish, execMgmVerify, execOmacInit, execOmacInita, execOmacMaclen, execOmacUpdate,
    execOmacFinal, execCtxClone, execCtxDestroy, execCtxQuery, checked_of_staticOk _ hs, checked_of_staticOk _ hu,
    mgmDataCommand, withCipher, withBc, withCtr, withMgm, withOmac, hcfg]
  all_goals simp only [Instr.fields] at hslot
  all_goals (try simp only [hslot])
  all_goals (try (have hsrc' := hsrc _ rfl; simp only [hsrc']))
  all_goals repeat' split
  all_goals try unfold require
  all_goals repeat' split
  all_goals first
    | exact ⟨_, _, .inl ⟨rfl, rfl⟩⟩
    | exact ⟨_, _, .inr ⟨_, rfl, rfl⟩⟩

end Sys2Proof.Machine
end

