-- ==== Sys2Proof/Laws/Flags.lean ====
section
/-! SUPPORT. What each check of a command says (R142, R181, R190, R192, R242, R249). -/

namespace Sys2Proof.Machine

theorem lenOk_iff (c : Cipher) (n : Nat) : lenOk c n = true ↔ 1 ≤ n ∧ n ≤ bs c := by simp [lenOk]

theorem lenOk_eq_false_iff (c : Cipher) (n : Nat) : lenOk c n = false ↔ n < 1 ∨ bs c < n := by
  rw [← Bool.not_eq_true, lenOk_iff]
  omega

theorem mgmFits_iff (c : Cipher) (n : BitVec 64) (k : Nat) : mgmFits c n k = true ↔ n.toNat + k ≤ mgmLimit c := by
  simp [mgmFits]

theorem mgmFits_eq_false_iff (c : Cipher) (n : BitVec 64) (k : Nat) :
    mgmFits c n k = false ↔ mgmLimit c < n.toNat + k := by
  rw [← Bool.not_eq_true, mgmFits_iff]
  omega

theorem ctrStreams_iff (c : CtrCtx) : ctrStreams c = true ↔ c.phase = .ivSet := by simp [ctrStreams]

theorem mgmTaglenPhase_iff (m : MgmCtx) : mgmTaglenPhase m = true ↔ m.phase ≠ .finalized := by simp [mgmTaglenPhase]

theorem mgmAadPhase_iff (m : MgmCtx) : mgmAadPhase m = true ↔ m.phase = .ivSet ∨ m.phase = .processingAad := by
  simp [mgmAadPhase]

theorem mgmDataPhase_iff (m : MgmCtx) : mgmDataPhase m = true ↔ m.phase ≠ .keySet ∧ m.phase ≠ .finalized := by
  cases h : m.phase <;> simp [mgmDataPhase, h]

theorem mgmDirOk_iff (m : MgmCtx) (d : Dir) : mgmDirOk m d = true ↔ m.dir = .none ∨ m.dir = d := by simp [mgmDirOk]

theorem mgmEndPhase_iff (m : MgmCtx) (d : Dir) :
    mgmEndPhase m d = true ↔ (m.phase = .processingAad ∨ m.phase = .processingData) ∧ m.dir ≠ d := by
  simp [mgmEndPhase]

theorem omacOpen_iff (o : OmacCtx) : omacOpen o = true ↔ o.phase ≠ .finalized := by simp [omacOpen]

end Sys2Proof.Machine
end

