-- ==== Sys2Proof/Laws/Mgm.lean ====
section
/-! SUPPORT. The building blocks of the MGM engine: which fields each touches, cutting a payload, and what the byte
loops keep. -/

namespace Sys2Proof.Machine

/-! ### What `mgmFold` leaves alone -/

@[simp] theorem mgmFold_cipher (cfg : Config) (m : MgmCtx) (x : Bytes) : (mgmFold cfg m x).cipher = m.cipher := rfl
@[simp] theorem mgmFold_key (cfg : Config) (m : MgmCtx) (x : Bytes) : (mgmFold cfg m x).key = m.key := rfl
@[simp] theorem mgmFold_phase (cfg : Config) (m : MgmCtx) (x : Bytes) : (mgmFold cfg m x).phase = m.phase := rfl
@[simp] theorem mgmFold_dir (cfg : Config) (m : MgmCtx) (x : Bytes) : (mgmFold cfg m x).dir = m.dir := rfl
@[simp] theorem mgmFold_taglen (cfg : Config) (m : MgmCtx) (x : Bytes) : (mgmFold cfg m x).taglen = m.taglen := rfl
@[simp] theorem mgmFold_nonce (cfg : Config) (m : MgmCtx) (x : Bytes) : (mgmFold cfg m x).nonce = m.nonce := rfl
@[simp] theorem mgmFold_y (cfg : Config) (m : MgmCtx) (x : Bytes) : (mgmFold cfg m x).y = m.y := rfl
@[simp] theorem mgmFold_aLen (cfg : Config) (m : MgmCtx) (x : Bytes) : (mgmFold cfg m x).aLen = m.aLen := rfl
@[simp] theorem mgmFold_cLen (cfg : Config) (m : MgmCtx) (x : Bytes) : (mgmFold cfg m x).cLen = m.cLen := rfl
@[simp] theorem mgmFold_ares (cfg : Config) (m : MgmCtx) (x : Bytes) : (mgmFold cfg m x).ares = m.ares := rfl
@[simp] theorem mgmFold_mres (cfg : Config) (m : MgmCtx) (x : Bytes) : (mgmFold cfg m x).mres = m.mres := rfl
@[simp] theorem mgmFold_abuf (cfg : Config) (m : MgmCtx) (x : Bytes) : (mgmFold cfg m x).abuf = m.abuf := rfl
@[simp] theorem mgmFold_cbuf (cfg : Config) (m : MgmCtx) (x : Bytes) : (mgmFold cfg m x).cbuf = m.cbuf := rfl
@[simp] theorem mgmFold_ks (cfg : Config) (m : MgmCtx) (x : Bytes) : (mgmFold cfg m x).ks = m.ks := rfl
@[simp] theorem mgmFold_tag (cfg : Config) (m : MgmCtx) (x : Bytes) : (mgmFold cfg m x).tag = m.tag := rfl

/-! ### What `mgmFlushAad` leaves alone -/

@[simp] theorem mgmFlushAad_cipher (cfg : Config) (m : MgmCtx) : (mgmFlushAad cfg m).cipher = m.cipher := by unfold mgmFlushAad; split <;> rfl
@[simp] theorem mgmFlushAad_key (cfg : Config) (m : MgmCtx) : (mgmFlushAad cfg m).key = m.key := by unfold mgmFlushAad; split <;> rfl
@[simp] theorem mgmFlushAad_phase (cfg : Config) (m : MgmCtx) : (mgmFlushAad cfg m).phase = m.phase := by unfold mgmFlushAad; split <;> rfl
@[simp] theorem mgmFlushAad_dir (cfg : Config) (m : MgmCtx) : (mgmFlushAad cfg m).dir = m.dir := by unfold mgmFlushAad; split <;> rfl
@[simp] theorem mgmFlushAad_taglen (cfg : Config) (m : MgmCtx) : (mgmFlushAad cfg m).taglen = m.taglen := by unfold mgmFlushAad; split <;> rfl
@[simp] theorem mgmFlushAad_nonce (cfg : Config) (m : MgmCtx) : (mgmFlushAad cfg m).nonce = m.nonce := by unfold mgmFlushAad; split <;> rfl
@[simp] theorem mgmFlushAad_y (cfg : Config) (m : MgmCtx) : (mgmFlushAad cfg m).y = m.y := by unfold mgmFlushAad; split <;> rfl
@[simp] theorem mgmFlushAad_aLen (cfg : Config) (m : MgmCtx) : (mgmFlushAad cfg m).aLen = m.aLen := by unfold mgmFlushAad; split <;> rfl
@[simp] theorem mgmFlushAad_cLen (cfg : Config) (m : MgmCtx) : (mgmFlushAad cfg m).cLen = m.cLen := by unfold mgmFlushAad; split <;> rfl
@[simp] theorem mgmFlushAad_mres (cfg : Config) (m : MgmCtx) : (mgmFlushAad cfg m).mres = m.mres := by unfold mgmFlushAad; split <;> rfl
@[simp] theorem mgmFlushAad_cbuf (cfg : Config) (m : MgmCtx) : (mgmFlushAad cfg m).cbuf = m.cbuf := by unfold mgmFlushAad; split <;> rfl
@[simp] theorem mgmFlushAad_ks (cfg : Config) (m : MgmCtx) : (mgmFlushAad cfg m).ks = m.ks := by unfold mgmFlushAad; split <;> rfl
@[simp] theorem mgmFlushAad_tag (cfg : Config) (m : MgmCtx) : (mgmFlushAad cfg m).tag = m.tag := by unfold mgmFlushAad; split <;> rfl

/-! ### What `mgmFlushData` leaves alone -/

@[simp] theorem mgmFlushData_cipher (cfg : Config) (m : MgmCtx) : (mgmFlushData cfg m).cipher = m.cipher := by unfold mgmFlushData; split <;> rfl
@[simp] theorem mgmFlushData_key (cfg : Config) (m : MgmCtx) : (mgmFlushData cfg m).key = m.key := by unfold mgmFlushData; split <;> rfl
@[simp] theorem mgmFlushData_phase (cfg : Config) (m : MgmCtx) : (mgmFlushData cfg m).phase = m.phase := by unfold mgmFlushData; split <;> rfl
@[simp] theorem mgmFlushData_dir (cfg : Config) (m : MgmCtx) : (mgmFlushData cfg m).dir = m.dir := by unfold mgmFlushData; split <;> rfl
@[simp] theorem mgmFlushData_taglen (cfg : Config) (m : MgmCtx) : (mgmFlushData cfg m).taglen = m.taglen := by unfold mgmFlushData; split <;> rfl
@[simp] theorem mgmFlushData_nonce (cfg : Config) (m : MgmCtx) : (mgmFlushData cfg m).nonce = m.nonce := by unfold mgmFlushData; split <;> rfl
@[simp] theorem mgmFlushData_y (cfg : Config) (m : MgmCtx) : (mgmFlushData cfg m).y = m.y := by unfold mgmFlushData; split <;> rfl
@[simp] theorem mgmFlushData_aLen (cfg : Config) (m : MgmCtx) : (mgmFlushData cfg m).aLen = m.aLen := by unfold mgmFlushData; split <;> rfl
@[simp] theorem mgmFlushData_cLen (cfg : Config) (m : MgmCtx) : (mgmFlushData cfg m).cLen = m.cLen := by unfold mgmFlushData; split <;> rfl
@[simp] theorem mgmFlushData_ares (cfg : Config) (m : MgmCtx) : (mgmFlushData cfg m).ares = m.ares := by unfold mgmFlushData; split <;> rfl
@[simp] theorem mgmFlushData_abuf (cfg : Config) (m : MgmCtx) : (mgmFlushData cfg m).abuf = m.abuf := by unfold mgmFlushData; split <;> rfl
@[simp] theorem mgmFlushData_ks (cfg : Config) (m : MgmCtx) : (mgmFlushData cfg m).ks = m.ks := by unfold mgmFlushData; split <;> rfl
@[simp] theorem mgmFlushData_tag (cfg : Config) (m : MgmCtx) : (mgmFlushData cfg m).tag = m.tag := by unfold mgmFlushData; split <;> rfl

/-! ### What `mgmStartZ` leaves alone -/

@[simp] theorem mgmStartZ_cipher (cfg : Config) (m : MgmCtx) : (mgmStartZ cfg m).cipher = m.cipher := by unfold mgmStartZ; split <;> rfl
@[simp] theorem mgmStartZ_key (cfg : Config) (m : MgmCtx) : (mgmStartZ cfg m).key = m.key := by unfold mgmStartZ; split <;> rfl
@[simp] theorem mgmStartZ_phase (cfg : Config) (m : MgmCtx) : (mgmStartZ cfg m).phase = m.phase := by unfold mgmStartZ; split <;> rfl
@[simp] theorem mgmStartZ_dir (cfg : Config) (m : MgmCtx) : (mgmStartZ cfg m).dir = m.dir := by unfold mgmStartZ; split <;> rfl
@[simp] theorem mgmStartZ_taglen (cfg : Config) (m : MgmCtx) : (mgmStartZ cfg m).taglen = m.taglen := by unfold mgmStartZ; split <;> rfl
@[simp] theorem mgmStartZ_nonce (cfg : Config) (m : MgmCtx) : (mgmStartZ cfg m).nonce = m.nonce := by unfold mgmStartZ; split <;> rfl
@[simp] theorem mgmStartZ_y (cfg : Config) (m : MgmCtx) : (mgmStartZ cfg m).y = m.y := by unfold mgmStartZ; split <;> rfl
@[simp] theorem mgmStartZ_sum (cfg : Config) (m : MgmCtx) : (mgmStartZ cfg m).sum = m.sum := by unfold mgmStartZ; split <;> rfl
@[simp] theorem mgmStartZ_aLen (cfg : Config) (m : MgmCtx) : (mgmStartZ cfg m).aLen = m.aLen := by unfold mgmStartZ; split <;> rfl
@[simp] theorem mgmStartZ_cLen (cfg : Config) (m : MgmCtx) : (mgmStartZ cfg m).cLen = m.cLen := by unfold mgmStartZ; split <;> rfl
@[simp] theorem mgmStartZ_ares (cfg : Config) (m : MgmCtx) : (mgmStartZ cfg m).ares = m.ares := by unfold mgmStartZ; split <;> rfl
@[simp] theorem mgmStartZ_mres (cfg : Config) (m : MgmCtx) : (mgmStartZ cfg m).mres = m.mres := by unfold mgmStartZ; split <;> rfl
@[simp] theorem mgmStartZ_abuf (cfg : Config) (m : MgmCtx) : (mgmStartZ cfg m).abuf = m.abuf := by unfold mgmStartZ; split <;> rfl
@[simp] theorem mgmStartZ_cbuf (cfg : Config) (m : MgmCtx) : (mgmStartZ cfg m).cbuf = m.cbuf := by unfold mgmStartZ; split <;> rfl
@[simp] theorem mgmStartZ_ks (cfg : Config) (m : MgmCtx) : (mgmStartZ cfg m).ks = m.ks := by unfold mgmStartZ; split <;> rfl
@[simp] theorem mgmStartZ_tag (cfg : Config) (m : MgmCtx) : (mgmStartZ cfg m).tag = m.tag := by unfold mgmStartZ; split <;> rfl

/-! ### What `mgmAadByte` leaves alone -/

@[simp] theorem mgmAadByte_cipher (cfg : Config) (m : MgmCtx) (b : Byte) : (mgmAadByte cfg m b).cipher = m.cipher := by unfold mgmAadByte; dsimp only; split <;> rfl
@[simp] theorem mgmAadByte_key (cfg : Config) (m : MgmCtx) (b : Byte) : (mgmAadByte cfg m b).key = m.key := by unfold mgmAadByte; dsimp only; split <;> rfl
@[simp] theorem mgmAadByte_phase (cfg : Config) (m : MgmCtx) (b : Byte) : (mgmAadByte cfg m b).phase = m.phase := by unfold mgmAadByte; dsimp only; split <;> rfl
@[simp] theorem mgmAadByte_dir (cfg : Config) (m : MgmCtx) (b : Byte) : (mgmAadByte cfg m b).dir = m.dir := by unfold mgmAadByte; dsimp only; split <;> rfl
@[simp] theorem mgmAadByte_taglen (cfg : Config) (m : MgmCtx) (b : Byte) : (mgmAadByte cfg m b).taglen = m.taglen := by unfold mgmAadByte; dsimp only; split <;> rfl
@[simp] theorem mgmAadByte_nonce (cfg : Config) (m : MgmCtx) (b : Byte) : (mgmAadByte cfg m b).nonce = m.nonce := by unfold mgmAadByte; dsimp only; split <;> rfl
@[simp] theorem mgmAadByte_y (cfg : Config) (m : MgmCtx) (b : Byte) : (mgmAadByte cfg m b).y = m.y := by unfold mgmAadByte; dsimp only; split <;> rfl
@[simp] theorem mgmAadByte_aLen (cfg : Config) (m : MgmCtx) (b : Byte) : (mgmAadByte cfg m b).aLen = m.aLen := by unfold mgmAadByte; dsimp only; split <;> rfl
@[simp] theorem mgmAadByte_cLen (cfg : Config) (m : MgmCtx) (b : Byte) : (mgmAadByte cfg m b).cLen = m.cLen := by unfold mgmAadByte; dsimp only; split <;> rfl
@[simp] theorem mgmAadByte_mres (cfg : Config) (m : MgmCtx) (b : Byte) : (mgmAadByte cfg m b).mres = m.mres := by unfold mgmAadByte; dsimp only; split <;> rfl
@[simp] theorem mgmAadByte_cbuf (cfg : Config) (m : MgmCtx) (b : Byte) : (mgmAadByte cfg m b).cbuf = m.cbuf := by unfold mgmAadByte; dsimp only; split <;> rfl
@[simp] theorem mgmAadByte_ks (cfg : Config) (m : MgmCtx) (b : Byte) : (mgmAadByte cfg m b).ks = m.ks := by unfold mgmAadByte; dsimp only; split <;> rfl
@[simp] theorem mgmAadByte_tag (cfg : Config) (m : MgmCtx) (b : Byte) : (mgmAadByte cfg m b).tag = m.tag := by unfold mgmAadByte; dsimp only; split <;> rfl

/-! ### What `mgmReady` leaves alone -/

@[simp] theorem mgmReady_cipher (cfg : Config) (m : MgmCtx) : (mgmReady cfg m).cipher = m.cipher := by unfold mgmReady; split <;> rfl
@[simp] theorem mgmReady_key (cfg : Config) (m : MgmCtx) : (mgmReady cfg m).key = m.key := by unfold mgmReady; split <;> rfl
@[simp] theorem mgmReady_phase (cfg : Config) (m : MgmCtx) : (mgmReady cfg m).phase = m.phase := by unfold mgmReady; split <;> rfl
@[simp] theorem mgmReady_dir (cfg : Config) (m : MgmCtx) : (mgmReady cfg m).dir = m.dir := by unfold mgmReady; split <;> rfl
@[simp] theorem mgmReady_taglen (cfg : Config) (m : MgmCtx) : (mgmReady cfg m).taglen = m.taglen := by unfold mgmReady; split <;> rfl
@[simp] theorem mgmReady_nonce (cfg : Config) (m : MgmCtx) : (mgmReady cfg m).nonce = m.nonce := by unfold mgmReady; split <;> rfl
@[simp] theorem mgmReady_z (cfg : Config) (m : MgmCtx) : (mgmReady cfg m).z = m.z := by unfold mgmReady; split <;> rfl
@[simp] theorem mgmReady_sum (cfg : Config) (m : MgmCtx) : (mgmReady cfg m).sum = m.sum := by unfold mgmReady; split <;> rfl
@[simp] theorem mgmReady_aLen (cfg : Config) (m : MgmCtx) : (mgmReady cfg m).aLen = m.aLen := by unfold mgmReady; split <;> rfl
@[simp] theorem mgmReady_cLen (cfg : Config) (m : MgmCtx) : (mgmReady cfg m).cLen = m.cLen := by unfold mgmReady; split <;> rfl
@[simp] theorem mgmReady_ares (cfg : Config) (m : MgmCtx) : (mgmReady cfg m).ares = m.ares := by unfold mgmReady; split <;> rfl
@[simp] theorem mgmReady_mres (cfg : Config) (m : MgmCtx) : (mgmReady cfg m).mres = m.mres := by unfold mgmReady; split <;> rfl
@[simp] theorem mgmReady_abuf (cfg : Config) (m : MgmCtx) : (mgmReady cfg m).abuf = m.abuf := by unfold mgmReady; split <;> rfl
@[simp] theorem mgmReady_cbuf (cfg : Config) (m : MgmCtx) : (mgmReady cfg m).cbuf = m.cbuf := by unfold mgmReady; split <;> rfl
@[simp] theorem mgmReady_tag (cfg : Config) (m : MgmCtx) : (mgmReady cfg m).tag = m.tag := by unfold mgmReady; split <;> rfl

/-! ### What `mgmOpenData` leaves alone -/

@[simp] theorem mgmOpenData_cipher (cfg : Config) (m : MgmCtx) (d : Dir) : (mgmOpenData cfg m d).cipher = m.cipher := by unfold mgmOpenData; split <;> simp
@[simp] theorem mgmOpenData_key (cfg : Config) (m : MgmCtx) (d : Dir) : (mgmOpenData cfg m d).key = m.key := by unfold mgmOpenData; split <;> simp
@[simp] theorem mgmOpenData_taglen (cfg : Config) (m : MgmCtx) (d : Dir) : (mgmOpenData cfg m d).taglen = m.taglen := by unfold mgmOpenData; split <;> simp
@[simp] theorem mgmOpenData_nonce (cfg : Config) (m : MgmCtx) (d : Dir) : (mgmOpenData cfg m d).nonce = m.nonce := by unfold mgmOpenData; split <;> simp
@[simp] theorem mgmOpenData_aLen (cfg : Config) (m : MgmCtx) (d : Dir) : (mgmOpenData cfg m d).aLen = m.aLen := by unfold mgmOpenData; split <;> simp
@[simp] theorem mgmOpenData_cLen (cfg : Config) (m : MgmCtx) (d : Dir) : (mgmOpenData cfg m d).cLen = m.cLen := by unfold mgmOpenData; split <;> simp
@[simp] theorem mgmOpenData_mres (cfg : Config) (m : MgmCtx) (d : Dir) : (mgmOpenData cfg m d).mres = m.mres := by unfold mgmOpenData; split <;> simp
@[simp] theorem mgmOpenData_cbuf (cfg : Config) (m : MgmCtx) (d : Dir) : (mgmOpenData cfg m d).cbuf = m.cbuf := by unfold mgmOpenData; split <;> simp
@[simp] theorem mgmOpenData_ks (cfg : Config) (m : MgmCtx) (d : Dir) : (mgmOpenData cfg m d).ks = m.ks := by unfold mgmOpenData; split <;> simp
@[simp] theorem mgmOpenData_tag (cfg : Config) (m : MgmCtx) (d : Dir) : (mgmOpenData cfg m d).tag = m.tag := by unfold mgmOpenData; split <;> simp
/-! ### What `mgmOpenAad` leaves alone -/

@[simp] theorem mgmOpenAad_cipher (cfg : Config) (m : MgmCtx) : (mgmOpenAad cfg m).cipher = m.cipher := by simp [mgmOpenAad]
@[simp] theorem mgmOpenAad_key (cfg : Config) (m : MgmCtx) : (mgmOpenAad cfg m).key = m.key := by simp [mgmOpenAad]
@[simp] theorem mgmOpenAad_dir (cfg : Config) (m : MgmCtx) : (mgmOpenAad cfg m).dir = m.dir := by simp [mgmOpenAad]
@[simp] theorem mgmOpenAad_taglen (cfg : Config) (m : MgmCtx) : (mgmOpenAad cfg m).taglen = m.taglen := by simp [mgmOpenAad]
@[simp] theorem mgmOpenAad_nonce (cfg : Config) (m : MgmCtx) : (mgmOpenAad cfg m).nonce = m.nonce := by simp [mgmOpenAad]
@[simp] theorem mgmOpenAad_y (cfg : Config) (m : MgmCtx) : (mgmOpenAad cfg m).y = m.y := by simp [mgmOpenAad]
@[simp] theorem mgmOpenAad_sum (cfg : Config) (m : MgmCtx) : (mgmOpenAad cfg m).sum = m.sum := by simp [mgmOpenAad]
@[simp] theorem mgmOpenAad_aLen (cfg : Config) (m : MgmCtx) : (mgmOpenAad cfg m).aLen = m.aLen := by simp [mgmOpenAad]
@[simp] theorem mgmOpenAad_cLen (cfg : Config) (m : MgmCtx) : (mgmOpenAad cfg m).cLen = m.cLen := by simp [mgmOpenAad]
@[simp] theorem mgmOpenAad_ares (cfg : Config) (m : MgmCtx) : (mgmOpenAad cfg m).ares = m.ares := by simp [mgmOpenAad]
@[simp] theorem mgmOpenAad_mres (cfg : Config) (m : MgmCtx) : (mgmOpenAad cfg m).mres = m.mres := by simp [mgmOpenAad]
@[simp] theorem mgmOpenAad_abuf (cfg : Config) (m : MgmCtx) : (mgmOpenAad cfg m).abuf = m.abuf := by simp [mgmOpenAad]
@[simp] theorem mgmOpenAad_cbuf (cfg : Config) (m : MgmCtx) : (mgmOpenAad cfg m).cbuf = m.cbuf := by simp [mgmOpenAad]
@[simp] theorem mgmOpenAad_ks (cfg : Config) (m : MgmCtx) : (mgmOpenAad cfg m).ks = m.ks := by simp [mgmOpenAad]
@[simp] theorem mgmOpenAad_tag (cfg : Config) (m : MgmCtx) : (mgmOpenAad cfg m).tag = m.tag := by simp [mgmOpenAad]
@[simp] theorem mgmOpenAad_phase (cfg : Config) (m : MgmCtx) : (mgmOpenAad cfg m).phase = .processingAad := rfl

@[simp] theorem mgmFold_sum (cfg : Config) (m : MgmCtx) (x : Bytes) :
    (mgmFold cfg m x).sum = xorB m.sum (gfMul m.cipher (mgmE cfg m m.z) x) := rfl
@[simp] theorem mgmFold_z (cfg : Config) (m : MgmCtx) (x : Bytes) : (mgmFold cfg m x).z = incrL m.z := rfl

@[simp] theorem length_mgmE (cfg : Config) (m : MgmCtx) (x : Bytes) : (mgmE cfg m x).length = bs m.cipher := by
  simp [mgmE]

/-! ### The associated data loop -/

/-- The loop of R186 leaves alone every field but `Z`, `sum`, `ares` and `abuf`. -/
theorem mgmAadFold_frame (cfg : Config) (p : Bytes) (m : MgmCtx) :
    let r := p.foldl (mgmAadByte cfg) m
    r.cipher = m.cipher ∧ r.key = m.key ∧ r.phase = m.phase ∧ r.dir = m.dir ∧ r.taglen = m.taglen ∧
    r.nonce = m.nonce ∧ r.y = m.y ∧ r.aLen = m.aLen ∧ r.cLen = m.cLen ∧ r.mres = m.mres ∧ r.cbuf = m.cbuf ∧
    r.ks = m.ks ∧ r.tag = m.tag := by
  induction p generalizing m with
  | nil => simp
  | cons b r ih => simpa using ih (mgmAadByte cfg m b)

/-- The loop of R186 does not read the length counter. -/
theorem mgmAadByte_aLen_comm (cfg : Config) (m : MgmCtx) (n : BitVec 64) (b : Byte) :
    mgmAadByte cfg { m with aLen := n } b = { mgmAadByte cfg m b with aLen := n } := by
  unfold mgmAadByte
  dsimp only
  split <;> rfl

theorem mgmAadFold_aLen_comm (cfg : Config) (p : Bytes) (m : MgmCtx) (n : BitVec 64) :
    p.foldl (mgmAadByte cfg) { m with aLen := n } = { p.foldl (mgmAadByte cfg) m with aLen := n } := by
  induction p generalizing m with
  | nil => rfl
  | cons b r ih => simp only [List.foldl_cons, mgmAadByte_aLen_comm, ih]

/-- Opening the associated data a second time changes nothing (R186). -/
theorem mgmOpenAad_of_phase (cfg : Config) {m : MgmCtx} (h : m.phase = .processingAad) : mgmOpenAad cfg m = m := by
  simp [mgmOpenAad, mgmStartZ, h]
  cases m
  simp_all

/-! ### The data loop -/

@[simp] theorem mgmDataBytes_nil (cfg : Config) (d : Dir) (m : MgmCtx) : mgmDataBytes cfg d m [] = ([], m) := rfl

theorem mgmDataBytes_cons (cfg : Config) (d : Dir) (m : MgmCtx) (b : Byte) (r : Bytes) :
    mgmDataBytes cfg d m (b :: r) =
      ((mgmDataByte cfg d m b).1 :: (mgmDataBytes cfg d (mgmDataByte cfg d m b).2 r).1,
        (mgmDataBytes cfg d (mgmDataByte cfg d m b).2 r).2) := rfl

/-- As many bytes out as in (R187). -/
@[simp] theorem length_mgmDataBytes (cfg : Config) (d : Dir) (m : MgmCtx) (p : Bytes) :
    (mgmDataBytes cfg d m p).1.length = p.length := by
  induction p generalizing m with
  | nil => rfl
  | cons b r ih => simp [mgmDataBytes_cons, ih]

@[simp] theorem length_mgmData (cfg : Config) (m : MgmCtx) (p : Bytes) (d : Dir) :
    (mgmData cfg m p d).1.length = p.length := by simp [mgmData]

/-- Two runs of the data loop one after the other are one run over the bytes together. -/
theorem mgmDataBytes_append (cfg : Config) (d : Dir) (m : MgmCtx) (p q : Bytes) :
    mgmDataBytes cfg d m (p ++ q) =
      ((mgmDataBytes cfg d m p).1 ++ (mgmDataBytes cfg d (mgmDataBytes cfg d m p).2 q).1,
        (mgmDataBytes cfg d (mgmDataBytes cfg d m p).2 q).2) := by
  induction p generalizing m with
  | nil => simp
  | cons b r ih => simp [mgmDataBytes_cons, ih]

/-- The loop of R187 leaves alone every field but `Z`, `Y`, `sum`, `mres`, `cbuf` and `ks`. -/
theorem mgmDataByte_frame (cfg : Config) (d : Dir) (m : MgmCtx) (b : Byte) :
    let r := (mgmDataByte cfg d m b).2
    r.cipher = m.cipher ∧ r.key = m.key ∧ r.phase = m.phase ∧ r.dir = m.dir ∧ r.taglen = m.taglen ∧
    r.nonce = m.nonce ∧ r.aLen = m.aLen ∧ r.cLen = m.cLen ∧ r.ares = m.ares ∧ r.abuf = m.abuf ∧ r.tag = m.tag := by
  unfold mgmDataByte
  dsimp only
  split <;> simp

theorem mgmDataBytes_frame (cfg : Config) (d : Dir) (p : Bytes) (m : MgmCtx) :
    let r := (mgmDataBytes cfg d m p).2
    r.cipher = m.cipher ∧ r.key = m.key ∧ r.phase = m.phase ∧ r.dir = m.dir ∧ r.taglen = m.taglen ∧
    r.nonce = m.nonce ∧ r.aLen = m.aLen ∧ r.cLen = m.cLen ∧ r.ares = m.ares ∧ r.abuf = m.abuf ∧ r.tag = m.tag := by
  induction p generalizing m with
  | nil => simp
  | cons b r ih =>
    have h1 := mgmDataByte_frame cfg d m b
    have h2 := ih (mgmDataByte cfg d m b).2
    simp only [mgmDataBytes_cons] at *
    simp_all

/-- The data loop reads neither the message length nor the latched direction. -/
theorem mgmDataByte_comm (cfg : Config) (d e : Dir) (m : MgmCtx) (n : BitVec 64) (b : Byte) :
    mgmDataByte cfg d { m with cLen := n, dir := e } b =
      ((mgmDataByte cfg d m b).1, { (mgmDataByte cfg d m b).2 with cLen := n, dir := e }) := by
  unfold mgmDataByte mgmReady
  dsimp only
  split <;> split <;> split <;> rfl

theorem mgmDataBytes_comm (cfg : Config) (d e : Dir) (m : MgmCtx) (n : BitVec 64) (p : Bytes) :
    mgmDataBytes cfg d { m with cLen := n, dir := e } p =
      ((mgmDataBytes cfg d m p).1, { (mgmDataBytes cfg d m p).2 with cLen := n, dir := e }) := by
  induction p generalizing m with
  | nil => rfl
  | cons b r ih => simp only [mgmDataBytes_cons, mgmDataByte_comm, ih]

theorem mgmDataBytes_cLen_comm (cfg : Config) (d : Dir) (m : MgmCtx) (n : BitVec 64) (p : Bytes) :
    mgmDataBytes cfg d { m with cLen := n } p =
      ((mgmDataBytes cfg d m p).1, { (mgmDataBytes cfg d m p).2 with cLen := n }) := by
  have h := mgmDataBytes_comm cfg d m.dir m n p
  have hd := (mgmDataBytes_frame cfg d p m).2.2.2.1
  rw [show ({ m with cLen := n } : MgmCtx) = { m with cLen := n, dir := m.dir } from rfl, h]
  congr 1
  generalize (mgmDataBytes cfg d m p).2 = r at hd
  rw [← hd]

/-- Byte for byte, deciphering what was enciphered gives the byte back and leaves the same context (R188). -/
theorem mgmDataByte_dec_enc (cfg : Config) (m : MgmCtx) (b : Byte) :
    mgmDataByte cfg .dec m (mgmDataByte cfg .enc m b).1 = (b, (mgmDataByte cfg .enc m b).2) := by
  simp [mgmDataByte]

theorem mgmDataBytes_dec_enc (cfg : Config) (m : MgmCtx) (p : Bytes) :
    mgmDataBytes cfg .dec m (mgmDataBytes cfg .enc m p).1 = (p, (mgmDataBytes cfg .enc m p).2) := by
  induction p generalizing m with
  | nil => rfl
  | cons b r ih => simp only [mgmDataBytes_cons, mgmDataByte_dec_enc, ih]

end Sys2Proof.Machine
end

