-- ==== Sys2Proof/Laws/Omac.lean ====
section
/-! SUPPORT. The building blocks of the OMAC engine: what the mesh step and the byte loop leave alone, cutting a
message, and the sizes of derived key material. -/

namespace Sys2Proof.Machine

/-- The master gives exactly the bytes of a key and a subkey (R247, R251). -/
@[simp] theorem length_masterKeys (cfg : Config) (c : Cipher) (g : CtrGen) :
    (masterKeys cfg c g).1.length = keyLen + bs c := by simp [masterKeys]

theorem length_masterKey (cfg : Config) (c : Cipher) (g : CtrGen) :
    (slice (masterKeys cfg c g).1 0 keyLen).length = keyLen := by
  rw [length_slice_of_le (by omega) (by simp)]
  rfl

theorem length_masterSubkey (cfg : Config) (c : Cipher) (g : CtrGen) :
    (slice (masterKeys cfg c g).1 keyLen (keyLen + bs c)).length = bs c := by
  rw [length_slice_of_le (by omega) (by simp)]
  omega

/-- A new master has the widths of a generator (R247). -/
theorem genWf_masterInit (c : Cipher) {key : Bytes} {t : Nat} (hk : key.length = keyLen)
    (ht : (BitVec.ofNat 32 t).toNat % bs c = 0) : GenWf c (masterInit c key t) := by
  refine ⟨hk, ?_, by simp [IsBlock, masterInit], ht⟩
  simp [IsBlock, masterInit, halfBs_add_halfBs]

/-! ### The mesh step -/

/-- With `acpkm = 0` the mesh step never fires (R244). -/
theorem omacMeshCheck_plain (cfg : Config) {o : OmacCtx} (h : o.acpkm = false) : omacMeshCheck cfg o = o := by
  unfold omacMeshCheck
  cases hm : o.master with
  | none => rfl
  | some g => simp [OmacCtx.acpkm, hm] at h

/-- With `N = 0` the mesh step never fires (R247). -/
theorem omacMeshCheck_n_zero (cfg : Config) {o : OmacCtx} (h : o.n = 0) : omacMeshCheck cfg o = o := by
  unfold omacMeshCheck
  cases o.master with
  | none => rfl
  | some g => simp [omacMeshDue, h]

/-- The mesh step leaves alone the chaining value, the waiting block and every configured field (R251). -/
theorem omacMeshCheck_frame (cfg : Config) (o : OmacCtx) :
    let r := omacMeshCheck cfg o
    r.cipher = o.cipher ∧ r.phase = o.phase ∧ r.chain = o.chain ∧ r.lbuf = o.lbuf ∧ r.nlast = o.nlast ∧
    r.n = o.n ∧ r.maclen = o.maclen ∧ r.mac = o.mac ∧ r.acpkm = o.acpkm := by
  unfold omacMeshCheck
  cases hm : o.master with
  | none => simp
  | some g =>
    dsimp only
    split <;> simp [OmacCtx.acpkm, hm]

/-- Chaining leaves alone every configured field (R250). -/
theorem omacChain_frame (cfg : Config) (o : OmacCtx) :
    let r := omacChain cfg o
    r.cipher = o.cipher ∧ r.phase = o.phase ∧ r.n = o.n ∧ r.maclen = o.maclen ∧ r.mac = o.mac ∧
    r.acpkm = o.acpkm ∧ r.nlast = 0 ∧ r.lbuf = zeros (bs o.cipher) := by
  have h := omacMeshCheck_frame cfg o
  simp_all [omacChain, OmacCtx.acpkm]

/-- A byte of the message leaves alone every configured field (R250). -/
theorem omacByte_frame (cfg : Config) (o : OmacCtx) (b : Byte) :
    let r := omacByte cfg o b
    r.cipher = o.cipher ∧ r.phase = o.phase ∧ r.n = o.n ∧ r.maclen = o.maclen ∧ r.mac = o.mac ∧ r.acpkm = o.acpkm := by
  have h := omacChain_frame cfg o
  unfold omacByte
  dsimp only
  split <;> simp_all [OmacCtx.acpkm]

/-! ### The byte loop -/

/-- Two updates one after the other are one over the bytes together. -/
theorem omacUpdate_append (cfg : Config) (o : OmacCtx) (p q : Bytes) :
    omacUpdate cfg o (p ++ q) = omacUpdate cfg (omacUpdate cfg o p) q := by
  simp [omacUpdate, List.foldl_append]

@[simp] theorem omacUpdate_nil (cfg : Config) (o : OmacCtx) : omacUpdate cfg o [] = o := rfl

theorem omacUpdate_frame (cfg : Config) (p : Bytes) (o : OmacCtx) :
    let r := omacUpdate cfg o p
    r.cipher = o.cipher ∧ r.phase = o.phase ∧ r.n = o.n ∧ r.maclen = o.maclen ∧ r.mac = o.mac ∧ r.acpkm = o.acpkm := by
  induction p generalizing o with
  | nil => simp
  | cons b r ih =>
    have h1 := omacByte_frame cfg o b
    have h2 := ih (omacByte cfg o b)
    simp only [omacUpdate, List.foldl_cons] at *
    simp_all

/-- The whitened last block is a block (R252). -/
theorem length_omacLast {o : OmacCtx} (hl : o.lbuf.length = bs o.cipher) (hn : o.nlast ≤ bs o.cipher)
    (h1 : o.k1.length = bs o.cipher) (h2 : o.k2.length = bs o.cipher) : (omacLast o).length = bs o.cipher := by
  unfold omacLast
  split
  · simp [hl, h1]
  · have h : o.nlast < bs o.cipher := by omega
    simp [hl, h2]
    omega

end Sys2Proof.Machine
end

