-- ==== Sys2Proof/Laws/PerInstr.lean ====
section
/-! SUPPORT. A fact of every command as syntax, one lemma per constructor: its header word under the mask
`0xFF0000FF` is its opcode in the top byte (R77 of 30_encoding.md). -/

namespace Sys2Proof.Laws

/-- The header of the command matches the pattern of its row (R77). -/
def HeaderMatch.Statement (i : Instr) : Prop :=
  hdrWord i &&& 0xFF0000FF#32 = opcodeOf i ++ 0#24

/-- Under the mask only the opcode is left. -/
theorem hdrWord_mask (op : BitVec 8) (c a : BitVec 4) (m : BitVec 8) :
    (op ++ c ++ a ++ m ++ 0#8) &&& 0xFF0000FF#32 = op ++ 0#24 := by
  apply BitVec.eq_of_getLsbD_eq
  intro k hk
  rw [BitVec.getLsbD_and]
  simp only [BitVec.getLsbD_append]
  interval_cases k <;> simp

theorem HeaderMatch.nop (f : Fields) : HeaderMatch.Statement (.nop f) := hdrWord_mask _ _ _ _
theorem HeaderMatch.bcSetkey (f : Fields) : HeaderMatch.Statement (.bcSetkey f) := hdrWord_mask _ _ _ _
theorem HeaderMatch.bcEnc (f : Fields) : HeaderMatch.Statement (.bcEnc f) := hdrWord_mask _ _ _ _
theorem HeaderMatch.bcDec (f : Fields) : HeaderMatch.Statement (.bcDec f) := hdrWord_mask _ _ _ _
theorem HeaderMatch.gfMul64 (f : Fields) : HeaderMatch.Statement (.gfMul64 f) := hdrWord_mask _ _ _ _
theorem HeaderMatch.gfMul128 (f : Fields) : HeaderMatch.Statement (.gfMul128 f) := hdrWord_mask _ _ _ _
theorem HeaderMatch.ctrSetkey (f : Fields) : HeaderMatch.Statement (.ctrSetkey f) := hdrWord_mask _ _ _ _
theorem HeaderMatch.ctrSetiv (f : Fields) : HeaderMatch.Statement (.ctrSetiv f) := hdrWord_mask _ _ _ _
theorem HeaderMatch.ctrSection (f : Fields) : HeaderMatch.Statement (.ctrSection f) := hdrWord_mask _ _ _ _
theorem HeaderMatch.ctrCrypt (f : Fields) : HeaderMatch.Statement (.ctrCrypt f) := hdrWord_mask _ _ _ _
theorem HeaderMatch.acpkmMesh (f : Fields) : HeaderMatch.Statement (.acpkmMesh f) := hdrWord_mask _ _ _ _
theorem HeaderMatch.mgmInit (f : Fields) : HeaderMatch.Statement (.mgmInit f) := hdrWord_mask _ _ _ _
theorem HeaderMatch.mgmSetiv (f : Fields) : HeaderMatch.Statement (.mgmSetiv f) := hdrWord_mask _ _ _ _
theorem HeaderMatch.mgmTaglen (f : Fields) : HeaderMatch.Statement (.mgmTaglen f) := hdrWord_mask _ _ _ _
theorem HeaderMatch.mgmAad (f : Fields) : HeaderMatch.Statement (.mgmAad f) := hdrWord_mask _ _ _ _
theorem HeaderMatch.mgmEnc (f : Fields) : HeaderMatch.Statement (.mgmEnc f) := hdrWord_mask _ _ _ _
theorem HeaderMatch.mgmDec (f : Fields) : HeaderMatch.Statement (.mgmDec f) := hdrWord_mask _ _ _ _
theorem HeaderMatch.mgmFinish (f : Fields) : HeaderMatch.Statement (.mgmFinish f) := hdrWord_mask _ _ _ _
theorem HeaderMatch.mgmVerify (f : Fields) : HeaderMatch.Statement (.mgmVerify f) := hdrWord_mask _ _ _ _
theorem HeaderMatch.omacInit (f : Fields) : HeaderMatch.Statement (.omacInit f) := hdrWord_mask _ _ _ _
theorem HeaderMatch.omacInita (f : Fields) : HeaderMatch.Statement (.omacInita f) := hdrWord_mask _ _ _ _
theorem HeaderMatch.omacMaclen (f : Fields) : HeaderMatch.Statement (.omacMaclen f) := hdrWord_mask _ _ _ _
theorem HeaderMatch.omacUpdate (f : Fields) : HeaderMatch.Statement (.omacUpdate f) := hdrWord_mask _ _ _ _
theorem HeaderMatch.omacFinal (f : Fields) : HeaderMatch.Statement (.omacFinal f) := hdrWord_mask _ _ _ _
theorem HeaderMatch.ctxClone (f : Fields) : HeaderMatch.Statement (.ctxClone f) := hdrWord_mask _ _ _ _
theorem HeaderMatch.ctxDestroy (f : Fields) : HeaderMatch.Statement (.ctxDestroy f) := hdrWord_mask _ _ _ _
theorem HeaderMatch.ctxQuery (f : Fields) : HeaderMatch.Statement (.ctxQuery f) := hdrWord_mask _ _ _ _

end Sys2Proof.Laws
end

