-- ==== Sys2Proof/Laws/Wf.lean ====
section
/-! SUPPORT. What the effects of the commands do to the invariants of a context (R30, R37, R43). -/

namespace Sys2Proof.Machine

/-! ### MGM -/

/-- The part of `MgmWf` that every byte keeps: widths, and buffers that are zero beyond their fill counts. -/
structure MgmShape (m : MgmCtx) : Prop where
  key   : m.key.length = keyLen
  nonce : m.nonce.length = bs m.cipher
  z     : m.z.length = bs m.cipher
  y     : m.y.length = bs m.cipher
  sum   : m.sum.length = bs m.cipher
  abuf  : m.abuf.length = bs m.cipher
  cbuf  : m.cbuf.length = bs m.cipher
  ks    : m.ks.length = bs m.cipher
  tag   : m.tag.length = bs m.cipher
  ares  : m.ares < bs m.cipher
  mres  : m.mres < bs m.cipher
  aFill : m.abuf.drop m.ares = zeros (bs m.cipher - m.ares)
  cFill : m.cbuf.drop m.mres = zeros (bs m.cipher - m.mres)

theorem MgmWf.shape {m : MgmCtx} (h : MgmWf m) : MgmShape m := by
  have hb := h.blocks
  simp only [List.forall_mem_cons, List.not_mem_nil, false_implies, implies_true, and_true, IsBlock] at hb
  obtain ⟨h1, h2, h3, h4, h5, h6, h7, h8⟩ := hb
  exact ⟨h.key, h1, h2, h3, h4, h5, h6, h7, h8, h.ares, h.mres, h.abuf, h.cbuf⟩

theorem MgmShape.blocks {m : MgmCtx} (h : MgmShape m) :
    ∀ b ∈ [m.nonce, m.z, m.y, m.sum, m.abuf, m.cbuf, m.ks, m.tag], IsBlock m.cipher b := by
  simp only [List.forall_mem_cons, List.not_mem_nil, false_implies, implies_true, and_true, IsBlock]
  exact ⟨h.nonce, h.z, h.y, h.sum, h.abuf, h.cbuf, h.ks, h.tag⟩

theorem MgmShape.fold {m : MgmCtx} (cfg : Config) (x : Bytes) (h : MgmShape m) : MgmShape (mgmFold cfg m x) :=
  { h with z := by simp [h.z], sum := by simp [h.sum] }

theorem MgmShape.startZ {m : MgmCtx} (cfg : Config) (h : MgmShape m) : MgmShape (mgmStartZ cfg m) := by
  unfold mgmStartZ
  split
  · exact { h with z := by simp }
  · exact h

theorem MgmShape.flushAad {m : MgmCtx} (cfg : Config) (h : MgmShape m) : MgmShape (mgmFlushAad cfg m) := by
  unfold mgmFlushAad
  split
  · exact { h.fold cfg m.abuf with abuf := by simp, ares := bs_pos _, aFill := by simp }
  · exact h

theorem MgmShape.flushData {m : MgmCtx} (cfg : Config) (h : MgmShape m) : MgmShape (mgmFlushData cfg m) := by
  unfold mgmFlushData
  split
  · exact { h.fold cfg m.cbuf with cbuf := by simp, mres := bs_pos _, cFill := by simp }
  · exact h

/-- One byte of associated data keeps the widths, and moves the fill count by one (R37 (a), (b), (e)). -/
theorem MgmShape.aadByte {m : MgmCtx} (cfg : Config) (b : Byte) (h : MgmShape m) :
    MgmShape (mgmAadByte cfg m b) ∧ (mgmAadByte cfg m b).ares = (m.ares + 1) % bs m.cipher := by
  have hlt := h.ares
  unfold mgmAadByte
  dsimp only
  split
  · rename_i he
    refine ⟨{ h with
      z := by simp [h.z], sum := by simp [h.sum], abuf := by simp, ares := bs_pos _, aFill := by simp }, ?_⟩
    simp [he]
  · rename_i he
    refine ⟨{ h with
      abuf := by simp [h.abuf], ares := by simp only; omega, aFill := drop_set_fill b h.abuf h.aFill }, ?_⟩
    exact (Nat.mod_eq_of_lt (by simp only at he ⊢; omega)).symm

theorem MgmShape.aadBytes (cfg : Config) (p : Bytes) {m : MgmCtx} (h : MgmShape m) :
    MgmShape (p.foldl (mgmAadByte cfg) m) ∧
    (p.foldl (mgmAadByte cfg) m).ares = (m.ares + p.length) % bs m.cipher := by
  induction p generalizing m with
  | nil => exact ⟨h, by simp [Nat.mod_eq_of_lt h.ares]⟩
  | cons b r ih =>
    obtain ⟨h1, h2⟩ := h.aadByte cfg b
    obtain ⟨h3, h4⟩ := ih h1
    refine ⟨h3, ?_⟩
    rw [List.foldl_cons, h4, h2, mgmAadByte_cipher, List.length_cons, Nat.mod_add_mod]
    congr 1
    omega

/-- One byte of the message keeps the widths, and moves the fill count by one (R37 (a), (b), (e)). -/
theorem MgmShape.dataByte {m : MgmCtx} (cfg : Config) (d : Dir) (b : Byte) (h : MgmShape m) :
    MgmShape (mgmDataByte cfg d m b).2 ∧ (mgmDataByte cfg d m b).2.mres = (m.mres + 1) % bs m.cipher := by
  have hlt := h.mres
  have hr : MgmShape (mgmReady cfg m) := by
    unfold mgmReady
    split
    · exact { h with ks := by simp, y := by simp [h.y] }
    · exact h
  have hf := hr.cFill
  have hl := hr.cbuf
  simp only [mgmReady_cbuf, mgmReady_mres, mgmReady_cipher] at hf hl
  unfold mgmDataByte
  dsimp only
  split
  · rename_i he
    simp only [mgmReady_mres] at he
    refine ⟨{ hr with
      z := by simp [h.z], sum := by simp [h.sum], cbuf := by simp, mres := by simpa using bs_pos m.cipher,
      cFill := by simp }, ?_⟩
    simp [he]
  · rename_i he
    simp only [mgmReady_mres] at he
    refine ⟨{ hr with
      cbuf := by simp [hl], mres := by simp only [mgmReady_mres, mgmReady_cipher]; omega,
      cFill := by simpa using drop_set_fill _ hl hf }, ?_⟩
    simp only [mgmReady_mres]
    exact (Nat.mod_eq_of_lt (by omega)).symm

theorem MgmShape.dataBytes (cfg : Config) (d : Dir) (p : Bytes) {m : MgmCtx} (h : MgmShape m) :
    MgmShape (mgmDataBytes cfg d m p).2 ∧
    (mgmDataBytes cfg d m p).2.mres = (m.mres + p.length) % bs m.cipher := by
  induction p generalizing m with
  | nil => exact ⟨h, by simp [Nat.mod_eq_of_lt h.mres]⟩
  | cons b r ih =>
    obtain ⟨h1, h2⟩ := h.dataByte cfg d b
    obtain ⟨h3, h4⟩ := ih h1
    refine ⟨h3, ?_⟩
    have hc := (mgmDataByte_frame cfg d m b).1
    rw [mgmDataBytes_cons]
    simp only [h4, h2, hc, List.length_cons, Nat.mod_add_mod]
    congr 1
    omega

/-- `MGM.AAD` keeps the invariants, where its checks passed (R37, R186, R192). -/
theorem MgmWf.aad {m : MgmCtx} (cfg : Config) (p : Bytes) (h : MgmWf m)
    (hp : m.phase = .ivSet ∨ m.phase = .processingAad) (hlim : m.aLen.toNat + p.length ≤ mgmLimit m.cipher) :
    MgmWf (mgmAad cfg m p) := by
  have hs : MgmShape (mgmOpenAad cfg m) := { h.shape.startZ cfg with }
  obtain ⟨hsh, hres⟩ := hs.aadBytes cfg p
  have hfr := mgmAadFold_frame cfg p (mgmOpenAad cfg m)
  simp only [mgmOpenAad_cipher, mgmOpenAad_key, mgmOpenAad_phase, mgmOpenAad_dir, mgmOpenAad_taglen, mgmOpenAad_nonce,
    mgmOpenAad_y, mgmOpenAad_aLen, mgmOpenAad_cLen, mgmOpenAad_mres, mgmOpenAad_cbuf, mgmOpenAad_ks,
    mgmOpenAad_tag] at hfr
  obtain ⟨fc, fk, fp, fd, ft, fn, fy, fa, fcl, fm, fcb, fks, ftag⟩ := hfr
  rw [mgmOpenAad_ares, mgmOpenAad_cipher] at hres
  have hm0 : m.mres = 0 := by
    by_contra hne
    have := h.mresWhen (by omega)
    rcases hp with e | e <;> simp [e] at this
  have hc0 : m.cLen = 0 := by
    apply h.cLenZero
    rcases hp with e | e
    · exact .inr (.inl e)
    · exact .inr (.inr e)
  have hlt := mgmLimit_lt m.cipher
  have hA : (m.aLen + BitVec.ofNat 64 p.length).toNat = m.aLen.toNat + p.length := by
    rw [BitVec.toNat_add, BitVec.toNat_ofNat, Nat.add_mod_mod, Nat.mod_eq_of_lt (by omega)]
  have har : m.ares = m.aLen.toNat % bs m.cipher := by
    rcases hp with e | e
    · have h0 : m.ares = 0 := by
        by_contra hne
        have := h.aresWhen (by omega)
        simp [e] at this
      rw [h0, h.aLenZero (.inr e)]
      simp
    · exact h.aresIs e
  unfold mgmAad
  dsimp only
  generalize p.foldl (mgmAadByte cfg) (mgmOpenAad cfg m) = r at *
  exact {
    key := by simpa [fk] using h.key
    taglen := by simpa [ft, fc] using h.taglen
    blocks := hsh.blocks
    ares := hsh.ares
    mres := hsh.mres
    abuf := hsh.aFill
    cbuf := hsh.cFill
    aresWhen := fun _ => fp
    mresWhen := fun hm => by simp [fm, hm0] at hm
    aLen := by simpa only [fa, fc, hA] using hlim
    cLen := by simpa only [fcl, fc] using h.cLen
    aresIs := fun _ => by simp only [fa, fc, hA, hres, har, Nat.mod_add_mod]
    mresIs := fun e => by simp [fp] at e
    nonce := by simpa only [fn] using h.nonce
    idle := fun e => by simp [fp] at e
    aLenZero := fun e => by simp [fp] at e
    cLenZero := fun _ => by simpa only [fcl] using hc0 }

/-- `MGM.ENC` and `MGM.DEC` keep the invariants, where their checks passed (R37, R187, R192). -/
theorem MgmWf.data {m : MgmCtx} (cfg : Config) (p : Bytes) (d : Dir) (h : MgmWf m)
    (hp : m.phase = .ivSet ∨ m.phase = .processingAad ∨ m.phase = .processingData)
    (hlim : m.cLen.toNat + p.length ≤ mgmLimit m.cipher) : MgmWf (mgmData cfg m p d).2 := by
  have ho : MgmShape (mgmOpenData cfg m d) ∧ (mgmOpenData cfg m d).phase = .processingData ∧
      (mgmOpenData cfg m d).ares = 0 := by
    unfold mgmOpenData
    split
    · rename_i e
      refine ⟨{ h.shape with }, e, ?_⟩
      by_contra hne
      have := h.aresWhen (Nat.pos_of_ne_zero hne)
      simp [e] at this
    · have hs := (h.shape.startZ cfg)
      have hs2 : MgmShape { mgmStartZ cfg m with y := mgmE cfg (mgmStartZ cfg m) (settop (mgmStartZ cfg m).nonce false) } :=
        { hs with y := by simp }
      refine ⟨{ hs2.flushAad cfg with }, rfl, ?_⟩
      simp only [mgmFlushAad]
      split
      · rfl
      · rename_i hne
        simpa using hne
  obtain ⟨hos, hop, hoa⟩ := ho
  obtain ⟨hsh, hres⟩ := hos.dataBytes cfg d p
  have hfr := mgmDataBytes_frame cfg d p (mgmOpenData cfg m d)
  simp only [mgmOpenData_cipher, mgmOpenData_key, mgmOpenData_taglen, mgmOpenData_nonce, mgmOpenData_aLen,
    mgmOpenData_cLen, mgmOpenData_tag, hop, hoa] at hfr
  obtain ⟨fc, fk, fp, fd, ft, fn, fa, fcl, far, fab, ftag⟩ := hfr
  have hlt := mgmLimit_lt m.cipher
  have hC : (m.cLen + BitVec.ofNat 64 p.length).toNat = m.cLen.toNat + p.length := by
    rw [BitVec.toNat_add, BitVec.toNat_ofNat, Nat.add_mod_mod, Nat.mod_eq_of_lt (by omega)]
  have hmr : m.mres = m.cLen.toNat % bs m.cipher := by
    have hz : m.phase ≠ .processingData → m.mres = 0 ∧ m.cLen = 0 := by
      intro hne
      refine ⟨?_, h.cLenZero (by tauto)⟩
      by_contra h0
      exact hne (h.mresWhen (by omega))
    by_cases e : m.phase = .processingData
    · exact h.mresIs e
    · obtain ⟨h1, h2⟩ := hz e
      simp [h1, h2]
  unfold mgmData
  dsimp only
  rw [mgmOpenData_mres, mgmOpenData_cipher] at hres
  generalize (mgmDataBytes cfg d (mgmOpenData cfg m d) p).2 = r at *
  exact {
    key := by simpa only [fk] using h.key
    taglen := by simpa only [ft, fc] using h.taglen
    blocks := hsh.blocks
    ares := hsh.ares
    mres := hsh.mres
    abuf := hsh.aFill
    cbuf := hsh.cFill
    aresWhen := fun ha => by simp [far] at ha
    mresWhen := fun _ => fp
    aLen := by simpa only [fa, fc] using h.aLen
    cLen := by simpa only [fcl, fc, hC] using hlim
    aresIs := fun e => by simp [fp] at e
    mresIs := fun _ => by simp only [fcl, fc, hC, hres, hmr, Nat.mod_add_mod]
    nonce := by simpa only [fn] using h.nonce
    idle := fun e => by simp [fp] at e
    aLenZero := fun e => by simp [fp] at e
    cLenZero := fun e => by simp [fp] at e }

/-- Finishing a message keeps the invariants (R37, R189). -/
theorem MgmWf.finish {m : MgmCtx} (cfg : Config) (h : MgmWf m) : MgmWf (mgmFinish cfg m) := by
  have hs := (h.shape.flushAad cfg).flushData cfg
  have hs2 := hs.fold cfg (mgmLengthBlock (mgmFlushData cfg (mgmFlushAad cfg m)))
  have h1 : (mgmFlushAad cfg m).ares = 0 := by
    unfold mgmFlushAad
    split
    · rfl
    · omega
  have h2 : (mgmFlushData cfg (mgmFlushAad cfg m)).mres = 0 := by
    unfold mgmFlushData
    split
    · rfl
    · omega
  unfold mgmFinish
  dsimp only
  exact {
    key := by simpa using h.key
    taglen := by simpa using h.taglen
    blocks := MgmShape.blocks { hs2 with tag := by simp }
    ares := hs2.ares
    mres := hs2.mres
    abuf := hs2.aFill
    cbuf := hs2.cFill
    aresWhen := fun ha => by simp [h1] at ha
    mresWhen := fun ha => by simp [h2] at ha
    aLen := by simpa using h.aLen
    cLen := by simpa using h.cLen
    aresIs := fun e => by simp at e
    mresIs := fun e => by simp at e
    nonce := by simpa using h.nonce
    idle := fun e => by simp at e
    aLenZero := fun e => by simp at e
    cLenZero := fun e => by simp at e }

/-! ### OMAC -/

/-- The mesh step keeps the invariants, and where it leaves `num` it is below `N` (R43, R251). -/
theorem OmacWf.meshCheck {o : OmacCtx} (cfg : Config) (h : OmacWf o) :
    OmacWf (omacMeshCheck cfg o) ∧
    ((omacMeshCheck cfg o).acpkm = true → (omacMeshCheck cfg o).n ≠ 0 →
      (omacMeshCheck cfg o).num.toNat + bs o.cipher ≤ (omacMeshCheck cfg o).n.toNat) := by
  cases hm : o.master with
  | none =>
    have hp : o.acpkm = false := by simp [OmacCtx.acpkm, hm]
    rw [omacMeshCheck_plain cfg hp]
    exact ⟨h, fun e => by simp [hp] at e⟩
  | some g =>
    have hdvd : ∀ k : Nat, k % bs o.cipher = 0 → k ≠ 0 → bs o.cipher ≤ k := fun k hk h0 =>
      Nat.le_of_dvd (by omega) (Nat.dvd_of_mod_eq_zero hk)
    have hpos := bs_pos o.cipher
    obtain ⟨hg, hgn⟩ := h.master g hm
    by_cases hdue : omacMeshDue o = true
    · have e : omacMeshCheck cfg o =
          { o with
            key := slice (masterKeys cfg o.cipher g).1 0 keyLen,
            k1 := slice (masterKeys cfg o.cipher g).1 keyLen (keyLen + bs o.cipher),
            k2 := dbl o.cipher (slice (masterKeys cfg o.cipher g).1 keyLen (keyLen + bs o.cipher)), num := 0,
            master := some (masterKeys cfg o.cipher g).2 } := by
        simp [omacMeshCheck, hm, hdue]
      have hb := h.blocks
      simp only [List.forall_mem_cons, List.not_mem_nil, false_implies, implies_true, and_true, IsBlock] at hb
      rw [e]
      refine ⟨{
        h with
        key := length_masterKey cfg _ g
        blocks := ?_
        k2 := rfl
        num := by simp
        numLe := fun _ _ => by simp
        plain := fun e => by simp [OmacCtx.acpkm] at e
        master := ?_ }, ?_⟩
      · simp only [List.forall_mem_cons, List.not_mem_nil, false_implies, implies_true, and_true, IsBlock,
          length_masterSubkey, length_dbl, true_and]
        exact hb.2.2
      · rintro g' hg'
        simp only [Option.some.injEq] at hg'
        subst hg'
        refine ⟨hg.ctrStream _, ?_⟩
        simp only [masterKeys]
        rw [ctrStream_num_mod, length_zeros, Nat.add_mod, hgn, keyLen_add_bs_mod]
        simp
      · intro _ hn
        simp only
        have hn0 : o.n.toNat ≠ 0 := fun h0 => hn (BitVec.eq_of_toNat_eq (by simpa using h0))
        simpa using hdvd _ h.n hn0
    · have e : omacMeshCheck cfg o = o := by
        simp [omacMeshCheck, hm, hdue]
      rw [e]
      refine ⟨h, fun ha hn => ?_⟩
      have hlt : o.num.toNat < o.n.toNat := by
        simp only [omacMeshDue, ha, Bool.true_and, Bool.and_eq_true, bne_iff_ne, ne_eq, hn, not_false_eq_true,
          decide_eq_true_eq, true_and, not_le] at hdue
        exact hdue
      have hs : (o.n.toNat - o.num.toNat) % bs o.cipher = 0 :=
        (Nat.modEq_iff_dvd' hlt.le).mp (by rw [Nat.ModEq, h.num, h.n]) |> Nat.mod_eq_zero_of_dvd
      have := hdvd _ hs (by omega)
      omega

/-- Chaining a block keeps the invariants and empties the buffer (R43, R250). -/
theorem OmacWf.chainStep {o : OmacCtx} (cfg : Config) (h : OmacWf o) : OmacWf (omacChain cfg o) := by
  obtain ⟨h1, h2⟩ := h.meshCheck cfg
  have hfr := omacMeshCheck_frame cfg o
  obtain ⟨fc, fp, fch, fl, fnl, fn, fml, fmac, facp⟩ := hfr
  have hb := h1.blocks
  simp only [List.forall_mem_cons, List.not_mem_nil, false_implies, implies_true, and_true, IsBlock] at hb
  have hbs : (BitVec.ofNat 64 (bs o.cipher)).toNat = bs o.cipher := by
    rcases bs_cases o.cipher with e | e <;> simp [e]
  have hsum : ((omacMeshCheck cfg o).num + BitVec.ofNat 64 (bs o.cipher)).toNat % bs o.cipher = 0 := by
    rw [BitVec.toNat_add, Nat.mod_mod_of_dvd _ (bs_dvd_pow64 _), hbs, Nat.add_mod_right]
    simpa only [fc] using h1.num
  unfold omacChain
  dsimp only
  exact {
    key := h1.key
    blocks := by
      simp only [List.forall_mem_cons, List.not_mem_nil, false_implies, implies_true, and_true, IsBlock]
      exact ⟨hb.1, hb.2.1, by simp [omacE], by simp [fc], hb.2.2.2.2⟩
    maclen := h1.maclen
    nlast := Nat.zero_le _
    lbuf := by simp [fc]
    k2 := h1.k2
    num := by simpa only [fc] using hsum
    n := h1.n
    numLe := fun ha hn => by
      have := h2 ha hn
      rw [BitVec.toNat_add, hbs]
      exact (Nat.mod_le _ _).trans this
    plain := h1.plain
    master := h1.master }

/-- One byte of a message keeps the invariants (R43, R250). -/
theorem OmacWf.byte {o : OmacCtx} (cfg : Config) (b : Byte) (h : OmacWf o) : OmacWf (omacByte cfg o b) := by
  have key : ∀ q : OmacCtx, OmacWf q → q.nlast < bs q.cipher →
      OmacWf { q with lbuf := q.lbuf.set q.nlast b, nlast := q.nlast + 1 } := by
    intro q hq hlt
    have hb := hq.blocks
    simp only [List.forall_mem_cons, List.not_mem_nil, false_implies, implies_true, and_true, IsBlock] at hb
    exact {
      hq with
      blocks := by
        simp only [List.forall_mem_cons, List.not_mem_nil, false_implies, implies_true, and_true, IsBlock,
          List.length_set]
        exact hb
      nlast := by simp only; omega
      lbuf := drop_set_fill b hb.2.2.2.1 hq.lbuf }
  unfold omacByte
  dsimp only
  split
  · have hc := omacChain_frame cfg o
    exact key _ (h.chainStep cfg) (by simpa [hc.1, hc.2.2.2.2.2.2.1] using bs_pos o.cipher)
  · rename_i hne
    exact key _ h (by have := h.nlast; omega)

/-- `OMAC.UPDATE` keeps the invariants (R43, R250). -/
theorem OmacWf.update (cfg : Config) (p : Bytes) {o : OmacCtx} (h : OmacWf o) : OmacWf (omacUpdate cfg o p) := by
  induction p generalizing o with
  | nil => exact h
  | cons b r ih => exact ih (h.byte cfg b)

/-- `OMAC.FINAL` keeps the invariants (R43, R252). -/
theorem OmacWf.final {o : OmacCtx} (cfg : Config) (h : OmacWf o) : OmacWf (omacFinal cfg o) := by
  obtain ⟨h1, -⟩ := h.meshCheck cfg
  have hb := h1.blocks
  simp only [List.forall_mem_cons, List.not_mem_nil, false_implies, implies_true, and_true, IsBlock] at hb
  unfold omacFinal
  dsimp only
  exact {
    h1 with
    blocks := by
      simp only [List.forall_mem_cons, List.not_mem_nil, false_implies, implies_true, and_true, IsBlock]
      exact ⟨hb.1, hb.2.1, hb.2.2.1, hb.2.2.2.1, by simp [omacE]⟩ }

end Sys2Proof.Machine
end

