-- ==== Sys2Proof/Laws/Streams.lean ====
section
/-! SUPPORT. What the effects of the commands do to a keystream block in use (R32, R37 (h)). -/

namespace Sys2Proof.Machine

/-! ### CTR -/

/-- A context with no block in use says nothing of `ks` (R32: "dead"). -/
theorem streamWf_ctr_idle {cfg : Config} {c : CtrCtx} (h : c.gen.num.toNat % bs c.cipher = 0) : StreamWf cfg (.ctr c) :=
  fun hn => absurd h hn

/-- What a byte meets is a block in use, whether it had to be made or not (R149). -/
theorem streamWf_ctrReady {cfg : Config} {c : CtrCtx} (hw : GenWf c.cipher c.gen) (h : StreamWf cfg (.ctr c)) :
    ∃ key ctr0 steps, key.length = keyLen ∧ IsBlock c.cipher ctr0 ∧
      (acpkmNextKey cfg c.cipher)^[steps] key = (ctrReady cfg c.cipher c.gen).key ∧
      (ctrReady cfg c.cipher c.gen).ks = encBlock cfg.bc c.cipher key ctr0 ∧
      (ctrReady cfg c.cipher c.gen).ctr = incrFull ctr0 := by
  unfold ctrReady
  split
  · exact ⟨(ctrMesh cfg c.cipher c.gen).key, c.gen.ctr, 0, length_key_ctrMesh cfg c.cipher hw.key, hw.ctr, rfl,
      by simp [ctrRefill], by simp [ctrRefill]⟩
  · rename_i hn
    exact h hn

/-- The driver keeps a block in use (R32, R149). -/
theorem StreamWf.ctrStream {cfg : Config} {c : CtrCtx} (hw : GenWf c.cipher c.gen) (h : StreamWf cfg (.ctr c)) (p : Bytes) :
    StreamWf cfg (.ctr { c with gen := (ctrStream cfg c.cipher c.gen p).2 }) := by
  induction p generalizing c with
  | nil => exact h
  | cons b r ih =>
    refine ih (c := { c with gen := (ctrByte cfg c.cipher c.gen b).2 }) (hw.ctrByte b) fun _ => ?_
    exact streamWf_ctrReady hw h

/-- A meshing step by hand keeps the block in use, now one step behind the key (R152). -/
theorem StreamWf.mesh {cfg : Config} {c : CtrCtx} (h : StreamWf cfg (.ctr c)) :
    StreamWf cfg (.ctr
      { c with gen := { c.gen with key := acpkmNextKey cfg c.cipher c.gen.key, num := maskNum c.cipher c.gen.num } }) := by
  intro hn
  obtain ⟨key, ctr0, steps, h1, h2, h3, h4, h5⟩ := h (by simpa [toNat_maskNum] using hn)
  exact ⟨key, ctr0, steps + 1, h1, h2, by simp only [Function.iterate_succ_apply', h3], h4, h5⟩

/-! ### MGM -/

/-- A context with no block in use says nothing of `ks` (R37 (h): "dead"). -/
theorem streamWf_mgm_idle {cfg : Config} {m : MgmCtx} (h : m.mres = 0) : StreamWf cfg (.mgm m) := fun hn => absurd h hn

/-- What does not touch the keystream keeps the block in use. -/
theorem StreamWf.mgm_congr {cfg : Config} {m r : MgmCtx} (h : StreamWf cfg (.mgm m))
    (he : r.cipher = m.cipher ∧ r.key = m.key ∧ r.mres = m.mres ∧ r.ks = m.ks ∧ r.y = m.y) : StreamWf cfg (.mgm r) := by
  obtain ⟨h1, h2, h3, h4, h5⟩ := he
  simpa only [StreamWf, h1, h2, h3, h4, h5] using h

/-- `MGM.AAD` does not touch the keystream (R186). -/
theorem StreamWf.mgmAad {cfg : Config} {m : MgmCtx} (h : StreamWf cfg (.mgm m)) (p : Bytes) :
    StreamWf cfg (.mgm (mgmAad cfg m p)) := by
  have hf := mgmAadFold_frame cfg p (mgmOpenAad cfg m)
  simp only [mgmOpenAad_cipher, mgmOpenAad_key, mgmOpenAad_mres, mgmOpenAad_ks, mgmOpenAad_y] at hf
  obtain ⟨h1, h2, -, -, -, -, h3, -, -, h4, -, h5, -⟩ := hf
  exact h.mgm_congr ⟨h1, h2, h4, h5, h3⟩

/-- One byte of a message keeps the block in use, or uses it up (R187). -/
theorem StreamWf.mgmDataByte {cfg : Config} {d : Dir} {m : MgmCtx} (h : StreamWf cfg (.mgm m)) (hy : IsBlock m.cipher m.y)
    (b : Byte) : StreamWf cfg (.mgm (mgmDataByte cfg d m b).2) ∧ IsBlock m.cipher (mgmDataByte cfg d m b).2.y := by
  have hr : ∃ y0, IsBlock m.cipher y0 ∧ (mgmReady cfg m).ks = encBlock cfg.bc m.cipher m.key y0 ∧ (mgmReady cfg m).y = incrR y0 := by
    unfold mgmReady
    split
    · exact ⟨m.y, hy, rfl, rfl⟩
    · rename_i hn
      exact h hn
  have hyr : IsBlock m.cipher (mgmReady cfg m).y := by
    obtain ⟨y0, h0, -, h2⟩ := hr
    rw [h2]
    simpa [IsBlock] using h0
  unfold Machine.mgmDataByte
  dsimp only
  split
  · exact ⟨streamWf_mgm_idle rfl, hyr⟩
  · exact ⟨fun _ => by simpa using hr, hyr⟩

/-- A data command keeps the block in use (R37 (h), R187). -/
theorem StreamWf.mgmData {cfg : Config} {m : MgmCtx} (hw : MgmWf m) (h : StreamWf cfg (.mgm m)) (p : Bytes) (d : Dir) :
    StreamWf cfg (.mgm (mgmData cfg m p d).2) := by
  have key : ∀ (p : Bytes) (m : MgmCtx), StreamWf cfg (.mgm m) → IsBlock m.cipher m.y →
      StreamWf cfg (.mgm (mgmDataBytes cfg d m p).2) := by
    intro p
    induction p with
    | nil => exact fun _ h _ => h
    | cons b r ih =>
      intro m h hy
      have hb := h.mgmDataByte (d := d) hy b
      exact ih _ hb.1 (by rw [(mgmDataByte_frame cfg d m b).1]; exact hb.2)
  have hopen : StreamWf cfg (.mgm (mgmOpenData cfg m d)) ∧ IsBlock m.cipher (mgmOpenData cfg m d).y := by
    unfold mgmOpenData
    split
    · exact ⟨h.mgm_congr ⟨rfl, rfl, rfl, rfl, rfl⟩, hw.shape.y⟩
    · rename_i hp
      refine ⟨streamWf_mgm_idle ?_, by simp [IsBlock]⟩
      have := hw.mresWhen
      simp only [mgmFlushAad_mres, mgmStartZ_mres]
      by_contra hne
      exact hp (this (by omega))
  exact (key p _ hopen.1 (by simpa using hopen.2)).mgm_congr ⟨rfl, rfl, rfl, rfl, rfl⟩

/-- The finishing procedure leaves no block in use (R189). -/
theorem streamWf_mgmFinish (cfg : Config) (m : MgmCtx) : StreamWf cfg (.mgm (mgmFinish cfg m)) := by
  refine streamWf_mgm_idle ?_
  simp only [mgmFinish, mgmFold_mres]
  unfold mgmFlushData
  split
  · rfl
  · omega

end Sys2Proof.Machine
end

