-- ==== Sys2Proof/Tests/Slice0.lean ====
section
/-! SUPPORT. Tests of the model against the spec's own words, frames and vectors, and witnesses that the
hypotheses of the statements can be met. Every expected value is one the spec prints; the comment names where. -/

open Sys2Proof Sys2Proof.Machine

namespace Sys2Proof.Tests

-- One theorem at a time: each thread would ask for a stack of its own.
set_option Elab.async false

/-! ### Small states -/

/-- The key `K = h'000102..1f'` of the vectors (95_test_vectors.md section 3). -/
def keyK : Bytes := bytesOf 32 0x000102030405060708090a0b0c0d0e0f101112131415161718191a1b1c1d1e1f

/-- A unit of four slots under `TOY`, the given context in slot 0. -/
def unit (x : Slot) : State :=
  { cfg := { Config.standard with bc := .toy }, ctx := [x, .empty, .empty, .empty], cmd := [], rx := [], resp := [] }

/-- What a command answered, if it answered last. -/
def answerOf : Result → Option Response
  | .next t => t.resp.getLast?
  | _ => none

/-- Slot 0 after a command. -/
def slotOf : Result → Option Slot
  | .next t => t.ctx[0]?
  | _ => none

/-- The `OMAC` context of a slot. -/
def omacSlot : Option Slot → OmacCtx
  | some (.omac o) => o
  | _ => { cipher := .magma, phase := .finalized, key := [], k1 := [], k2 := [], chain := [], lbuf := [], nlast := 0, num := 0,
           n := 0, maclen := 0, mac := [], master := none }

/-- A block of 8 bytes. -/
def block8 (v : Nat) : Bytes := bytesOf 8 v

/-- After `BC.SETKEY c0, MAGMA, K` (95 section 3). -/
def bcCtx : BcCtx := { cipher := .magma, key := keyK, phase := .keySet }

/-- After `CTR.SETKEY c0, MAGMA, K`, `CTR.SECTION c0, 16`, `CTR.SETIV c0, h'a0a1a2a3'` (R144, R145, R148). -/
def ctrCtx : CtrCtx :=
  { cipher := .magma, phase := .ivSet,
    gen := { key := keyK, ctr := block8 0xa0a1a2a300000000, ks := zeros 8, num := 0, sect := 16 } }

/-- After `MGM.INIT c0, MAGMA, K` and `MGM.SETIV c0, h'9122334455667788'` (R183). -/
def mgmIv : MgmCtx :=
  { cipher := .magma, key := keyK, phase := .ivSet, dir := .none, taglen := 8, nonce := block8 0x1122334455667788,
    z := zeros 8, y := zeros 8, sum := zeros 8, aLen := 0, cLen := 0, ares := 0, mres := 0, abuf := zeros 8,
    cbuf := zeros 8, ks := zeros 8, tag := zeros 8 }

/-- Then `MGM.AAD c0, h'0102030405'`: the example of R186. -/
def mgmAadCtx : MgmCtx :=
  { mgmIv with phase := .processingAad, z := block8 0x992a3f4c55667380, aLen := 5, ares := 5,
               abuf := block8 0x0102030405000000 }

/-- Then `MGM.ENC c0, h'00112233445566778899aa'`, or the `MGM.DEC` of its result: the example of R187. -/
def mgmDataCtx (d : Dir) : MgmCtx :=
  { mgmIv with phase := .processingData, dir := d, z := block8 0x992a3f4e55667380, y := block8 0x192a3f4c55667382,
               sum := block8 0x62f2e96ddb0b90f0, aLen := 5, cLen := 11, mres := 3, cbuf := block8 0x99bbe10000000000,
               ks := block8 0x11224b4455667787 }

/-- Then `MGM.FINISH c0`: the end state of 96_test_vectors_modes.md section 6.1 (a). -/
def mgmEndCtx (d : Dir) : MgmCtx :=
  { mgmDataCtx d with phase := .finalized, z := block8 0x992a3f5055667380, sum := block8 0x25b6d573c1d9d6d0, mres := 0,
                      cbuf := zeros 8, tag := block8 0x2dbedd7dc9d3d2d8 }

/-- After `OMAC.INIT c0, MAGMA, K` (R244). -/
def omacNew : OmacCtx :=
  { cipher := .magma, phase := .keySet, key := keyK, k1 := block8 0x1010101010101010, k2 := block8 0x2020202020202020,
    chain := zeros 8, lbuf := zeros 8, nlast := 0, num := 0, n := 0, maclen := 8, mac := zeros 8, master := none }

/-- Then `OMAC.UPDATE c0, h'101112131415161718191a'` (R250). -/
def omacFed : OmacCtx :=
  { omacNew with chain := block8 0x181b1e1d14171211, lbuf := block8 0x18191a0000000000, nlast := 3, num := 8 }

/-- After block 3 of the example of R254: `num` has reached `N = 16`, block 3 waits. -/
def omacDue : OmacCtx :=
  { omacNew with
    key := bytesOf 32 0x0808080908080808080808090808080708080809080808060808080908080805, k1 := block8 0x0808080908080804,
    k2 := block8 0x1010101210101008, chain := block8 0x4868686888886858, lbuf := block8 0x71787f868d949ba2, nlast := 8,
    num := 16, n := 16,
    master := some { key := keyK, ctr := block8 0xffffffff00000005, ks := block8 0x0808080908080804, num := 40, sect := 64 } }

/-- The fields `CTX = 0`, `A`, `IMM` and a payload. -/
def fl (a : BitVec 4) (imm : BitVec 8) (p : Bytes) : Fields := { ctx := 0, a := a, imm := imm, payload := p }

/-! ### Ill-formed commands are refused (R79), one for each check and each side of it -/

theorem test_wf_fits : (Instr.nop (fl 0 0 [])).wellFormed 4 = true := by decide +kernel
theorem test_wf_slot_too_high : (Instr.ctxQuery { fl 0 0 [] with ctx := 4 }).wellFormed 4 = false := by decide +kernel
theorem test_wf_slot_highest : (Instr.ctxQuery { fl 0 0 [] with ctx := 3 }).wellFormed 4 = true := by decide +kernel
theorem test_wf_slot_not_used : (Instr.nop { fl 0 0 [] with ctx := 1 }).wellFormed 4 = false := by decide +kernel
theorem test_wf_cipher_code : (Instr.bcSetkey (fl 2 0 keyK)).wellFormed 4 = false := by decide +kernel
theorem test_wf_source_slot : (Instr.ctxClone (fl 5 0 [])).wellFormed 4 = false := by decide +kernel
theorem test_wf_a_not_used : (Instr.nop (fl 1 0 [])).wellFormed 4 = false := by decide +kernel
theorem test_wf_imm_not_used : (Instr.nop (fl 0 1 [])).wellFormed 4 = false := by decide +kernel
theorem test_wf_fixed_length : (Instr.gfMul64 (fl 0 0 (zeros 15))).wellFormed 4 = false := by decide +kernel
theorem test_wf_section_sizes : (Instr.omacInita (fl 0 0 (keyK ++ bytesOf 4 12 ++ bytesOf 4 16))).wellFormed 4 = false ∧
    (Instr.omacInita (fl 0 0 (keyK ++ bytesOf 4 16 ++ bytesOf 4 12))).wellFormed 4 = false ∧
    (Instr.omacInita (fl 0 0 (keyK ++ bytesOf 4 16 ++ bytesOf 4 16))).wellFormed 4 = true := by decide +kernel
theorem test_wf_reserved_byte : decode (bytesOf 8 0x0000000100000000) = .error .reservedNotZero := by decide +kernel

/-! ### Decoding: one frame of every row, written out from R71 and R76 (`OP CTX A IMM 00`, then `PLEN`) -/

theorem test_decode_nop : decode (bytesOf 8 0x0000000000000000) = .ok (.nop ⟨0, 0, 0, []⟩) := by decide +kernel
theorem test_decode_bcSetkey : decode (bytesOf 8 0x1011000000000020 ++ keyK) = .ok (.bcSetkey ⟨1, 1, 0, keyK⟩) := by decide +kernel
theorem test_decode_bcEnc : decode (bytesOf 9 0x1120000000000001ab) = .ok (.bcEnc ⟨2, 0, 0, [0xab]⟩) := by decide +kernel
theorem test_decode_bcDec : decode (bytesOf 9 0x1230000000000001ab) = .ok (.bcDec ⟨3, 0, 0, [0xab]⟩) := by decide +kernel
theorem test_decode_gfMul64 : decode (bytesOf 9 0x2000000000000001ab) = .ok (.gfMul64 ⟨0, 0, 0, [0xab]⟩) := by decide +kernel
theorem test_decode_gfMul128 : decode (bytesOf 9 0x2100000000000001ab) = .ok (.gfMul128 ⟨0, 0, 0, [0xab]⟩) := by decide +kernel
theorem test_decode_ctrSetkey : decode (bytesOf 8 0x3031000000000020 ++ keyK) = .ok (.ctrSetkey ⟨3, 1, 0, keyK⟩) := by decide +kernel
theorem test_decode_ctrSetiv : decode (bytesOf 12 0x3110000000000004a0a1a2a3) = .ok (.ctrSetiv ⟨1, 0, 0, [0xa0, 0xa1, 0xa2, 0xa3]⟩) := by decide +kernel
theorem test_decode_ctrSection : decode (bytesOf 12 0x321000000000000400000010) = .ok (.ctrSection ⟨1, 0, 0, [0, 0, 0, 0x10]⟩) := by decide +kernel
theorem test_decode_ctrCrypt : decode (bytesOf 9 0x331000000000000100) = .ok (.ctrCrypt ⟨1, 0, 0, [0]⟩) := by decide +kernel
theorem test_decode_acpkmMesh : decode (bytesOf 8 0x3430000000000000) = .ok (.acpkmMesh ⟨3, 0, 0, []⟩) := by decide +kernel
theorem test_decode_mgmInit : decode (bytesOf 8 0x4031000000000020 ++ keyK) = .ok (.mgmInit ⟨3, 1, 0, keyK⟩) := by decide +kernel
theorem test_decode_mgmSetiv : decode (bytesOf 16 0x41000000000000089122334455667788) = .ok (.mgmSetiv ⟨0, 0, 0, block8 0x9122334455667788⟩) := by decide +kernel
theorem test_decode_mgmTaglen : decode (bytesOf 8 0x4220040000000000) = .ok (.mgmTaglen ⟨2, 0, 4, []⟩) := by decide +kernel
theorem test_decode_mgmAad : decode (bytesOf 10 0x43200000000000020102) = .ok (.mgmAad ⟨2, 0, 0, [1, 2]⟩) := by decide +kernel
theorem test_decode_mgmEnc : decode (bytesOf 8 0x4420000000000000) = .ok (.mgmEnc ⟨2, 0, 0, []⟩) := by decide +kernel
theorem test_decode_mgmDec : decode (bytesOf 9 0x451000000000000111) = .ok (.mgmDec ⟨1, 0, 0, [0x11]⟩) := by decide +kernel
theorem test_decode_mgmFinish : decode (bytesOf 8 0x4620000000000000) = .ok (.mgmFinish ⟨2, 0, 0, []⟩) := by decide +kernel
theorem test_decode_mgmVerify : decode (bytesOf 11 0x4700000000000003000000) = .ok (.mgmVerify ⟨0, 0, 0, [0, 0, 0]⟩) := by decide +kernel
theorem test_decode_omacInit : decode (bytesOf 8 0x5011000000000020 ++ keyK) = .ok (.omacInit ⟨1, 1, 0, keyK⟩) := by decide +kernel
theorem test_decode_omacInita : decode (bytesOf 9 0x512000000000000133) = .ok (.omacInita ⟨2, 0, 0, [0x33]⟩) := by decide +kernel
theorem test_decode_omacMaclen : decode (bytesOf 8 0x5210040000000000) = .ok (.omacMaclen ⟨1, 0, 4, []⟩) := by decide +kernel
theorem test_decode_omacUpdate : decode (bytesOf 11 0x5310000000000003101112) = .ok (.omacUpdate ⟨1, 0, 0, [0x10, 0x11, 0x12]⟩) := by decide +kernel
theorem test_decode_omacFinal : decode (bytesOf 8 0x5410000000000000) = .ok (.omacFinal ⟨1, 0, 0, []⟩) := by decide +kernel
theorem test_decode_ctxClone : decode (bytesOf 8 0x6021000000000000) = .ok (.ctxClone ⟨2, 1, 0, []⟩) := by decide +kernel
theorem test_decode_ctxDestroy : decode (bytesOf 8 0x6110000000000000) = .ok (.ctxDestroy ⟨1, 0, 0, []⟩) := by decide +kernel
theorem test_decode_ctxQuery : decode (bytesOf 8 0x6230000000000000) = .ok (.ctxQuery ⟨3, 0, 0, []⟩) := by decide +kernel

/-- The raw frames of 96_test_vectors_modes.md section 8 that are no command. -/
theorem test_decode_refusals : decode [] = .error .frameTooShort ∧ decode (zeros 4) = .error .frameTooShort ∧
    decode (bytesOf 8 0x0100000000000000) = .error .unknownOpcode ∧ decode (bytesOf 8 0x1300000000000000) = .error .unknownOpcode ∧
    decode (bytesOf 8 0x6300000000000000) = .error .unknownOpcode ∧ decode (bytesOf 8 0xff00000000000000) = .error .unknownOpcode ∧
    decode (bytesOf 9 0x620000000000000200) = .error .lengthMismatch := by decide +kernel

/-- `MGM.TAGLEN c2, 8` by the table's numbering: `HDR` is the first word, `PLEN` above it. -/
theorem test_table_word : decodeTableWord 32 0x42200800 = some (.mgmTaglen ⟨2, 0, 8, []⟩) ∧
    decodeTableWord 96 (0x42200800 + 0x10 * 2 ^ 64) = some (.mgmTaglen ⟨2, 0, 8, []⟩) ∧
    decodeTableWord 96 (0x32300000 + 4 * 2 ^ 32 + 0x10 * 2 ^ 64) = some (.ctrSection ⟨3, 0, 0, [0, 0, 0, 0x10]⟩) := by
  decide +kernel

/-- The placed word is what the next step runs: `CTX.QUERY c1` on the reset machine. -/
theorem test_fetch_word : answerOf (step (State.reset.withFetchWord 64 0x62100000)) = some ⟨.ok, [0, 0, 0, 0]⟩ := by
  decide +kernel

/-- Two frames on the byte stream, the second half received (R70). -/
theorem test_byte_stream : (hostSendBytes State.reset (bytesOf 13 0x62000000000000004610000000)).cmd = [bytesOf 8 0x6200000000000000] ∧
    (hostSendBytes State.reset (bytesOf 13 0x62000000000000004610000000)).rx = bytesOf 5 0x4610000000 := by decide +kernel

/-- A response as it travels (R74): the frame of `CTX.QUERY` in 96 section 8. -/
theorem test_response_frame : responseFrame ⟨.ok, [3, 0, 5, 8]⟩ = bytesOf 12 0x000000000000000403000508 ∧
    responseFrame ⟨.illegalCommand, []⟩ = bytesOf 8 0x0000000a00000000 := by decide +kernel

/-! ### The cipher, the multiplier and the doubling -/

/-- 95 section 3: the single-block example of the Magma standard. -/
theorem test_std_magma : encBlock .std .magma (bytesOf 32 0xffeeddccbbaa99887766554433221100f0f1f2f3f4f5f6f7f8f9fafbfcfdfeff)
      (block8 0xfedcba9876543210) = block8 0x4ee901e5c2d8ca3d ∧
    decBlock .std .magma (bytesOf 32 0xffeeddccbbaa99887766554433221100f0f1f2f3f4f5f6f7f8f9fafbfcfdfeff)
      (block8 0x4ee901e5c2d8ca3d) = block8 0xfedcba9876543210 := by decide +kernel

/-- The checks of Magma's parts in 93_implementation_defined.md G1. -/
theorem test_std_magma_parts : magmaT 0xfdb97531 = 0x2a196f34 ∧ magmaG 0x87654321 0xfedcba98 = 0xfdcbc20c := by
  decide +kernel

/-- The checks of Grasshopper's parts in G1. -/
theorem test_std_grasshopper_parts :
    ghS (bytesOf 16 0xffeeddccbbaa99881122334455667700) = bytesOf 16 0xb66cd8887d38e8d77765aeea0c9a7efc ∧
    ghR (bytesOf 16 0x00000000000000000000000000000100) = bytesOf 16 0x94000000000000000000000000000001 ∧
    ghR (bytesOf 16 0x94000000000000000000000000000001) = bytesOf 16 0xa5940000000000000000000000000000 ∧
    ghL (bytesOf 16 0x64a59400000000000000000000000000) = bytesOf 16 0xd456584dd0e3e84cc3166e4b7fa2890d := by
  decide +kernel

/-- The `TOY` values of 95 section 2. -/
theorem test_toy : encBlock .toy .magma keyK (block8 0x0011223344556677) = block8 0x081b2e3d44576271 ∧
    encBlock .toy .magma (bytesOf 32 (2 ^ 256 - 1)) (block8 1) = block8 0xffffffffffffffff ∧
    encBlock .toy .grasshopper keyK (bytesOf 16 0x101112131415161718191a1b1c1d1e1f)
      = bytesOf 16 0x000306050c0f0a09383b3e3d34373231 := by decide +kernel

/-- The examples of R241. -/
theorem test_dbl : dbl .magma (block8 0x8000000000000000) = block8 0x1b ∧
    dbl .magma (block8 0xc000000000000001) = block8 0x8000000000000019 ∧
    dbl .grasshopper (bytesOf 16 (2 ^ 128 - 1)) = bytesOf 16 (2 ^ 128 - 2 ^ 8 + 0x79) := by decide +kernel

/-- The examples of R146. -/
theorem test_incr_full : incrFull (block8 0x00000000ffffffff) = block8 0x0000000100000000 ∧
    incrFull (block8 0xffffffffffffffff) = zeros 8 := by decide +kernel

/-! ### One command, one step -/

theorem test_nop : answerOf (exec (.nop (fl 0 0 [])) (unit (.bc bcCtx))) = some ⟨.ok, []⟩ ∧
    slotOf (exec (.nop (fl 0 0 [])) (unit (.bc bcCtx))) = some (.bc bcCtx) := by decide +kernel

theorem test_bcSetkey : slotOf (exec (.bcSetkey (fl 0 0 keyK)) (unit (.mgm mgmIv))) = some (.bc bcCtx) := by decide +kernel

/-- 95 section 3. -/
theorem test_bcEnc : answerOf (exec (.bcEnc (fl 0 0 (block8 0xffffffffffffffff))) (unit (.bc bcCtx)))
    = some ⟨.ok, block8 0x0808080808080809⟩ := by decide +kernel
theorem test_bcEnc_wrong_length : answerOf (exec (.bcEnc (fl 0 0 (zeros 7))) (unit (.bc bcCtx))) = some ⟨.illegalCommand, []⟩ ∧
    answerOf (exec (.bcEnc (fl 0 0 (zeros 7))) (unit .empty)) = some ⟨.keyNotSet, []⟩ := by decide +kernel
theorem test_bcDec : answerOf (exec (.bcDec (fl 0 0 (block8 0x081b2e3d44576271))) (unit (.bc bcCtx)))
    = some ⟨.ok, block8 0x0011223344556677⟩ := by decide +kernel

/-- 95 section 4. -/
theorem test_gfMul64 : answerOf (exec (.gfMul64 (fl 0 0 (block8 0x0123456789abcdef ++ block8 0xfedcba9876543210))) (unit .empty))
    = some ⟨.ok, block8 0x48827ab55d976fa0⟩ := by decide +kernel
theorem test_gfMul64_reduces : answerOf (exec (.gfMul64 (fl 0 0 (block8 2 ++ block8 0xc000000000000001))) (unit .empty))
    = some ⟨.ok, block8 0x8000000000000019⟩ := by decide +kernel
theorem test_gfMul128 : answerOf (exec (.gfMul128 (fl 0 0
      (bytesOf 16 0x0123456789abcdef0011223344556677 ++ bytesOf 16 0xfedcba98765432100123456789abcdef))) (unit .empty))
    = some ⟨.ok, bytesOf 16 0x12d2bc4913d3bd69b453b9a45c0051d6⟩ := by decide +kernel

/-- R144: the section size is 0, and the phase `KeySet`. -/
theorem test_ctrSetkey : slotOf (exec (.ctrSetkey (fl 0 0 keyK)) (unit (.ctr ctrCtx)))
    = some (.ctr { cipher := .magma, phase := .keySet, gen := { key := keyK, ctr := zeros 8, ks := zeros 8, num := 0, sect := 0 } }) := by
  decide +kernel

/-- R145: a half-IV on a streaming context starts the stream again and keeps the section size. -/
theorem test_ctrSetiv : slotOf (exec (.ctrSetiv (fl 0 0 (bytesOf 4 0xa0a1a2a3)))
      (unit (.ctr { ctrCtx with gen := { ctrCtx.gen with ctr := block8 5, num := 3, ks := block8 7 } }))) = some (.ctr ctrCtx) := by
  decide +kernel

/-- The examples of R148. -/
theorem test_ctrSection : slotOf (exec (.ctrSection (fl 0 0 (bytesOf 4 16)))
      (unit (.ctr { ctrCtx with gen := { ctrCtx.gen with sect := 0 } }))) = some (.ctr ctrCtx) := by decide +kernel
theorem test_ctrSection_not_blocks : answerOf (exec (.ctrSection (fl 0 0 (bytesOf 4 12))) (unit (.ctr ctrCtx)))
    = some ⟨.illegalCommand, []⟩ := by decide +kernel

/-- The example of R150, with its end state (95 section 5.1). -/
theorem test_ctrCrypt : answerOf (exec (.ctrCrypt (fl 0 0 (zeros 40))) (unit (.ctr ctrCtx)))
    = some ⟨.ok, bytesOf 40 0xa8abaead08080808a8abaead08080807a9aeb7b51818181aa9aeb7b51818181dbba6a5ab1818181c⟩ := by
  decide +kernel
theorem test_ctrCrypt_state : slotOf (exec (.ctrCrypt (fl 0 0 (zeros 40))) (unit (.ctr ctrCtx))) = some (.ctr
      { ctrCtx with gen :=
        { key := bytesOf 32 0x898e97949592939191969f9c8d8a8b89999ea7a485828381a1a6afacbdbabbb9, ctr := block8 0xa0a1a2a300000005,
          ks := block8 0xbba6a5ab1818181c, num := 8, sect := 16 } }) := by decide +kernel

/-- 95 section 3 and 5.1: the meshed key; and `num` 11 becomes 3. -/
theorem test_acpkmMesh : slotOf (exec (.acpkmMesh (fl 0 0 [])) (unit (.bc bcCtx)))
    = some (.bc { bcCtx with key := bytesOf 32 0x888b8e8d84878281808386859c9f9a99989b9e9d9497929190939695acafaaa9 }) := by
  decide +kernel
theorem test_acpkmMesh_ctr : slotOf (exec (.acpkmMesh (fl 0 0 []))
      (unit (.ctr { ctrCtx with gen := { ctrCtx.gen with num := 11 } })))
    = some (.ctr { ctrCtx with gen := { ctrCtx.gen with
        key := bytesOf 32 0x888b8e8d84878281808386859c9f9a99989b9e9d9497929190939695acafaaa9, num := 3 } }) := by decide +kernel

theorem test_mgmInit : slotOf (exec (.mgmInit (fl 0 0 keyK)) (unit .empty))
    = some (.mgm { mgmIv with phase := .keySet, nonce := zeros 8 }) := by decide +kernel

/-- The example of R183, on a finished context. -/
theorem test_mgmSetiv : slotOf (exec (.mgmSetiv (fl 0 0 (block8 0x9122334455667788))) (unit (.mgm (mgmEndCtx .dec))))
    = some (.mgm mgmIv) := by decide +kernel

/-- 96 section 6.3: 9 and 0 are refused; 4 is taken. -/
theorem test_mgmTaglen : answerOf (exec (.mgmTaglen (fl 0 9 [])) (unit (.mgm mgmIv))) = some ⟨.invalidTagLength, []⟩ ∧
    answerOf (exec (.mgmTaglen (fl 0 0 [])) (unit (.mgm mgmIv))) = some ⟨.invalidTagLength, []⟩ ∧
    slotOf (exec (.mgmTaglen (fl 0 4 [])) (unit (.mgm mgmIv))) = some (.mgm { mgmIv with taglen := 4 }) := by decide +kernel
/-- 96 section 8: phase before range, kind before range. -/
theorem test_mgmTaglen_order : answerOf (exec (.mgmTaglen (fl 0 9 [])) (unit (.mgm (mgmEndCtx .enc)))) = some ⟨.badOrder, []⟩ ∧
    answerOf (exec (.mgmTaglen (fl 0 9 [])) (unit (.bc bcCtx))) = some ⟨.keyNotSet, []⟩ := by decide +kernel

/-- The example of R186. -/
theorem test_mgmAad : slotOf (exec (.mgmAad (fl 0 0 (bytesOf 5 0x0102030405))) (unit (.mgm mgmIv))) = some (.mgm mgmAadCtx) := by
  decide +kernel
/-- The bounds of R192 (96 section 6.3): the Magma bound is `2^29` bytes, and the bound itself is accepted. -/
theorem test_mgmAad_bound :
    answerOf (exec (.mgmAad (fl 0 0 [1])) (unit (.mgm { mgmAadCtx with aLen := 0x1fffffff }))) = some ⟨.ok, []⟩ ∧
    answerOf (exec (.mgmAad (fl 0 0 [1, 2])) (unit (.mgm { mgmAadCtx with aLen := 0x1fffffff }))) = some ⟨.dataTooLarge, []⟩ := by
  decide +kernel

/-- The example of R187. -/
theorem test_mgmEnc : answerOf (exec (.mgmEnc (fl 0 0 (bytesOf 11 0x00112233445566778899aa))) (unit (.mgm mgmAadCtx)))
    = some ⟨.ok, bytesOf 11 0x11336977113311ff99bbe1⟩ := by decide +kernel
theorem test_mgmEnc_state : slotOf (exec (.mgmEnc (fl 0 0 (bytesOf 11 0x00112233445566778899aa))) (unit (.mgm mgmAadCtx)))
    = some (.mgm (mgmDataCtx .enc)) := by decide +kernel

/-- The example of R188. -/
theorem test_mgmDec : answerOf (exec (.mgmDec (fl 0 0 (bytesOf 11 0x11336977113311ff99bbe1))) (unit (.mgm mgmAadCtx)))
    = some ⟨.ok, bytesOf 11 0x00112233445566778899aa⟩ ∧
    slotOf (exec (.mgmDec (fl 0 0 (bytesOf 11 0x11336977113311ff99bbe1))) (unit (.mgm mgmAadCtx)))
    = some (.mgm (mgmDataCtx .dec)) := by decide +kernel
theorem test_mgmDec_direction : answerOf (exec (.mgmDec (fl 0 0 [1])) (unit (.mgm (mgmDataCtx .enc)))) = some ⟨.badOrder, []⟩ := by
  decide +kernel

/-- The example of R191. -/
theorem test_mgmFinish : answerOf (exec (.mgmFinish (fl 0 0 [])) (unit (.mgm (mgmDataCtx .enc))))
    = some ⟨.ok, block8 0x2dbedd7dc9d3d2d8⟩ ∧
    slotOf (exec (.mgmFinish (fl 0 0 [])) (unit (.mgm (mgmDataCtx .enc)))) = some (.mgm (mgmEndCtx .enc)) := by decide +kernel

/-- The example of R193. -/
theorem test_mgmVerify : answerOf (exec (.mgmVerify (fl 0 0 (block8 0x2dbedd7dc9d3d2d8))) (unit (.mgm (mgmDataCtx .dec))))
    = some ⟨.ok, []⟩ := by decide +kernel
theorem test_mgmVerify_fails : answerOf (exec (.mgmVerify (fl 0 0 (block8 0x2dbedd7dc9d3d2d9))) (unit (.mgm (mgmDataCtx .dec))))
    = some ⟨.authenticationFailed, []⟩ ∧
    slotOf (exec (.mgmVerify (fl 0 0 (block8 0x2dbedd7dc9d3d2d9))) (unit (.mgm (mgmDataCtx .dec))))
    = some (.mgm (mgmEndCtx .dec)) := by decide +kernel

/-- The example of R244. -/
theorem test_omacInit : slotOf (exec (.omacInit (fl 0 0 keyK)) (unit .empty)) = some (.omac omacNew) := by decide +kernel

/-- The example of R247. -/
theorem test_omacInita : slotOf (exec (.omacInita (fl 0 0 (keyK ++ bytesOf 8 0x0000001000000040))) (unit .empty))
    = some (.omac { omacDue with chain := zeros 8, lbuf := zeros 8, nlast := 0, num := 0 }) := by decide +kernel

/-- The examples of R249. -/
theorem test_omacMaclen : slotOf (exec (.omacMaclen (fl 0 4 [])) (unit (.omac omacNew))) = some (.omac { omacNew with maclen := 4 }) ∧
    answerOf (exec (.omacMaclen (fl 0 0 [])) (unit (.omac omacNew))) = some ⟨.invalidMacSize, []⟩ ∧
    answerOf (exec (.omacMaclen (fl 0 9 [])) (unit (.omac omacNew))) = some ⟨.invalidMacSize, []⟩ ∧
    answerOf (exec (.omacMaclen (fl 0 0 [])) (unit (.bc bcCtx))) = some ⟨.macKeyNotSet, []⟩ := by decide +kernel

/-- The example of R250. -/
theorem test_omacUpdate : slotOf (exec (.omacUpdate (fl 0 0 (bytesOf 11 0x101112131415161718191a))) (unit (.omac omacNew)))
    = some (.omac omacFed) := by decide +kernel
/-- Block 4 of the example of R254: the mesh step, in which the master meshes its own key; the fields that
example prints. -/
theorem test_omacUpdate_meshes :
    let o := omacSlot (slotOf (exec (.omacUpdate (fl 0 0 (block8 0xa9b0b7bec5ccd3da))) (unit (.omac omacDue))))
    o.key.take 8 = block8 0x0808080908080803 ∧ o.k1 = block8 0x0808080918181813 ∧ o.chain = block8 0x491017fe052cf3ff ∧
    o.num = 8 ∧ o.nlast = 8 ∧ o.master.map (·.num) = some 16 ∧ o.master.map (·.ctr) = some (block8 0xffffffff0000000a) ∧
    o.master.map (·.key.take 8) = some (block8 0x888b8e8d84878281) := by decide +kernel

/-- The examples of R252. -/
theorem test_omacFinal : answerOf (exec (.omacFinal (fl 0 0 [])) (unit (.omac omacFed))) = some ⟨.ok, block8 0x282a2ccb34313637⟩ := by
  decide +kernel
theorem test_omacFinal_empty : answerOf (exec (.omacFinal (fl 0 0 [])) (unit (.omac omacNew))) = some ⟨.ok, block8 0xa828282828282828⟩ := by
  decide +kernel

/-- R291: slot 1 onto slot 0, and a slot onto itself. -/
theorem test_ctxClone : slotOf (exec (.ctxClone (fl 1 0 [])) { unit .empty with ctx := [.bc bcCtx, .mgm mgmAadCtx] })
      = some (.mgm mgmAadCtx) ∧
    slotOf (exec (.ctxClone (fl 0 0 [])) (unit (.mgm mgmAadCtx))) = some (.mgm mgmAadCtx) := by decide +kernel

/-- The examples of R293 and R295. -/
theorem test_ctxDestroy : slotOf (exec (.ctxDestroy (fl 0 0 [])) (unit (.mgm mgmAadCtx))) = some .empty := by decide +kernel
theorem test_ctxQuery : answerOf (exec (.ctxQuery (fl 0 0 [])) (unit (.mgm (mgmEndCtx .enc)))) = some ⟨.ok, [3, 0, 5, 8]⟩ ∧
    answerOf (exec (.ctxQuery (fl 0 0 [])) (unit (.omac { omacNew with cipher := .grasshopper }))) = some ⟨.ok, [4, 1, 1, 8]⟩ := by
  decide +kernel

/-! ### Witnesses: the hypotheses of each statement can be met, clause by clause, at the ends of each range -/

/-- The unit with one frame waiting. -/
def waiting (frame : Bytes) : State := { unit .empty with cmd := [frame] }

/-- No slot of another kind than its own. -/
theorem not_holds {s : State} {n : BitVec 4} {x : Slot} (h : holdsSlot s n x) {y : Slot} (hy : x ≠ y) : ¬ holdsSlot s n y := by
  intro h2
  rw [holdsSlot] at h h2
  exact hy (Option.some.inj (h.symm.trans h2))

theorem mgmWf_iv : MgmWf mgmIv :=
  { key := rfl, taglen := by decide, blocks := by unfold IsBlock; decide +kernel, ares := by decide, mres := by decide, abuf := rfl, cbuf := rfl,
    aresWhen := by decide, mresWhen := by decide, aLen := by decide, cLen := by decide, aresIs := by decide, mresIs := by decide,
    nonce := by decide +kernel, idle := by decide, aLenZero := by decide, cLenZero := by decide }

theorem genWf_ctr : GenWf .magma ctrCtx.gen := ⟨by decide +kernel, by unfold IsBlock; decide, by unfold IsBlock; decide, by decide⟩

theorem wit_DecodeOfEncode : (Instr.nop (fl 0 0 [])).encodable = true ∧ (Instr.mgmAad (fl 0 0 (zeros maxPay))).encodable = true := by
  simp [Instr.encodable, Instr.fields, fl, Fields.plen]
theorem wit_EncodeOfDecode : decode (bytesOf 8 0x4220080000000000) = .ok (.mgmTaglen ⟨2, 0, 8, []⟩) := by decide +kernel
theorem wit_HeaderMatchAndMask : decodeHdr 0x42200800 [] = .ok (.mgmTaglen ⟨2, 0, 8, []⟩) ∧
    ((0x62ffff00 : BitVec 32) &&& 0xFF0000FF#32).toNat = (opcodeOf (.ctxQuery (fl 0 0 []))).toNat * 2 ^ 24 := by decide +kernel
theorem wit_IllegalFrames :
    (waiting (zeros 7)).cmd = zeros 7 :: [] ∧ (zeros 7).length < 8 ∧
    (let f := bytesOf 9 0x620000000000000200; (waiting f).cmd = f :: [] ∧ f.length - 8 ≠ intOf (slice f 4 8)) ∧
    (let f := bytesOf 8 0x6300000000000000; (waiting f).cmd = f :: [] ∧ (f.getD 0 0).toNat ∉ [0x00, 0x10, 0x11, 0x12, 0x20, 0x21,
      0x30, 0x31, 0x32, 0x33, 0x34, 0x40, 0x41, 0x42, 0x43, 0x44, 0x45, 0x46, 0x47, 0x50, 0x51, 0x52, 0x53, 0x54, 0x60, 0x61, 0x62]) := by
  decide +kernel
/-- The six checks of R79, each at the first value it refuses. -/
theorem wit_StaticChecks :
    (let f := bytesOf 8 0x0000000100000000; (waiting f).cmd = f :: [] ∧ 8 ≤ f.length ∧ f.getD 3 0 ≠ 0) ∧
    (unit .empty).nctx ≤ (Instr.ctxQuery { fl 0 0 [] with ctx := 4 }).fields.ctx.toNat ∧
    (Instr.nop { fl 0 0 [] with ctx := 1 }).fields.ctx ≠ 0 ∧ 1 < (Instr.bcSetkey (fl 2 0 keyK)).fields.a.toNat ∧
    (unit .empty).nctx ≤ (Instr.ctxClone (fl 4 0 [])).fields.a.toNat ∧ (Instr.bcEnc (fl 1 0 [])).fields.a ≠ 0 ∧
    (Instr.bcEnc (fl 0 1 [])).fields.imm ≠ 0 ∧ (Instr.nop (fl 0 0 [0])).fields.plen ≠ 0 ∧
    (Instr.mgmInit (fl 0 0 (zeros 31))).fields.plen ≠ 32 ∧ (Instr.gfMul64 (fl 0 0 (zeros 17))).fields.plen ≠ 16 ∧
    (Instr.ctrSection (fl 0 0 (zeros 5))).fields.plen ≠ 4 ∧ (Instr.omacInita (fl 0 0 (zeros 39))).fields.plen ≠ 40 ∧
    intOf (slice (keyK ++ bytesOf 8 0x0000000c00000010) 32 36) % 8 ≠ 0 ∧
    intOf (slice (keyK ++ bytesOf 8 0x000000100000000c) 36 40) % 8 ≠ 0 := by decide +kernel
theorem wit_ByteStreamFraming : (unit .empty).rx = [] ∧
    ∀ i ∈ [Instr.nop (fl 0 0 []), .gfMul64 (fl 0 0 (zeros 16))], i.encodable = true := by decide +kernel
theorem wit_ResponseFrames : (zeros maxPay).length ≤ maxPay ∧ responseFrame ⟨.ok, [1]⟩ = responseFrame ⟨.ok, bytesOf 1 0x101⟩ := by
  exact ⟨by simp, by decide +kernel⟩
/-- The clauses of EveryDeliveredFrameIsAnswered about the ports: a response to take, and a frame to run, in a state where
another frame is half received. -/
theorem wit_Ports : let s : State := { waiting (zeros 8) with resp := [⟨.ok, [7]⟩, ⟨.ok, []⟩], rx := [0x62] }
    hostReceive s = some (responseFrame ⟨.ok, [7]⟩, { s with resp := [⟨.ok, []⟩] }) ∧ s.cmd ≠ [] ∧
    step s = .next (answered { s with cmd := [] } .ok []) ∧ (unit .empty).resp = [] := by
  refine ⟨rfl, by decide, ?_, rfl⟩
  have hd : decode (zeros 8) = .ok (.nop (fl 0 0 [])) := by decide +kernel
  simp only [step, stepFront, waiting, runFrame, hd]
  rfl
theorem wit_StepRuns : (waiting (zeros 8)).cmd = zeros 8 :: [] ∧ decode (zeros 8) = .ok (.nop (fl 0 0 [])) ∧
    (waiting []).cmd = [] :: [] ∧ decode [] = .error .frameTooShort ∧ (unit .empty).cmd = [] := by decide +kernel
theorem wit_Statuses : staticOk 4 (.nop (fl 1 0 [])) = false ∧ staticOk 4 (.nop (fl 0 0 [])) = true ∧
    mayRaise (.nop (fl 0 0 [])) = [] ∧ staticOk 4 (.bcEnc (fl 0 0 [])) = true := by decide +kernel
theorem wit_OnlyTheNamedSlot : exec (.nop (fl 0 0 [])) (unit .empty) = .next (answered (unit .empty) .ok []) ∧
    readsOnly (.nop (fl 0 0 [])) = true ∧ (1 : Nat) ≠ (Instr.nop (fl 0 0 [])).fields.ctx.toNat := ⟨rfl, rfl, by decide⟩
theorem wit_Sessions : ∀ f, Instr.ctxClone f ∈ [Instr.ctxClone (fl 0 0 []), .ctxClone { fl 0 0 [] with ctx := 1 }] →
    f.ctx = 0 → f.a = 0 := by
  intro f hf h
  simp only [List.mem_cons, Instr.ctxClone.injEq, List.not_mem_nil, or_false] at hf
  rcases hf with rfl | rfl <;> rfl
/-- The invariants with nothing in use, and with a keystream block in use: the `CTR` context after one byte, and after an
`ACPKM.MESH` besides (95 section 5.1), and the `MGM` context of R187. -/
theorem wit_StepKeeps : StateWf { unit (.mgm mgmIv) with cmd := [zeros 8] } ∧
    step { unit (.mgm mgmIv) with cmd := [zeros 8] } = .next (answered (unit (.mgm mgmIv)) .ok []) := by
  refine ⟨⟨by decide +kernel, by decide, ?_, ?_⟩, ?_⟩
  rotate_right
  · have hd : decode (zeros 8) = .ok (.nop (fl 0 0 [])) := by decide +kernel
    simp only [step, stepFront, runFrame, hd]
    rfl
  all_goals
    intro x hx
    simp only [unit, List.mem_cons, List.not_mem_nil, or_false] at hx
    rcases hx with rfl | rfl | rfl | rfl
  · exact mgmWf_iv
  any_goals trivial
  exact fun h => absurd rfl h
/-- The `CTR` context of the examples after three bytes and an `ACPKM.MESH` (95 section 5.1). -/
def ctrMeshed : CtrCtx :=
  { ctrCtx with
    gen := {
      key := bytesOf 32 0x888b8e8d84878281808386859c9f9a99989b9e9d9497929190939695acafaaa9
      ctr := block8 0xa0a1a2a300000002
      ks := block8 0xa8abaead08080807
      num := 3
      sect := ctrCtx.gen.sect } }
theorem wit_StreamWf : StreamWf (unit .empty).cfg (.ctr ctrMeshed) ∧ StreamWf (unit .empty).cfg (.mgm (mgmDataCtx .enc)) := by
  refine ⟨fun _ => ⟨keyK, block8 0xa0a1a2a300000001, 1, ?_⟩, fun _ => ⟨block8 0x192a3f4c55667381, ?_⟩⟩ <;>
    unfold IsBlock <;> decide +kernel
theorem wit_ResetHas : (unit .empty).cfg.acpkmD.length = 32 ∧ 1 ≤ { unit .empty with ctx := [.empty] }.nctx ∧
    { unit .empty with ctx := List.replicate 16 Slot.empty }.nctx ≤ 16 := by decide +kernel
theorem wit_ResetEmpties : (3 : BitVec 4).toNat < State.reset.nctx ∧ (3 : BitVec 4).toNat < (unit (.bc bcCtx)).nctx := by decide +kernel

/-- The creating forms: both ciphers, and the highest slot (BcSetkeyKeysTheSlot, CtrSetkeyCreates, MgmInitCreates,
OmacInitCreates, OmacInitaCreates). -/
theorem wit_creates : createsForm (unit .empty) (fl 0 0 keyK) .magma 32 ∧
    createsForm (unit .empty) { fl 1 0 keyK with ctx := 3 } .grasshopper 32 ∧
    createsForm (unit .empty) (fl 0 0 (keyK ++ bytesOf 8 0x0000001000000040)) .magma 40 := by
  unfold createsForm; decide +kernel
/-- Every command statement that asks for a slot of the file and no operands in `A` and `IMM`. -/
theorem wit_noOperands : (fl 0 0 [1]).ctx.toNat < (unit .empty).nctx ∧ noOperands (fl 0 0 [1]) := by unfold noOperands; decide +kernel
/-- `KeyNotSet` and `MacKeyNotSet`: an `Empty` slot holds no context of any kind. -/
theorem wit_empty_slot : (∀ c, ¬ holdsSlot (unit .empty) 0 (.bc c)) ∧ (∀ c, ¬ holdsSlot (unit .empty) 0 (.ctr c)) ∧
    (∀ m, ¬ holdsSlot (unit .empty) 0 (.mgm m)) ∧ (∀ o, ¬ holdsSlot (unit .empty) 0 (.omac o)) :=
  have h : holdsSlot (unit .empty) 0 .empty := rfl
  ⟨fun _ => not_holds h (by simp), fun _ => not_holds h (by simp), fun _ => not_holds h (by simp), fun _ => not_holds h (by simp)⟩
theorem wit_BcEncAndDec : holdsSlot (unit (.bc bcCtx)) 0 (.bc bcCtx) ∧ (fl 0 0 (zeros 7)).plen ≠ bs bcCtx.cipher ∧
    (fl 0 0 (zeros 8)).plen = bs bcCtx.cipher ∧ Lawful (unit (.bc bcCtx)).cfg.bc ∧ bcCtx.key.length = 32 :=
  ⟨rfl, by decide +kernel, by decide +kernel, toy_lawful, by decide +kernel⟩
theorem wit_StdObeysTheLaw : keyK.length = keyLen ∧ (zeros 16).length = bs .grasshopper ∧ (zeros 8).length = bs .magma := by decide +kernel
theorem wit_GfMulCommands : (fl 0 0 (block8 2 ++ block8 3)).ctx = 0 ∧ noOperands (fl 0 0 (block8 2 ++ block8 3)) ∧
    (fl 0 0 (block8 2 ++ block8 3)).payload = block8 2 ++ block8 3 ∧ (block8 2).length = 8 ∧ (block8 3).length = 8 ∧
    (fl 0 0 (zeros 16 ++ bytesOf 16 7)).payload = zeros 16 ++ bytesOf 16 7 ∧ (zeros 16).length = 16 ∧ (bytesOf 16 7).length = 16 := by
  unfold noOperands; decide +kernel
/-- GfMulIsTheFieldProduct, GfMulLaws and DoublingIsMultiplicationByX, with the top bit 1 and 0. -/
theorem wit_blocks : (block8 (2 ^ 63)).length = bs .magma ∧ (bytesOf 16 7).length = bs .grasshopper ∧
    (intOf (block8 (2 ^ 63))).testBit (8 * bs .magma - 1) = true ∧ (intOf (bytesOf 16 7)).testBit (8 * bs .grasshopper - 1) = false := by
  decide +kernel
theorem wit_CtrSetiv : holdsSlot (unit (.ctr ctrCtx)) 0 (.ctr ctrCtx) ∧ 2 * (fl 0 0 (zeros 5)).plen ≠ bs ctrCtx.cipher ∧
    2 * (fl 0 0 (zeros 4)).plen = bs ctrCtx.cipher := ⟨rfl, by decide +kernel, by decide +kernel⟩
theorem wit_CtrSection : holdsSlot (unit (.ctr ctrCtx)) 0 (.ctr ctrCtx) ∧ (fl 0 0 (bytesOf 4 7)).plen = 4 ∧
    intOf (fl 0 0 (bytesOf 4 7)).payload % bs ctrCtx.cipher ≠ 0 ∧ intOf (fl 0 0 (bytesOf 4 0)).payload % bs ctrCtx.cipher = 0 ∧
    intOf (fl 0 0 (bytesOf 4 0xfffffff8)).payload % bs ctrCtx.cipher = 0 := ⟨rfl, by decide +kernel⟩
/-- KeystreamDriver, with the section used up and not, and KeystreamIsPeriodic. -/
theorem wit_Keystream : GenWf .magma ctrCtx.gen ∧ ctrCtx.gen.num = 0 ∧ GenWf .magma { ctrCtx.gen with num := 16 } ∧
    ctrCtx.gen.sect.toNat ≠ 0 ∧ ctrCtx.gen.sect.toNat ≤ (16 : BitVec 64).toNat :=
  ⟨genWf_ctr, rfl, ⟨genWf_ctr.key, genWf_ctr.ctr, genWf_ctr.ks, genWf_ctr.sect⟩, by decide +kernel⟩
/-- CtrCryptRunsTheDriver and CtrChunkingAndInvolution. -/
theorem wit_CtrCrypt : holdsSlot (unit (.ctr ctrCtx)) 0 (.ctr ctrCtx) ∧ ctrCtx.phase = .ivSet ∧
    holdsSlot (unit (.ctr { ctrCtx with phase := .keySet })) 0 (.ctr { ctrCtx with phase := .keySet }) ∧
    ({ ctrCtx with phase := .keySet } : CtrCtx).phase ≠ .ivSet := ⟨rfl, rfl, rfl, by decide⟩
theorem wit_AcpkmMesh : holdsSlot (unit (.bc bcCtx)) 0 (.bc bcCtx) ∧ holdsSlot (unit (.ctr ctrCtx)) 0 (.ctr ctrCtx) := ⟨rfl, rfl⟩
theorem wit_MgmSetiv : holdsSlot (unit (.mgm mgmIv)) 0 (.mgm mgmIv) ∧ (fl 0 0 (zeros 9)).plen ≠ bs mgmIv.cipher ∧
    (fl 0 0 (block8 0x9122334455667788)).plen = bs mgmIv.cipher ∧
    (fl 0 0 (block8 0x9122334455667788)).payload = 0x91 :: bytesOf 7 0x22334455667788 ∧
    (0x11 : Byte) &&& 0x7F#8 = (0x91 : Byte) &&& 0x7F#8 :=
  ⟨rfl, by decide +kernel, by decide +kernel, by decide +kernel, by decide⟩
/-- The lengths 0 and 9 are refused, 1 and 8 taken; a finished context refuses all. -/
theorem wit_Lengths : (fl 0 0 []).imm.toNat < 1 ∧ bs mgmIv.cipher < (fl 0 9 []).imm.toNat ∧ 1 ≤ (fl 0 1 []).imm.toNat ∧
    (fl 0 8 []).imm.toNat ≤ bs mgmIv.cipher ∧ mgmIv.phase ≠ .finalized ∧ (mgmEndCtx .enc).phase = .finalized ∧
    holdsSlot (unit (.mgm (mgmEndCtx .enc))) 0 (.mgm (mgmEndCtx .enc)) ∧ omacNew.phase ≠ .finalized ∧
    holdsSlot (unit (.omac { omacNew with phase := .finalized })) 0 (.omac { omacNew with phase := .finalized }) := by
  refine ⟨by decide, by decide, by decide, by decide, by decide, rfl, rfl, by decide, rfl⟩
/-- The bound of R192 met, and passed by one byte. -/
theorem wit_MgmAad : (mgmDataCtx .enc).phase ≠ .ivSet ∧ (mgmDataCtx .enc).phase ≠ .processingAad ∧ mgmAadCtx.phase = .processingAad ∧
    (let m := { mgmAadCtx with aLen := 0x20000000 }
     m.aLen.toNat + (fl 0 0 []).plen ≤ 2 ^ (bs m.cipher * 4 - 3) ∧ 2 ^ (bs m.cipher * 4 - 3) < m.aLen.toNat + (fl 0 0 [1]).plen) := by
  decide +kernel
theorem wit_MgmData : (mgmEndCtx .enc).phase = .finalized ∧ (mgmDataCtx .dec).dir ≠ .none ∧ (mgmDataCtx .dec).dir ≠ .enc ∧
    mgmIv.phase ≠ .keySet ∧ mgmIv.phase ≠ .finalized ∧ mgmIv.dir = .none ∧
    (let m := { mgmDataCtx .enc with cLen := 0x20000000 }
     m.dir = .enc ∧ m.cLen.toNat + (fl 0 0 []).plen ≤ 2 ^ (bs m.cipher * 4 - 3) ∧
     2 ^ (bs m.cipher * 4 - 3) < m.cLen.toNat + (fl 0 0 [1]).plen) := by decide +kernel
/-- MgmFoldStep and MgmDataLoop. -/
theorem wit_MgmFoldAndLoop : MgmWf mgmIv ∧ (Dir.enc = .enc ∨ Dir.enc = .dec) := ⟨mgmWf_iv, .inl rfl⟩
theorem wit_MgmFinish : holdsSlot (unit (.mgm (mgmDataCtx .enc))) 0 (.mgm (mgmDataCtx .enc)) ∧
    (mgmDataCtx .enc).phase = .processingData ∧ (mgmDataCtx .enc).dir ≠ .dec ∧ (mgmDataCtx .dec).dir = .dec ∧
    mgmIv.phase ≠ .processingAad ∧ mgmIv.phase ≠ .processingData := ⟨rfl, by decide⟩
theorem wit_MgmVerify : holdsSlot (unit (.mgm (mgmDataCtx .dec))) 0 (.mgm (mgmDataCtx .dec)) ∧ (mgmDataCtx .dec).dir ≠ .enc ∧
    (fl 0 0 (zeros 7)).plen ≠ (mgmDataCtx .dec).taglen ∧ (fl 0 0 (block8 0x2dbedd7dc9d3d2d8)).plen = (mgmDataCtx .dec).taglen ∧
    slice (mgmFinish (unit .empty).cfg (mgmDataCtx .dec)).tag 0 8 = block8 0x2dbedd7dc9d3d2d8 ∧
    slice (mgmFinish (unit .empty).cfg (mgmDataCtx .dec)).tag 0 8 ≠ zeros 8 := ⟨rfl, by decide +kernel⟩
theorem wit_MgmPhaseTable : holdsSlot (unit (.mgm mgmIv)) (Instr.mgmAad (fl 0 0 [])).fields.ctx (.mgm mgmIv) ∧
    staticOk (unit (.mgm mgmIv)).nctx (.mgmAad (fl 0 0 [])) = true := ⟨rfl, by decide +kernel⟩
/-- MgmChunkingInvariance and MgmDecUndoesEnc. -/
theorem wit_MgmChunking : holdsSlot (unit (.mgm mgmIv)) 0 (.mgm mgmIv) ∧ mgmIv.phase = .ivSet ∧ mgmIv.dir = .none ∧
    mgmIv.aLen.toNat + ([1] ++ [2, 3] : Bytes).length ≤ mgmLimit mgmIv.cipher ∧
    mgmIv.cLen.toNat + ([1] ++ [2, 3] : Bytes).length ≤ mgmLimit mgmIv.cipher := ⟨rfl, by decide +kernel⟩
/-- A session with a tag of one byte, in the highest slot, and one with a whole tag. -/
theorem wit_MgmClosedForm : (3 : BitVec 4).toNat < (unit .empty).nctx ∧ keyK.length = 32 ∧ (block8 5).length = bs .magma ∧
    1 ≤ (1 : BitVec 8).toNat ∧ (8 : BitVec 8).toNat ≤ bs .magma ∧ ([] : List Bytes).flatten.length ≤ mgmLimit .magma ∧
    ([[1], []] : List Bytes) ≠ [] ∧ ([[1], []] : List Bytes).flatten.length ≤ mgmLimit .magma := by decide +kernel
theorem wit_MgmRoundTrip : holdsSlot (unit (.mgm mgmIv)) 0 (.mgm mgmIv) ∧ MgmWf mgmIv ∧ mgmIv.phase = .ivSet ∧ mgmIv.dir = .none ∧
    mgmIv.sum = zeros (bs mgmIv.cipher) ∧ ([[1, 2]] : List Bytes).flatten = ([[1], [2]] : List Bytes).flatten ∧
    ([[1, 2]] : List Bytes) ≠ [] ∧ ([[1], [2]] : List Bytes) ≠ [] ∧ ([[1, 2]] : List Bytes).flatten.length ≤ mgmLimit mgmIv.cipher :=
  ⟨rfl, mgmWf_iv, rfl, rfl, rfl, by decide +kernel⟩
/-- `OMAC.INITA`: a section size that is no multiple, and the multiples 0 and the largest. -/
theorem wit_OmacInita : (let n : BitVec 32 := 12; n.toNat % bs .magma ≠ 0) ∧ (let n : BitVec 32 := 0; n.toNat % bs .magma = 0) ∧
    (let n : BitVec 32 := 0xfffffff8; n.toNat % bs .magma = 0) ∧ keyK.length = 32 ∧
    keyK ++ bytesOf 8 0x0000001000000040 = keyK ++ bytesOf 4 (16 : BitVec 32).toNat ++ bytesOf 4 (64 : BitVec 32).toNat := by decide +kernel
theorem wit_OmacMeshStep : omacDue.master.isSome = true ∧ omacDue.n.toNat ≠ 0 ∧ omacDue.n.toNat ≤ omacDue.num.toNat ∧
    omacNew.acpkm = false ∧ ({ omacDue with num := 8 } : OmacCtx).num.toNat < omacDue.n.toNat := by decide +kernel
/-- OmacUpdateAbsorbs, OmacFinalAnswersTheMac and OmacChunkingInvariance. -/
theorem wit_Omac : holdsSlot (unit (.omac omacNew)) 0 (.omac omacNew) ∧ omacNew.phase ≠ .finalized := ⟨rfl, by decide⟩
/-- OmacClosedFormPlain, OmacClosedFormAcpkm. -/
theorem wit_OmacClosedForm : (3 : BitVec 4).toNat < (unit .empty).nctx ∧ keyK.length = 32 ∧ 1 ≤ (1 : BitVec 8).toNat ∧
    (16 : BitVec 8).toNat ≤ bs .grasshopper ∧ (48 : BitVec 32).toNat % bs .grasshopper = 0 ∧ (0 : BitVec 32).toNat % bs .grasshopper = 0 := by
  decide +kernel
/-- Both clauses: slot 0 onto itself, and onto slot 3, with commands on slot 3 only. -/
theorem wit_CtxClone : holdsSlot (unit (.bc bcCtx)) (fl 0 0 []).a (.bc bcCtx) ∧ (fl 0 0 []).ctx = (fl 0 0 []).a ∧
    { fl 0 0 [] with ctx := 3 }.ctx ≠ (fl 0 0 []).a ∧ ({ fl 0 0 [] with ctx := 3 }).ctx.toNat < (unit (.bc bcCtx)).nctx ∧
    (∀ i ∈ [Instr.ctxDestroy { fl 0 0 [] with ctx := 3 }], i.fields.ctx ≠ (fl 0 0 []).a) ∧
    runCommands [.ctxDestroy { fl 0 0 [] with ctx := 3 }] (answeredWith (unit (.bc bcCtx)) 3 (.bc bcCtx) .ok [])
      = some (answeredWith (answeredWith (unit (.bc bcCtx)) 3 (.bc bcCtx) .ok []) 3 .empty .ok []) :=
  ⟨rfl, by decide +kernel, by decide +kernel, by decide +kernel, by decide +kernel, rfl⟩
theorem wit_CtxDestroyAndQuery : holdsSlot (unit .empty) 0 .empty ∧ holdsSlot (unit (.omac omacNew)) 0 (.omac omacNew) ∧
    noOperands (fl 0 0 []) ∧ (fl 0 0 []).payload = [] := ⟨rfl, rfl, ⟨rfl, rfl⟩, rfl⟩
theorem wit_Nop : (waiting (zeros 8)).cmd = zeros 8 :: [] := rfl

end Sys2Proof.Tests
end

/-! ### The block cipher core: `BC.SETKEY` (O18) -/

namespace Sys2Proof.Machine

/-- A payload of exactly one key is the key operand whole (R101, R144, R182, R244). -/
theorem keyOperand_of_length {f : Fields} (h : f.payload.length = 32) : keyOperand f = f.payload :=
  slice_zero_length h

/-- Past the static checks, and with the code of a cipher in `A`, `BC.SETKEY` writes the slot without reading it. -/
theorem execBcSetkey_of_staticOk {s : State} {f : Fields} {c : Cipher} (hs : staticOk s.nctx (.bcSetkey f) = true)
    (ha : f.a.toNat = cipherCode c) :
    execBcSetkey f s =
      .next (answeredWith s f.ctx (.bc { cipher := c, key := keyOperand f, phase := .keySet }) .ok []) := by
  unfold execBcSetkey
  rw [checked_of_staticOk _ hs, withCipher_of_code _ ha, respond_setSlot_eq]

/-- Settles O18: the creating form passes the static checks, and its 32 bytes of payload are the key operand. -/
theorem bcSetkeyKeysTheSlot : Obligations.BcSetkeyKeysTheSlot := by
  unfold Obligations.BcSetkeyKeysTheSlot
  intro s f c
  refine ⟨rfl, fun hform => ?_⟩
  have hs : staticOk s.nctx (.bcSetkey f) = true := staticOk_create rfl rfl hform
  obtain ⟨-, ha, -, hlen⟩ := hform
  calc exec (.bcSetkey f) s = execBcSetkey f s := rfl
    _ = .next (answeredWith s f.ctx (.bc { cipher := c, key := keyOperand f, phase := .keySet }) .ok []) :=
      execBcSetkey_of_staticOk hs ha
    _ = .next (answeredWith s f.ctx (.bc { cipher := c, key := f.payload, phase := .keySet }) .ok []) := by
      rw [keyOperand_of_length hlen]

end Sys2Proof.Machine

/-! ### The rekeying step (O25) -/

namespace Sys2Proof.Machine

/-- A key of Magma is four blocks (R5), so its rekeying step encrypts four constants. -/
theorem acpkmNextKey_magma (cfg : Config) (k : Bytes) :
    acpkmNextKey cfg .magma k =
      encBlock cfg.bc .magma k (acpkmConst cfg .magma 0) ++ encBlock cfg.bc .magma k (acpkmConst cfg .magma 1) ++
        encBlock cfg.bc .magma k (acpkmConst cfg .magma 2) ++ encBlock cfg.bc .magma k (acpkmConst cfg .magma 3) := by
  have hrange : List.range (blocksPerKey .magma) = [0, 1, 2, 3] := by decide
  simp only [acpkmNextKey, hrange, List.flatMap_cons, List.flatMap_nil, List.append_nil, List.append_assoc]

/-- A key of Grasshopper is two blocks (R5), so its rekeying step encrypts two constants. -/
theorem acpkmNextKey_grasshopper (cfg : Config) (k : Bytes) :
    acpkmNextKey cfg .grasshopper k =
      encBlock cfg.bc .grasshopper k (acpkmConst cfg .grasshopper 0) ++
        encBlock cfg.bc .grasshopper k (acpkmConst cfg .grasshopper 1) := by
  have hrange : List.range (blocksPerKey .grasshopper) = [0, 1] := by decide
  simp only [acpkmNextKey, hrange, List.flatMap_cons, List.flatMap_nil, List.append_nil]

/-- Settles O25: the constants of each cipher in order, and the width of a meshed key. -/
theorem rekeyingStep : Obligations.RekeyingStep := by
  unfold Obligations.RekeyingStep
  intro cfg k
  exact ⟨acpkmNextKey_magma cfg k, acpkmNextKey_grasshopper cfg k, fun c => length_acpkmNextKey cfg c k⟩

end Sys2Proof.Machine

/-! ### The commands that set up a CTR context: `CTR.SETKEY`, `CTR.SETIV`, `CTR.SECTION` (O26, O27, O28) -/

namespace Sys2Proof.Machine

/-- Past the static checks, and with the code of a cipher in `A`, `CTR.SETKEY` writes the slot without reading it. -/
theorem execCtrSetkey_of_staticOk {s : State} {f : Fields} {c : Cipher} (hs : staticOk s.nctx (.ctrSetkey f) = true)
    (ha : f.a.toNat = cipherCode c) :
    execCtrSetkey f s = .next (answeredWith s f.ctx (.ctr
      { cipher := c, phase := .keySet,
        gen := { key := keyOperand f, ctr := zeros (bs c), ks := zeros (bs c), num := 0, sect := 0 } }) .ok []) := by
  unfold execCtrSetkey
  rw [checked_of_staticOk _ hs, withCipher_of_code _ ha, respond_setSlot_eq]

/-- Settles O26: the creating form passes the static checks, and its 32 bytes of payload are the key operand. -/
theorem ctrSetkeyCreates : Obligations.CtrSetkeyCreates := by
  unfold Obligations.CtrSetkeyCreates
  intro s f c
  refine ⟨rfl, fun hform => ?_⟩
  have hs : staticOk s.nctx (.ctrSetkey f) = true := staticOk_create rfl rfl hform
  obtain ⟨-, ha, -, hlen⟩ := hform
  rw [← keyOperand_of_length hlen]
  exact execCtrSetkey_of_staticOk hs ha

/-- R145 (2) asks for `BS/2` bytes; no rounding is in it, since the block sizes are even. -/
theorem eq_halfBs_iff {n : Nat} {c : Cipher} : n = halfBs c ↔ 2 * n = bs c := by
  have h := halfBs_add_halfBs c
  omega

/-- R145 (1): on a slot that is not `CTR`, `CTR.SETIV` answers `KeyNotSet`. -/
theorem execCtrSetiv_of_other {s : State} {f : Fields} (hs : staticOk s.nctx (.ctrSetiv f) = true)
    (hctx : f.ctx.toNat < s.nctx) (hother : ∀ c, ¬ holdsSlot s f.ctx (.ctr c)) :
    execCtrSetiv f s = .next (answered s .keyNotSet []) := by
  rw [execCtrSetiv, checked_of_staticOk _ hs, withCtr_of_other _ hctx hother]

/-- R145 (2): on a `CTR` slot, a payload that is not half a block is an `IllegalCommand`. -/
theorem execCtrSetiv_of_bad_length {s : State} {f : Fields} {c : CtrCtx} (hs : staticOk s.nctx (.ctrSetiv f) = true)
    (hc : s.slot f.ctx = .ctr c) (hlen : f.plen ≠ halfBs c.cipher) :
    execCtrSetiv f s = .next (answered s .illegalCommand []) := by
  rw [execCtrSetiv, checked_of_staticOk _ hs, withCtr_of_slot _ hc, beq_eq_false_iff_ne.mpr hlen, require_false]

/-- Past both checks `CTR.SETIV` loads the counter block and resets the position (R145). -/
theorem execCtrSetiv_of_half_block {s : State} {f : Fields} {c : CtrCtx} (hs : staticOk s.nctx (.ctrSetiv f) = true)
    (hc : s.slot f.ctx = .ctr c) (hlen : f.plen = halfBs c.cipher) :
    execCtrSetiv f s = .next (answeredWith s f.ctx (.ctr
      { c with
        phase := .ivSet,
        gen := { c.gen with ctr := f.payload ++ zeros f.plen, ks := zeros (bs c.cipher), num := 0 } }) .ok []) := by
  rw [execCtrSetiv, checked_of_staticOk _ hs, withCtr_of_slot _ hc, beq_iff_eq.mpr hlen, require_true,
    respond_setSlot_eq, hlen]

/-- Settles O27: the kind check and the length check one after the other, and what is written past both. -/
theorem ctrSetivRestartsTheStream : Obligations.CtrSetivRestartsTheStream := by
  unfold Obligations.CtrSetivRestartsTheStream
  intro s f
  refine ⟨rfl, fun hctx h0 => ?_⟩
  have hs : staticOk s.nctx (.ctrSetiv f) = true := staticOk_slot rfl rfl hctx h0
  refine ⟨fun hother => ?_, fun c hc hlen => ?_, fun c hc hlen => ?_⟩
  · exact execCtrSetiv_of_other hs hctx hother
  · exact execCtrSetiv_of_bad_length hs (slot_of_holdsSlot hc) (mt eq_halfBs_iff.mp hlen)
  · exact execCtrSetiv_of_half_block hs (slot_of_holdsSlot hc) (eq_halfBs_iff.mpr hlen)

/-- The four bytes of `CTR.SECTION` are a 32-bit number, so storing them loses nothing (R148). -/
theorem toNat_sectionSize {f : Fields} (hlen : f.plen = 4) : (BitVec.ofNat 32 (sectionSize f)).toNat = intOf f.payload := by
  have hlt : intOf f.payload < 256 ^ f.plen := intOf_lt f.payload
  rw [hlen] at hlt
  rw [BitVec.toNat_ofNat, sectionSize, Nat.mod_eq_of_lt (by omega)]

/-- R148 (1): on a slot that is not `CTR`, `CTR.SECTION` answers `KeyNotSet`. -/
theorem execCtrSection_of_other {s : State} {f : Fields} (hs : staticOk s.nctx (.ctrSection f) = true)
    (hctx : f.ctx.toNat < s.nctx) (hother : ∀ c, ¬ holdsSlot s f.ctx (.ctr c)) :
    execCtrSection f s = .next (answered s .keyNotSet []) := by
  rw [execCtrSection, checked_of_staticOk _ hs, withCtr_of_other _ hctx hother]

/-- R148 (2): on a `CTR` slot, a section size that is no whole number of blocks is an `IllegalCommand`. -/
theorem execCtrSection_of_not_blocks {s : State} {f : Fields} {c : CtrCtx}
    (hs : staticOk s.nctx (.ctrSection f) = true) (hc : s.slot f.ctx = .ctr c) (hmod : sectionSize f % bs c.cipher ≠ 0) :
    execCtrSection f s = .next (answered s .illegalCommand []) := by
  rw [execCtrSection, checked_of_staticOk _ hs, withCtr_of_slot _ hc, beq_eq_false_iff_ne.mpr hmod, require_false]

/-- Past both checks `CTR.SECTION` writes the section size and nothing else (R148). -/
theorem execCtrSection_of_blocks {s : State} {f : Fields} {c : CtrCtx} (hs : staticOk s.nctx (.ctrSection f) = true)
    (hc : s.slot f.ctx = .ctr c) (hmod : sectionSize f % bs c.cipher = 0) :
    execCtrSection f s = .next (answeredWith s f.ctx
      (.ctr { c with gen := { c.gen with sect := BitVec.ofNat 32 (sectionSize f) } }) .ok []) := by
  rw [execCtrSection, checked_of_staticOk _ hs, withCtr_of_slot _ hc, beq_iff_eq.mpr hmod, require_true,
    respond_setSlot_eq]

/-- Settles O28: the kind check and the multiple of the block size one after the other, and the one field written past both. -/
theorem ctrSectionSetsTheSize : Obligations.CtrSectionSetsTheSize := by
  unfold Obligations.CtrSectionSetsTheSize
  intro s f
  refine ⟨rfl, fun hctx h0 hlen => ?_⟩
  have hs : staticOk s.nctx (.ctrSection f) = true := staticOk_slot_fixed rfl rfl hctx h0 hlen
  refine ⟨fun hother => ?_, fun c hc hmod => ?_, fun c hc hmod => ?_⟩
  · exact execCtrSection_of_other hs hctx hother
  · exact execCtrSection_of_not_blocks hs (slot_of_holdsSlot hc) hmod
  · exact ⟨BitVec.ofNat 32 (sectionSize f), toNat_sectionSize hlen,
      execCtrSection_of_blocks hs (slot_of_holdsSlot hc) hmod⟩

end Sys2Proof.Machine

/-! ### The keystream driver (O29) -/

namespace Sys2Proof.Machine

theorem sectionDue_iff (g : CtrGen) : sectionDue g = true ↔ g.sect.toNat ≠ 0 ∧ g.sect.toNat ≤ g.num.toNat := by
  simp [sectionDue, BitVec.toNat_eq]

/-- Meshing writes the key and the counter, and only where the section is used up (R149). -/
theorem ctrMesh_eq (cfg : Config) (c : Cipher) (g : CtrGen) :
    ctrMesh cfg c g =
      { g with
        key := if g.sect.toNat ≠ 0 ∧ g.sect.toNat ≤ g.num.toNat then acpkmNextKey cfg c g.key else g.key,
        num := if g.sect.toNat ≠ 0 ∧ g.sect.toNat ≤ g.num.toNat then maskNum c g.num else g.num } := by
  by_cases hdue : g.sect.toNat ≠ 0 ∧ g.sect.toNat ≤ g.num.toNat
  · rw [ctrMesh, if_pos ((sectionDue_iff g).mpr hdue), if_pos hdue, if_pos hdue]
  · rw [ctrMesh, if_neg (mt (sectionDue_iff g).mp hdue), if_neg hdue, if_neg hdue]

theorem maskNum_eq_ofNat_mod (c : Cipher) (num : BitVec 64) : maskNum c num = BitVec.ofNat 64 (num.toNat % bs c) := by
  rw [← toNat_maskNum, BitVec.ofNat_toNat, BitVec.setWidth_eq]

/-- On a block, `incr_full` adds one modulo `2^(8 BS)` (R146). -/
theorem incrFull_of_isBlock {c : Cipher} {b : Bytes} (h : IsBlock c b) :
    incrFull b = bytesOf (bs c) ((intOf b + 1) % 2 ^ (8 * bs c)) := by
  have hlen : b.length = bs c := h
  rw [← pow_eight_mul_bs, bytesOf_mod, incrFull, hlen]

/-- The 64-bit counter counts modulo `2^64`. -/
theorem add_one_eq_ofNat (num : BitVec 64) : num + 1 = BitVec.ofNat 64 ((num.toNat + 1) % 2 ^ 64) :=
  BitVec.eq_of_toNat_eq (by simp)

/-- Settles O29: a byte takes what `ctrReady` has at hand, and away from a block boundary that is the generator as it was. -/
theorem keystreamDriver : Obligations.KeystreamDriver := by
  unfold Obligations.KeystreamDriver
  intro cfg c g hwf
  refine ⟨ctrStream_nil cfg c g, ?_⟩
  intro b data due key num g1 g2
  have hready : ctrReady cfg c g = g1 := by
    unfold ctrReady
    by_cases hboundary : g.num.toNat % bs c = 0
    · simp only [g1, key, num, due, if_pos hboundary, ctrRefill, ctrMesh_eq, maskNum_eq_ofNat_mod,
        incrFull_of_isBlock hwf.ctr]
    · simp only [g1, if_neg hboundary]
  have hout : (ctrByte cfg c g b).1 = b ^^^ g1.ks.getD (g1.num.toNat % bs c) 0 := by
    rw [ctrByte_fst, hready]
  have hnext : (ctrByte cfg c g b).2 = g2 := by
    rw [ctrByte_snd, hready, add_one_eq_ofNat]
  rw [ctrStream_cons, hout, hnext]

end Sys2Proof.Machine

/-! ### `ACPKM.MESH` (O33) -/

namespace Sys2Proof.Machine

/-- On a `BC` context `ACPKM.MESH` replaces the key and nothing else (R152). -/
theorem execAcpkmMesh_of_bc {s : State} {f : Fields} {c : BcCtx} (hs : staticOk s.nctx (.acpkmMesh f) = true)
    (hc : s.slot f.ctx = .bc c) :
    execAcpkmMesh f s =
      .next (answeredWith s f.ctx (.bc { c with key := acpkmNextKey s.cfg c.cipher c.key }) .ok []) := by
  rw [execAcpkmMesh, checked_of_staticOk _ hs, hc]
  exact respond_setSlot_eq ..

/-- On a `CTR` context `ACPKM.MESH` replaces the key and masks `num`, whatever the phase and the section size (R152). -/
theorem execAcpkmMesh_of_ctr {s : State} {f : Fields} {c : CtrCtx} (hs : staticOk s.nctx (.acpkmMesh f) = true)
    (hc : s.slot f.ctx = .ctr c) :
    execAcpkmMesh f s = .next (answeredWith s f.ctx (.ctr
      { c with gen := { c.gen with key := acpkmNextKey s.cfg c.cipher c.gen.key, num := maskNum c.cipher c.gen.num } })
      .ok []) := by
  rw [execAcpkmMesh, checked_of_staticOk _ hs, hc]
  exact respond_setSlot_eq ..

/-- On every other kind of slot, an empty one included, `ACPKM.MESH` answers `KeyNotSet` (R152). -/
theorem execAcpkmMesh_of_other {s : State} {f : Fields} (hs : staticOk s.nctx (.acpkmMesh f) = true)
    (hbc : ∀ c, s.slot f.ctx ≠ .bc c) (hctr : ∀ c, s.slot f.ctx ≠ .ctr c) :
    execAcpkmMesh f s = .next (answered s .keyNotSet []) := by
  rw [execAcpkmMesh, checked_of_staticOk _ hs]
  cases hx : s.slot f.ctx with
  | bc c => exact absurd hx (hbc c)
  | ctr c => exact absurd hx (hctr c)
  | empty => exact raise_eq s .keyNotSet
  | mgm m => exact raise_eq s .keyNotSet
  | omac o => exact raise_eq s .keyNotSet

/-- Settles O33: the three kinds of slot; the masked counter is the remainder of `num` modulo the block size. -/
theorem acpkmMeshRekeysOnce : Obligations.AcpkmMeshRekeysOnce := by
  unfold Obligations.AcpkmMeshRekeysOnce
  intro s f
  refine ⟨rfl, fun hctx h0 hpay => ?_⟩
  have hs : staticOk s.nctx (.acpkmMesh f) = true :=
    staticOk_slot_fixed rfl rfl hctx h0 (List.length_eq_zero_iff.mpr hpay)
  refine ⟨fun c hc => ?_, fun c hc => ?_, fun hbc hctr => ?_⟩
  · exact execAcpkmMesh_of_bc hs (slot_of_holdsSlot hc)
  · exact ⟨maskNum c.cipher c.gen.num, toNat_maskNum c.cipher c.gen.num, execAcpkmMesh_of_ctr hs (slot_of_holdsSlot hc)⟩
  · exact execAcpkmMesh_of_other hs (fun c => slot_ne_of_not_holdsSlot hctx (hbc c))
      (fun c => slot_ne_of_not_holdsSlot hctx (hctr c))

end Sys2Proof.Machine

/-! ### A new MGM context and a new MGM message: `MGM.INIT`, `MGM.SETIV` (O35, O36) -/

namespace Sys2Proof.Machine

/-- Past the static checks, and with the code of a cipher in `A`, `MGM.INIT` writes the slot without reading it. -/
theorem execMgmInit_of_staticOk {s : State} {f : Fields} {c : Cipher} (hs : staticOk s.nctx (.mgmInit f) = true)
    (ha : f.a.toNat = cipherCode c) :
    execMgmInit f s = .next (answeredWith s f.ctx (.mgm
      { cipher := c, key := keyOperand f, phase := .keySet, dir := .none, taglen := bs c, nonce := zeros (bs c),
        z := zeros (bs c), y := zeros (bs c), sum := zeros (bs c), aLen := 0, cLen := 0, ares := 0, mres := 0,
        abuf := zeros (bs c), cbuf := zeros (bs c), ks := zeros (bs c), tag := zeros (bs c) }) .ok []) := by
  rw [execMgmInit, checked_of_staticOk _ hs, withCipher_of_code _ ha, respond_setSlot_eq]

/-- Settles O35: the creating form passes the static checks, and its 32 bytes of payload are the key operand. -/
theorem mgmInitCreates : Obligations.MgmInitCreates := by
  unfold Obligations.MgmInitCreates
  intro s f c
  refine ⟨rfl, fun hform => ?_⟩
  have hs : staticOk s.nctx (.mgmInit f) = true := staticOk_create rfl rfl hform
  obtain ⟨-, ha, -, hlen⟩ := hform
  rw [← keyOperand_of_length hlen]
  exact execMgmInit_of_staticOk hs ha

@[simp] theorem settop_cons_true (b : Byte) (r : Bytes) : settop (b :: r) true = (b ||| 0x80#8) :: r := rfl

@[simp] theorem settop_cons_false (b : Byte) (r : Bytes) : settop (b :: r) false = (b &&& 0x7F#8) :: r := rfl

/-- A payload of one block is not empty, so it has a first byte for `settop` to clear. -/
theorem exists_cons_of_length_eq_bs {c : Cipher} {p : Bytes} (h : p.length = bs c) : ∃ b r, p = b :: r :=
  List.exists_cons_of_length_pos (h ▸ bs_pos c)

/-- R183 (1): on a slot that is not `MGM`, `MGM.SETIV` answers `KeyNotSet`. -/
theorem execMgmSetiv_of_other {s : State} {f : Fields} (hs : staticOk s.nctx (.mgmSetiv f) = true)
    (hctx : f.ctx.toNat < s.nctx) (hother : ∀ m, ¬ holdsSlot s f.ctx (.mgm m)) :
    execMgmSetiv f s = .next (answered s .keyNotSet []) := by
  rw [execMgmSetiv, checked_of_staticOk _ hs, withMgm_of_other _ hctx hother]

/-- R183 (2): on an `MGM` slot, a payload that is not one block is an `IllegalCommand`. -/
theorem execMgmSetiv_of_bad_length {s : State} {f : Fields} {m : MgmCtx} (hs : staticOk s.nctx (.mgmSetiv f) = true)
    (hm : s.slot f.ctx = .mgm m) (hlen : f.plen ≠ bs m.cipher) :
    execMgmSetiv f s = .next (answered s .illegalCommand []) := by
  rw [execMgmSetiv, checked_of_staticOk _ hs, withMgm_of_slot _ hm, beq_eq_false_iff_ne.mpr hlen, require_false]

/-- Past both checks, whatever the phase, `MGM.SETIV` keeps the cipher, the key and the tag length, and of the payload
only what `settop` leaves (R183). -/
theorem execMgmSetiv_of_block {s : State} {f : Fields} {m : MgmCtx} (hs : staticOk s.nctx (.mgmSetiv f) = true)
    (hm : s.slot f.ctx = .mgm m) (hlen : f.plen = bs m.cipher) :
    execMgmSetiv f s = .next (answeredWith s f.ctx (.mgm
      { cipher := m.cipher, key := m.key, taglen := m.taglen, nonce := settop f.payload false, phase := .ivSet,
        dir := .none, z := zeros (bs m.cipher), y := zeros (bs m.cipher), sum := zeros (bs m.cipher), aLen := 0,
        cLen := 0, ares := 0, mres := 0, abuf := zeros (bs m.cipher), cbuf := zeros (bs m.cipher),
        ks := zeros (bs m.cipher), tag := zeros (bs m.cipher) }) .ok []) := by
  rw [execMgmSetiv, checked_of_staticOk _ hs, withMgm_of_slot _ hm, beq_iff_eq.mpr hlen, require_true,
    respond_setSlot_eq]

/-- Two nonces of one block that `settop` makes equal start the same message (R183). -/
theorem execMgmSetiv_congr_settop {s : State} {f g : Fields} {m : MgmCtx} (hsf : staticOk s.nctx (.mgmSetiv f) = true)
    (hsg : staticOk s.nctx (.mgmSetiv g) = true) (hctx : g.ctx = f.ctx) (hm : s.slot f.ctx = .mgm m)
    (hf : f.plen = bs m.cipher) (hg : g.plen = bs m.cipher) (hnonce : settop g.payload false = settop f.payload false) :
    execMgmSetiv g s = execMgmSetiv f s := by
  rw [execMgmSetiv_of_block hsf hm hf, execMgmSetiv_of_block hsg (hctx ▸ hm) hg, hctx, hnonce]

/-- Settles O36: the kind check and the length check one after the other, what is written past both, and that it reads
the nonce through `settop` only. -/
theorem mgmSetivStartsAMessage : Obligations.MgmSetivStartsAMessage := by
  unfold Obligations.MgmSetivStartsAMessage
  refine ⟨fun b r => ⟨settop_cons_true b r, settop_cons_false b r⟩, fun s f => ⟨rfl, fun hctx h0 => ?_⟩⟩
  have hs : staticOk s.nctx (.mgmSetiv f) = true := staticOk_slot rfl rfl hctx h0
  refine ⟨fun hother => ?_, fun m hm hlen => ?_, fun m hm hlen => ?_⟩
  · exact execMgmSetiv_of_other hs hctx hother
  · exact execMgmSetiv_of_bad_length hs (slot_of_holdsSlot hm) hlen
  · obtain ⟨b, r, hp⟩ := exists_cons_of_length_eq_bs hlen
    have hslot : s.slot f.ctx = .mgm m := slot_of_holdsSlot hm
    refine ⟨b, r, hp, ?_, fun b' hb => ?_⟩
    · rw [← settop_cons_false, ← hp]
      exact execMgmSetiv_of_block hs hslot hlen
    · have hs' : staticOk s.nctx (.mgmSetiv { f with payload := b' :: r }) = true := staticOk_slot rfl rfl hctx h0
      have hlen' : (b' :: r).length = bs m.cipher := by rw [← hlen, Fields.plen, hp, List.length_cons, List.length_cons]
      have hnonce : settop (b' :: r) false = settop f.payload false := by
        rw [hp, settop_cons_false, settop_cons_false, hb]
      exact execMgmSetiv_congr_settop hs hs' rfl hslot hlen hlen' hnonce

end Sys2Proof.Machine

/-! ### The MGM finishing procedure (O41) -/

namespace Sys2Proof.Machine

/-- `bytes_k` reads a number modulo `2^(8k)` (R13). -/
theorem bytesOf_mod_two_pow (k v : Nat) : bytesOf k (v % 2 ^ (8 * k)) = bytesOf k v := by
  rw [Nat.pow_mul]
  exact bytesOf_mod k v

/-- Each field of the length block is a bit count modulo its width, half a block (R189). -/
theorem mgmLengthBlock_eq (m : MgmCtx) :
    mgmLengthBlock m =
      bytesOf (bs m.cipher / 2) (8 * m.aLen.toNat % 2 ^ (8 * (bs m.cipher / 2))) ++
        bytesOf (bs m.cipher / 2) (8 * m.cLen.toNat % 2 ^ (8 * (bs m.cipher / 2))) := by
  rw [bytesOf_mod_two_pow, bytesOf_mod_two_pow, mgmLengthBlock, halfBs]

/-- Folding the waiting blocks leaves the two counts, so the length block, as they were. -/
theorem mgmLengthBlock_flushed (cfg : Config) (m : MgmCtx) :
    mgmLengthBlock (mgmFlushData cfg (mgmFlushAad cfg m)) = mgmLengthBlock m := by
  simp only [mgmLengthBlock, mgmFlushData_cipher, mgmFlushAad_cipher, mgmFlushData_aLen, mgmFlushAad_aLen,
    mgmFlushData_cLen, mgmFlushAad_cLen]

/-- No fold of the finishing procedure touches the cipher or the key, so the tag is made under the message's own. -/
theorem mgmFinish_eq (cfg : Config) (m : MgmCtx) :
    mgmFinish cfg m =
      { mgmFold cfg (mgmFlushData cfg (mgmFlushAad cfg m)) (mgmLengthBlock m) with
        tag := encBlock cfg.bc m.cipher m.key
          (mgmFold cfg (mgmFlushData cfg (mgmFlushAad cfg m)) (mgmLengthBlock m)).sum,
        phase := .finalized } := by
  simp only [mgmFinish, mgmLengthBlock_flushed, mgmE, mgmFold_cipher, mgmFold_key, mgmFlushData_cipher,
    mgmFlushData_key, mgmFlushAad_cipher, mgmFlushAad_key]

/-- Settles O41: the two flushes in order, neither of which changes what the length block counts. -/
theorem mgmFinishingProcedure : Obligations.MgmFinishingProcedure := by
  unfold Obligations.MgmFinishingProcedure
  intro cfg m h m1 m2 len m3
  have hm1 : mgmFlushAad cfg m = m1 := rfl
  have hm2 : mgmFlushData cfg m1 = m2 := by
    have hcipher : m1.cipher = m.cipher := mgmFlushAad_cipher cfg m
    rw [mgmFlushData, hcipher]
  have hlen : mgmLengthBlock m = len := mgmLengthBlock_eq m
  rw [mgmFinish_eq, hm1, hm2, hlen]

end Sys2Proof.Machine

/-! ### New OMAC contexts: `OMAC.INIT`, `OMAC.INITA` (O49, O50) -/

namespace Sys2Proof.Machine

/-- Past the static checks, and with the code of a cipher in `A`, `OMAC.INIT` writes the slot without reading it. -/
theorem execOmacInit_of_staticOk {s : State} {f : Fields} {c : Cipher} (hs : staticOk s.nctx (.omacInit f) = true)
    (ha : f.a.toNat = cipherCode c) :
    execOmacInit f s = .next (answeredWith s f.ctx (.omac
      { cipher := c, phase := .keySet, key := keyOperand f,
        k1 := dbl c (encBlock s.cfg.bc c (keyOperand f) (zeros (bs c))),
        k2 := dbl c (dbl c (encBlock s.cfg.bc c (keyOperand f) (zeros (bs c)))), chain := zeros (bs c),
        lbuf := zeros (bs c), nlast := 0, num := 0, n := 0, maclen := bs c, mac := zeros (bs c), master := none })
      .ok []) := by
  rw [execOmacInit, checked_of_staticOk _ hs, withCipher_of_code _ ha, respond_setSlot_eq]

/-- Settles O49: the creating form passes the static checks, its 32 bytes of payload are the key operand, and a context
without a master has `acpkm = 0`. -/
theorem omacInitCreates : Obligations.OmacInitCreates := by
  unfold Obligations.OmacInitCreates
  intro s f c
  refine ⟨rfl, fun hform => ?_⟩
  have hs : staticOk s.nctx (.omacInit f) = true := staticOk_create rfl rfl hform
  obtain ⟨-, ha, -, hlen⟩ := hform
  rw [← keyOperand_of_length hlen]
  exact ⟨execOmacInit_of_staticOk hs ha, rfl⟩

/-- The bytes of a string between two others, from the offset where they begin to the one where they end. -/
theorem slice_append_middle {a b r : Bytes} {i j : Nat} (hi : a.length = i) (hj : i + b.length = j) :
    slice (a ++ b ++ r) i j = b := by
  subst hi hj
  simp [slice]

/-- A 32-bit number is read back from its four bytes. -/
theorem intOf_bytesOf_toNat (v : BitVec 32) : intOf (bytesOf 4 v.toNat) = v.toNat := by
  rw [intOf_bytesOf]
  exact Nat.mod_eq_of_lt v.isLt

/-- R247: the key is `payload[0:32]`. -/
theorem keyOperand_of_inita {f : Fields} {key r : Bytes} (hkey : key.length = 32) (hp : f.payload = key ++ r) :
    keyOperand f = key := by
  rw [keyOperand, hp]
  exact slice_append_middle (a := []) rfl (by rw [hkey]; rfl)

/-- R247: `N` is `int(payload[32:36])`. -/
theorem initaN_append {key r : Bytes} (n : BitVec 32) (hkey : key.length = 32) :
    initaN (key ++ bytesOf 4 n.toNat ++ r) = n.toNat := by
  rw [initaN, slice_append_middle hkey (by rw [length_bytesOf]), intOf_bytesOf_toNat]

/-- R247: `T*` is `int(payload[36:40])`. -/
theorem initaT_append {key m : Bytes} (t : BitVec 32) (hkey : key.length = 32) (hm : m.length = 4) :
    initaT (key ++ m ++ bytesOf 4 t.toNat) = t.toNat := by
  have hcut : slice (key ++ m ++ bytesOf 4 t.toNat ++ []) 36 40 = bytesOf 4 t.toNat :=
    slice_append_middle (by rw [List.length_append, hkey, hm]) (by rw [length_bytesOf])
  rw [List.append_nil] at hcut
  rw [initaT, hcut, intOf_bytesOf_toNat]

/-- The one static check that `OMAC.INITA` has of its own (R79 (6)). -/
theorem sectionsOk_omacInita_iff {f : Fields} {c : Cipher} (ha : f.a.toNat = cipherCode c) :
    sectionsOk (.omacInita f) = true ↔ initaN f.payload % bs c = 0 ∧ initaT f.payload % bs c = 0 := by
  simp [sectionsOk, cipherOf_of_code ha]

theorem staticOk_of_not_sectionsOk {i : Instr} (nctx : Nat) (h : sectionsOk i = false) : staticOk nctx i = false := by
  rw [staticOk, h, Bool.and_false]

/-- The section size is kept in 32 bits, so a 32-bit `T*` is kept whole. -/
theorem masterInit_toNat (c : Cipher) (key : Bytes) (t : BitVec 32) :
    masterInit c key t.toNat =
      { key := key, ctr := List.replicate (bs c / 2) 0xFF#8 ++ zeros (bs c / 2), ks := zeros (bs c), num := 0,
        sect := t } := by
  rw [masterInit, halfBs, BitVec.ofNat_toNat, BitVec.setWidth_eq]

/-- Past the static checks, and with the code of a cipher in `A`, `OMAC.INITA` writes the slot without reading it: the
master's first bytes are the key material, and the master stays as they leave it (R247). -/
theorem execOmacInita_of_staticOk {s : State} {f : Fields} {c : Cipher} (hs : staticOk s.nctx (.omacInita f) = true)
    (ha : f.a.toNat = cipherCode c) :
    let r := masterKeys s.cfg c (masterInit c (keyOperand f) (initaT f.payload))
    let k1 := slice r.1 keyLen (keyLen + bs c)
    execOmacInita f s = .next (answeredWith s f.ctx (.omac
      { cipher := c, phase := .keySet, key := slice r.1 0 keyLen, k1 := k1, k2 := dbl c k1, chain := zeros (bs c),
        lbuf := zeros (bs c), nlast := 0, num := 0, n := BitVec.ofNat 32 (initaN f.payload), maclen := bs c,
        mac := zeros (bs c), master := some r.2 }) .ok []) := by
  rw [execOmacInita, checked_of_staticOk _ hs, withCipher_of_code _ ha, respond_setSlot_eq]
  rfl

/-- A section size that is no whole number of blocks makes `OMAC.INITA` an `IllegalCommand` (R247). -/
theorem execOmacInita_of_not_sectionsOk {s : State} {f : Fields} (h : sectionsOk (.omacInita f) = false) :
    execOmacInita f s = .next (answered s .illegalCommand []) := by
  rw [execOmacInita, checked_of_not_staticOk _ (staticOk_of_not_sectionsOk _ h)]

/-- Settles O50: the three operands are read back from the payload, and the sixth static check decides between the two
outcomes. -/
theorem omacInitaCreates : Obligations.OmacInitaCreates := by
  unfold Obligations.OmacInitaCreates
  intro s f c key n t
  refine ⟨rfl, fun hform hkey hp => ?_⟩
  have ⟨_, ha, _, _⟩ := hform
  have hN : initaN f.payload = n.toNat := by rw [hp, initaN_append n hkey]
  have hT : initaT f.payload = t.toNat := by rw [hp, initaT_append t hkey (length_bytesOf 4 _)]
  have hsections : sectionsOk (.omacInita f) = true ↔ n.toNat % bs c = 0 ∧ t.toNat % bs c = 0 := by
    rw [sectionsOk_omacInita_iff ha, hN, hT]
  refine ⟨fun hbad => ?_, fun hn ht => ⟨?_, rfl⟩⟩
  · exact execOmacInita_of_not_sectionsOk (Bool.eq_false_iff.mpr fun h => by have := hsections.mp h; omega)
  · have hs : staticOk s.nctx (.omacInita f) = true := staticOk_create rfl (hsections.mpr ⟨hn, ht⟩) hform
    have hkeyOp : keyOperand f = key := keyOperand_of_inita hkey (hp.trans (List.append_assoc ..))
    have hexec := execOmacInita_of_staticOk hs ha
    rw [hkeyOp, hN, hT, masterInit_toNat, BitVec.ofNat_toNat, BitVec.setWidth_eq] at hexec
    exact hexec

end Sys2Proof.Machine

/-! ### The end of an OMAC message: `OMAC.FINAL` (O53) -/

namespace Sys2Proof.Machine

theorem omacOpen_eq_false {o : OmacCtx} (h : o.phase = .finalized) : omacOpen o = false :=
  Bool.eq_false_iff.mpr fun hopen => (omacOpen_iff o).mp hopen h

/-- R252 (1): on a slot that is not `OMAC`, `OMAC.FINAL` answers `MacKeyNotSet`. -/
theorem execOmacFinal_of_other {s : State} {f : Fields} (hs : staticOk s.nctx (.omacFinal f) = true)
    (hctx : f.ctx.toNat < s.nctx) (hother : ∀ o, ¬ holdsSlot s f.ctx (.omac o)) :
    execOmacFinal f s = .next (answered s .macKeyNotSet []) := by
  rw [execOmacFinal, checked_of_staticOk _ hs, withOmac_of_other _ hctx hother]

/-- R252 (2): a finished context is refused with `BadOrder`. -/
theorem execOmacFinal_of_finalized {s : State} {f : Fields} {o : OmacCtx} (hs : staticOk s.nctx (.omacFinal f) = true)
    (ho : s.slot f.ctx = .omac o) (hphase : o.phase = .finalized) :
    execOmacFinal f s = .next (answered s .badOrder []) := by
  rw [execOmacFinal, checked_of_staticOk _ hs, withOmac_of_slot _ ho, omacOpen_eq_false hphase, require_false]

/-- Past both checks `OMAC.FINAL` finishes the context and answers the leading `maclen` bytes of its MAC (R252). -/
theorem execOmacFinal_of_open {s : State} {f : Fields} {o : OmacCtx} (hs : staticOk s.nctx (.omacFinal f) = true)
    (ho : s.slot f.ctx = .omac o) (hphase : o.phase ≠ .finalized) :
    execOmacFinal f s =
      .next (answeredWith s f.ctx (.omac (omacFinal s.cfg o)) .ok (slice (omacFinal s.cfg o).mac 0 o.maclen)) := by
  rw [execOmacFinal, checked_of_staticOk _ hs, withOmac_of_slot _ ho, (omacOpen_iff o).mpr hphase, require_true,
    respond_setSlot_eq, slice, List.drop_zero, Nat.sub_zero]

/-- The last block as R252 writes it: a complete one is whitened with `K1`, another is padded and whitened with `K2`. -/
theorem omacLast_eq (o : OmacCtx) :
    omacLast o =
      if o.nlast = bs o.cipher then xorB o.lbuf o.k1
      else xorB (slice o.lbuf 0 o.nlast ++ [0x80] ++ zeros (bs o.cipher - o.nlast - 1)) o.k2 := by
  rw [omacLast, slice, List.drop_zero, Nat.sub_zero, List.append_assoc, List.singleton_append]
  rfl

/-- Settles O53: the kind check and the phase check one after the other, and past both the finished context, whose MAC is
the encrypted whitened last block and whose waiting block and chain the mesh step does not touch. -/
theorem omacFinalAnswersTheMac : Obligations.OmacFinalAnswersTheMac := by
  unfold Obligations.OmacFinalAnswersTheMac
  intro s f
  refine ⟨rfl, fun hctx h0 hpay => ?_⟩
  have hs : staticOk s.nctx (.omacFinal f) = true :=
    staticOk_slot_fixed rfl rfl hctx h0 (List.length_eq_zero_iff.mpr hpay)
  refine ⟨fun hother => ?_, fun o ho hphase => ?_, fun o ho hphase => ?_⟩
  · exact execOmacFinal_of_other hs hctx hother
  · exact execOmacFinal_of_finalized hs (slot_of_holdsSlot ho) hphase
  · intro q w mac
    have hfinal : omacFinal s.cfg o = { q with mac := mac, phase := .finalized } := by
      simp only [mac, w, ← omacLast_eq]
      rfl
    have hexec := execOmacFinal_of_open hs (slot_of_holdsSlot ho) hphase
    rw [hfinal] at hexec
    obtain ⟨-, -, hchain, hlbuf, hnlast, -⟩ := omacMeshCheck_frame s.cfg o
    exact ⟨hexec, hchain, hlbuf, hnlast⟩

end Sys2Proof.Machine

/-! ### Emptying a slot: `CTX.DESTROY` (O58) -/

namespace Sys2Proof.Machine

@[simp] theorem answeredWith_nctx (s : State) (i : BitVec 4) (x : Slot) (st : Status) (p : Bytes) :
    (answeredWith s i x st p).nctx = s.nctx :=
  s.setSlot_nctx i x

/-- A slot of the file holds what a command has just written there. -/
theorem holdsSlot_answeredWith_same {s : State} {i : BitVec 4} (x : Slot) (st : Status) (p : Bytes) (h : i.toNat < s.nctx) :
    holdsSlot (answeredWith s i x st p) i x :=
  holdsSlot_setSlot_same x h

/-- Writing the record a slot already holds changes no slot. -/
theorem answeredWith_of_holdsSlot {s : State} {i : BitVec 4} {x : Slot} (st : Status) (p : Bytes) (h : holdsSlot s i x) :
    answeredWith s i x st p = answered s st p := by
  obtain ⟨hlt, rfl⟩ := List.getElem?_eq_some_iff.mp h
  rw [answeredWith, List.set_getElem_self hlt, answered]

theorem not_holdsSlot_of_empty {s : State} {i : BitVec 4} {x : Slot} (h : holdsSlot s i .empty) (hx : x ≠ .empty) :
    ¬ holdsSlot s i x :=
  fun hholds => hx ((slot_of_holdsSlot hholds).symm.trans (slot_of_holdsSlot h))

/-- Past the static checks `CTX.DESTROY` empties the slot without reading it, so its kind does not matter (R293). -/
theorem execCtxDestroy_of_staticOk {s : State} {f : Fields} (hs : staticOk s.nctx (.ctxDestroy f) = true) :
    execCtxDestroy f s = .next (answeredWith s f.ctx .empty .ok []) := by
  rw [execCtxDestroy, checked_of_staticOk _ hs, respond_setSlot_eq]

/-- Past the static checks `CTX.QUERY` answers the four bytes of the slot and writes nothing (R295). -/
theorem execCtxQuery_of_staticOk {s : State} {f : Fields} {x : Slot} (hs : staticOk s.nctx (.ctxQuery f) = true)
    (hx : s.slot f.ctx = x) : execCtxQuery f s = .next (answered s .ok (queryBytes x)) := by
  rw [execCtxQuery, checked_of_staticOk _ hs, hx, respond_eq]

@[simp] theorem queryBytes_empty : queryBytes .empty = [0, 0, 0, 0] := rfl

/-- R186 (1): on a slot that is not `MGM`, `MGM.AAD` answers `KeyNotSet`. -/
theorem execMgmAad_of_other {s : State} {f : Fields} (hs : staticOk s.nctx (.mgmAad f) = true)
    (hctx : f.ctx.toNat < s.nctx) (hother : ∀ m, ¬ holdsSlot s f.ctx (.mgm m)) :
    execMgmAad f s = .next (answered s .keyNotSet []) := by
  rw [execMgmAad, checked_of_staticOk _ hs, withMgm_of_other _ hctx hother]

/-- Settles O58: the slot is written without being read, and the two commands after it find the slot `Empty`. -/
theorem ctxDestroyEmpties : Obligations.CtxDestroyEmpties := by
  unfold Obligations.CtxDestroyEmpties
  intro s f
  refine ⟨rfl, fun hctx h0 hpay => ?_⟩
  intro t
  have hplen : f.plen = 0 := List.length_eq_zero_iff.mpr hpay
  have hctx' : f.ctx.toNat < t.nctx := by rwa [answeredWith_nctx]
  have hempty : holdsSlot t f.ctx .empty := holdsSlot_answeredWith_same .empty .ok [] hctx
  refine ⟨?_, fun hwas => ?_, ?_, fun p => ?_⟩
  · exact execCtxDestroy_of_staticOk (staticOk_slot_fixed rfl rfl hctx h0 hplen)
  · exact answeredWith_of_holdsSlot .ok [] hwas
  · rw [← queryBytes_empty]
    exact execCtxQuery_of_staticOk (staticOk_slot_fixed rfl rfl hctx' h0 hplen) (slot_of_holdsSlot hempty)
  · exact execMgmAad_of_other (staticOk_slot rfl rfl hctx' ⟨rfl, rfl⟩) hctx'
      fun m => not_holdsSlot_of_empty hempty Slot.noConfusion

end Sys2Proof.Machine

/-! ### `NOP` (O60) -/

namespace Sys2Proof.Machine

theorem slice_zeros (k i j : Nat) : slice (zeros k) i j = zeros (min (j - i) (k - i)) := by
  rw [slice, drop_zeros, take_zeros]

/-- A header of zeros is the opcode of `NOP` with every field 0 (R76, R296). -/
theorem decodeHdr_zero (payload : Bytes) : decodeHdr 0 payload = .ok (.nop (onSlot 0 payload)) := rfl

/-- The shortest frame, all zeros: its length word is 0, as its payload is empty (R296). -/
theorem decode_zeros_eight : decode (zeros 8) = .ok (.nop (onSlot 0 [])) := by
  have hlong : ¬ (zeros 8).length < 8 := by rw [length_zeros]; omega
  have hplen : ¬ (zeros 8).length - 8 ≠ intOf (slice (zeros 8) 4 8) := by
    rw [slice_zeros, intOf_zeros, length_zeros]; omega
  have hpayload : (zeros 8).drop 8 = [] := drop_zeros 8 8
  rw [decode, if_neg hlong, if_neg hplen, slice_zeros, intOf_zeros, hpayload]
  exact decodeHdr_zero []

/-- A step executes the command of the oldest waiting frame, on the state without that frame (R55). -/
theorem step_of_decode {s : State} {frame : Bytes} {rest : List Bytes} {i : Instr} (hcmd : s.cmd = frame :: rest)
    (hd : decode frame = .ok i) : step s = exec i { s with cmd := rest } := by
  rw [step, stepFront, hcmd]
  simp only [runFrame, hd]

/-- Past the static checks `NOP` answers an empty payload and writes nothing (R296). -/
theorem execNop_of_staticOk {s : State} {f : Fields} (hs : staticOk s.nctx (.nop f) = true) :
    execNop f s = .next (answered s .ok []) := by
  rw [execNop, checked_of_staticOk _ hs, respond_eq]

/-- A status of code 0 and an empty payload travel as two zero words (R74). -/
theorem responseFrame_ok_nil : responseFrame ⟨.ok, []⟩ = zeros 8 := rfl

/-- Settles O60: eight zeros decode to a `NOP` that passes the static checks, so the step is its empty response. -/
theorem nopDoesNothing : Obligations.NopDoesNothing := by
  unfold Obligations.NopDoesNothing
  intro s rest hcmd
  have hexec : exec (.nop (onSlot 0 [])) { s with cmd := rest } = .next (answered { s with cmd := rest } .ok []) :=
    execNop_of_staticOk (staticOk_noSlot rfl rfl rfl ⟨rfl, rfl⟩ rfl)
  exact ⟨decode_zeros_eight, hexec, (step_of_decode hcmd decode_zeros_eight).trans hexec, responseFrame_ok_nil⟩

end Sys2Proof.Machine

/-! ### Frames and commands (O1, O2, O7) -/

namespace Sys2Proof.Machine

/-- The frame of a command is its two words and its payload (R70). -/
@[simp] theorem length_encode (i : Instr) : (encode i).length = 8 + i.fields.plen := by
  simp only [encode, List.length_append, length_bytesOf]

/-- The first four bytes of a frame are the header word (R70). -/
theorem slice_encode_header (i : Instr) : slice (encode i) 0 4 = bytesOf 4 (hdrWord i).toNat := by
  rw [encode, List.append_assoc]
  exact slice_append_middle (a := []) rfl ((Nat.zero_add _).trans (length_bytesOf 4 _))

/-- The next four are the length word, whatever follows the frame (R70). -/
theorem slice_encode_plen (i : Instr) (r : Bytes) : slice (encode i ++ r) 4 8 = bytesOf 4 i.fields.plen := by
  rw [encode, List.append_assoc]
  exact slice_append_middle (length_bytesOf 4 _) (by rw [length_bytesOf])

/-- The rest is the payload (R70). -/
theorem drop_encode (i : Instr) : (encode i).drop 8 = i.fields.payload :=
  List.drop_left' (by rw [List.length_append, length_bytesOf, length_bytesOf])

/-- A length that fits the `PLEN` word is read back from it (R72). -/
theorem intOf_bytesOf_plen {n : Nat} (h : n ≤ maxPay) : intOf (bytesOf 4 n) = n := by
  rw [intOf_bytesOf]
  exact Nat.mod_eq_of_lt (by rw [maxPay] at h; omega)

theorem plen_le_of_encodable {i : Instr} (h : i.encodable = true) : i.fields.plen ≤ maxPay := by
  simpa [Instr.encodable] using h

/-- The fields are read from the places of the header word where the encoder puts them (R71). -/
theorem decodeHdr_hdrWord (i : Instr) : decodeHdr (hdrWord i) i.fields.payload = .ok i := by
  have hof : ofOpcode (opcodeOf i) ⟨i.fields.ctx, i.fields.a, i.fields.imm, i.fields.payload⟩ = some i :=
    ofOpcode_opcodeOf i
  simp only [decodeHdr, hdrWord, hdrOp_append, hdrCtx_append, hdrA_append, hdrImm_append, hdrRsv_append, hof, if_true]

/-- A header that decodes is the header word of the command it decodes to (R71, R77). -/
theorem hdrWord_of_decodeHdr {h : BitVec 32} {p : Bytes} {i : Instr} (hd : decodeHdr h p = .ok i) :
    hdrWord i = h ∧ i.fields.payload = p := by
  unfold decodeHdr at hd
  split at hd
  · cases hd
  · next j hof =>
    split at hd
    · next hrsv =>
      obtain rfl : j = i := by injection hd
      obtain ⟨hop, hfields⟩ := ofOpcode_some hof
      refine ⟨?_, by rw [hfields]⟩
      rw [hdrWord, hop, hfields]
      conv_rhs => rw [hdr_fields h, hrsv]
      rfl
    · cases hd

/-- What decodes has its 8 bytes, a payload of the length `PLEN` says, and a header that decodes (R70, R78). -/
theorem decode_eq_ok_iff {frame : Bytes} {i : Instr} :
    decode frame = .ok i ↔ 8 ≤ frame.length ∧ frame.length - 8 = intOf (slice frame 4 8) ∧
      decodeHdr (BitVec.ofNat 32 (intOf (slice frame 0 4))) (frame.drop 8) = .ok i := by
  unfold decode
  split
  · next hshort => exact ⟨fun h => (by cases h), fun ⟨hlong, _⟩ => absurd hshort (by omega)⟩
  · next hlong =>
    split
    · next hplen => exact ⟨fun h => (by cases h), fun ⟨_, hlen, _⟩ => absurd hlen hplen⟩
    · next hplen => exact ⟨fun h => ⟨by omega, not_not.mp hplen, h⟩, fun ⟨_, _, h⟩ => h⟩

/-- Settles O1: the length word reads back as the payload's length, and the header word as the fields. -/
theorem decodeOfEncode : Obligations.DecodeOfEncode := by
  unfold Obligations.DecodeOfEncode
  intro i henc
  have hplen : slice (encode i) 4 8 = bytesOf 4 i.fields.plen := by simpa using slice_encode_plen i []
  refine decode_eq_ok_iff.mpr ⟨?_, ?_, ?_⟩
  · rw [length_encode]; omega
  · rw [length_encode, hplen, intOf_bytesOf_plen (plen_le_of_encodable henc)]; omega
  · rw [slice_encode_header, intOf_bytesOf_toNat, BitVec.ofNat_toNat, BitVec.setWidth_eq, drop_encode]
    exact decodeHdr_hdrWord i

/-- A byte string is the two words it begins with and the rest. -/
theorem slice_append_slice_append_drop (frame : Bytes) : slice frame 0 4 ++ slice frame 4 8 ++ frame.drop 8 = frame := by
  have h8 : (frame.drop 4).drop 4 = frame.drop 8 := List.drop_drop
  rw [slice, slice, List.drop_zero, List.append_assoc, ← h8, List.take_append_drop, List.take_append_drop]

/-- Four bytes are a 32-bit number, so storing it as a word loses nothing. -/
theorem toNat_ofNat_intOf_slice (frame : Bytes) (k : Nat) :
    (BitVec.ofNat 32 (intOf (slice frame k (k + 4)))).toNat = intOf (slice frame k (k + 4)) := by
  have hlt := intOf_lt (slice frame k (k + 4))
  have hle : 256 ^ (slice frame k (k + 4)).length ≤ 256 ^ 4 :=
    Nat.pow_le_pow_right (by omega) (by rw [length_slice]; omega)
  rw [BitVec.toNat_ofNat]
  exact Nat.mod_eq_of_lt (by omega)

/-- Settles O2: the payload's length is the number in the length word, so it fits, and the two words of the frame are
the ones the encoder writes. -/
theorem encodeOfDecode : Obligations.EncodeOfDecode := by
  unfold Obligations.EncodeOfDecode
  intro frame i hd
  obtain ⟨hlong, hplen, hhdr⟩ := decode_eq_ok_iff.mp hd
  obtain ⟨hword, hpay⟩ := hdrWord_of_decodeHdr hhdr
  have hlen0 : (slice frame 0 4).length = 4 := length_slice_of_le (by omega) (by omega)
  have hlen4 : (slice frame 4 8).length = 4 := length_slice_of_le (by omega) (by omega)
  have hfields : i.fields.plen = intOf (slice frame 4 8) := by rw [Fields.plen, hpay, List.length_drop, hplen]
  constructor
  · have hlt := intOf_lt (slice frame 4 8)
    rw [hlen4] at hlt
    simp only [Instr.encodable, hfields, maxPay, decide_eq_true_eq]
    omega
  · calc encode i
        = bytesOf 4 (intOf (slice frame 0 4)) ++ bytesOf 4 (intOf (slice frame 4 8)) ++ frame.drop 8 := by
          rw [encode, hword, hfields, hpay, toNat_ofNat_intOf_slice frame 0]
      _ = slice frame 0 4 ++ slice frame 4 8 ++ frame.drop 8 := by
          rw [bytesOf_intOf_of_length hlen0, bytesOf_intOf_of_length hlen4]
      _ = frame := slice_append_slice_append_drop frame

/-- Settles O7: the four byte strings are the frames of the four commands, and a frame decodes to its command. -/
theorem workedWordsDecode : Obligations.WorkedWordsDecode := by
  unfold Obligations.WorkedWordsDecode
  have htaglen : encode (.mgmTaglen ⟨2, 0, 8, []⟩) = [0x42, 0x20, 0x08, 0x00, 0, 0, 0, 0] := by decide
  have hclone : encode (.ctxClone ⟨1, 0, 0, []⟩) = [0x60, 0x10, 0x00, 0x00, 0, 0, 0, 0] := by decide
  have hsection : encode (.ctrSection ⟨3, 0, 0, [0, 0, 0, 0x20]⟩) =
      [0x32, 0x30, 0x00, 0x00, 0, 0, 0, 4, 0, 0, 0, 0x20] := by decide
  have hnop : encode (.nop ⟨0, 0, 0, []⟩) = [0x00, 0x00, 0x00, 0x00, 0, 0, 0, 0] := by decide
  rw [← htaglen, ← hclone, ← hsection, ← hnop]
  exact ⟨decodeOfEncode _ rfl, decodeOfEncode _ rfl, decodeOfEncode _ rfl, decodeOfEncode _ rfl⟩

end Sys2Proof.Machine

/-! ### The header word, match and mask (O3) -/

namespace Sys2Proof.Machine

/-- A header word as a number: every field at the place of R71. -/
theorem toNat_hdrWord (i : Instr) : (hdrWord i).toNat = (opcodeOf i).toNat * 2 ^ 24 + i.fields.ctx.toNat * 2 ^ 20 +
    i.fields.a.toNat * 2 ^ 16 + i.fields.imm.toNat * 2 ^ 8 := by
  simp only [hdrWord, toNat_append_eq, BitVec.toNat_ofNat]
  omega

/-- The mask of R77 leaves the opcode and the reserved byte. -/
theorem append_mask (op : BitVec 8) (c a : BitVec 4) (m r : BitVec 8) :
    (op ++ c ++ a ++ m ++ r) &&& 0xFF0000FF#32 = op ++ 0#16 ++ r := by
  apply BitVec.eq_of_getLsbD_eq
  intro k hk
  rw [BitVec.getLsbD_and]
  simp only [BitVec.getLsbD_append]
  interval_cases k <;> simp

/-- A header under the mask, as a number (R77). -/
theorem toNat_mask (h : BitVec 32) : (h &&& 0xFF0000FF#32).toNat = (hdrOp h).toNat * 2 ^ 24 + (hdrRsv h).toNat := by
  conv_lhs => rw [hdr_fields h, append_mask]
  simp only [toNat_append_eq, BitVec.toNat_ofNat]
  omega

/-- A header matches the pattern of a row exactly when it has that opcode and no reserved bit (R77). -/
theorem mask_eq_iff {h : BitVec 32} {op : BitVec 8} :
    (h &&& 0xFF0000FF#32).toNat = op.toNat * 2 ^ 24 ↔ hdrOp h = op ∧ hdrRsv h = 0 := by
  have hzero : (0 : BitVec 8).toNat = 0 := rfl
  have hrsv := (hdrRsv h).isLt
  rw [toNat_mask, ← BitVec.toNat_inj, ← BitVec.toNat_inj, hzero]
  omega

/-- The opcodes of the map are read to a command whatever the fields (R76). -/
theorem exists_ofOpcode (i : Instr) (f : Fields) : ∃ j, ofOpcode (opcodeOf i) f = some j := by
  cases i <;> exact ⟨_, rfl⟩

/-- Settles O3: the header word by its fields, and the decoder by the two bytes the mask leaves. -/
theorem headerMatchAndMask : Obligations.HeaderMatchAndMask := by
  unfold Obligations.HeaderMatchAndMask
  refine ⟨toNat_hdrWord, fun h p => ⟨fun i hd => ?_, fun i hmask => ?_⟩⟩
  · obtain ⟨rfl, hpay⟩ := hdrWord_of_decodeHdr hd
    exact ⟨rfl, hpay, mask_eq_iff.mpr ⟨hdrOp_append .., hdrRsv_append ..⟩⟩
  · obtain ⟨hop, hrsv⟩ := mask_eq_iff.mp hmask
    obtain ⟨j, hj⟩ := exists_ofOpcode i ⟨hdrCtx h, hdrA h, hdrImm h, p⟩
    refine ⟨j, ?_, (ofOpcode_some hj).1⟩
    simp only [decodeHdr, hop, hj, hrsv, if_true]

end Sys2Proof.Machine

/-! ### A step on a frame, decoded or not (O9, O4, O5) -/

namespace Sys2Proof.Machine

/-- A frame that decodes to nothing is answered `IllegalCommand` and leaves the command port (R78). -/
theorem step_of_decode_error {s : State} {frame : Bytes} {rest : List Bytes} {e : DecodeError}
    (hcmd : s.cmd = frame :: rest) (hd : decode frame = .error e) :
    step s = .next (answered { s with cmd := rest } .illegalCommand []) := by
  rw [step, stepFront, hcmd]
  simp only [runFrame, hd]
  exact raise_eq _ _

/-- With no frame waiting the unit waits (R62, R371). -/
theorem step_of_no_frame {s : State} (hcmd : s.cmd = []) : step s = .next s := by
  rw [step, stepFront, hcmd]

/-- Settles O9: the three cases of a step. -/
theorem stepRunsTheDecodedCommand : Obligations.StepRunsTheDecodedCommand := by
  unfold Obligations.StepRunsTheDecodedCommand
  exact ⟨fun _ _ _ _ hcmd hd => step_of_decode hcmd hd, fun _ _ _ _ hcmd hd => step_of_decode_error hcmd hd,
    fun _ hcmd => step_of_no_frame hcmd⟩

/-- A frame that no command's frame equals is answered `IllegalCommand` (R78). -/
theorem step_of_decode_ne_ok {s : State} {frame : Bytes} {rest : List Bytes} (hcmd : s.cmd = frame :: rest)
    (hd : ∀ i, decode frame ≠ .ok i) : step s = .next (answered { s with cmd := rest } .illegalCommand []) := by
  cases he : decode frame with
  | ok i => exact absurd he (hd i)
  | error e => exact step_of_decode_error hcmd he

/-- The numbers of the opcode map (R76). -/
theorem opcodeOf_mem (i : Instr) : (opcodeOf i).toNat ∈ [0x00, 0x10, 0x11, 0x12, 0x20, 0x21, 0x30, 0x31, 0x32, 0x33, 0x34,
    0x40, 0x41, 0x42, 0x43, 0x44, 0x45, 0x46, 0x47, 0x50, 0x51, 0x52, 0x53, 0x54, 0x60, 0x61, 0x62] := by
  cases i <;> simp [opcodeOf]

/-- Byte 0 of a frame is the opcode and byte 3 is 0 (R71). -/
theorem encode_eq_cons (i : Instr) : ∃ b1 b2 r, encode i = opcodeOf i :: b1 :: b2 :: 0 :: r := by
  have hword := toNat_hdrWord i
  have hctx := i.fields.ctx.isLt
  have ha := i.fields.a.isLt
  have himm := i.fields.imm.isLt
  have hop : BitVec.ofNat 8 ((hdrWord i).toNat / 256 ^ 3) = opcodeOf i := by
    apply BitVec.eq_of_toNat_eq
    rw [BitVec.toNat_ofNat]
    omega
  have hrsv : BitVec.ofNat 8 ((hdrWord i).toNat / 256 ^ 0) = 0 := by
    have hzero : (0 : BitVec 8).toNat = 0 := rfl
    apply BitVec.eq_of_toNat_eq
    rw [BitVec.toNat_ofNat, hzero]
    omega
  simp only [encode, bytesOf, hop, hrsv, List.cons_append]
  exact ⟨_, _, _, rfl⟩

/-- Settles O4: what decodes is the frame of a command, and no such frame has one of the three faults. -/
theorem illegalFramesAreRefused : Obligations.IllegalFramesAreRefused := by
  unfold Obligations.IllegalFramesAreRefused
  intro s frame rest hcmd hfault
  refine step_of_decode_ne_ok hcmd fun i hd => ?_
  obtain ⟨hlong, hplen, -⟩ := decode_eq_ok_iff.mp hd
  rcases hfault with hshort | hlen | hop
  · omega
  · exact hlen hplen
  · obtain ⟨b1, b2, r, hcons⟩ := encode_eq_cons i
    rw [← (encodeOfDecode frame i hd).2, hcons] at hop
    exact hop (opcodeOf_mem i)

/-- A command that fails a static check is answered `IllegalCommand`, whatever the slots hold (R79). -/
theorem exec_of_not_staticOk {i : Instr} {s : State} (h : staticOk s.nctx i = false) :
    exec i s = .next (answered s .illegalCommand []) := by
  cases i <;> exact checked_of_not_staticOk _ h

/-- The static checks one by one (R79). -/
theorem staticOk_iff {nctx : Nat} {i : Instr} : staticOk nctx i = true ↔ ctxOk nctx (rowOf i) i.fields = true ∧
    aOk nctx (rowOf i) i.fields = true ∧ immOk (rowOf i) i.fields = true ∧ plenOk (rowOf i) i.fields = true ∧
    sectionsOk i = true := by
  simp only [staticOk, Bool.and_eq_true, and_assoc]

/-- Column "CTX" of the opcode map, by number (R76). -/
theorem usesSlot_eq (i : Instr) : (rowOf i).usesSlot = decide ((opcodeOf i).toNat ∉ [0x00, 0x20, 0x21]) := by
  cases i <;> rfl

/-- Column "A" of the opcode map, by number (R76). -/
theorem aUse_eq (i : Instr) : (rowOf i).aUse =
    if (opcodeOf i).toNat ∈ [0x10, 0x30, 0x40, 0x50, 0x51] then .cipher
    else if (opcodeOf i).toNat = 0x60 then .slot else .zero := by
  cases i <;> rfl

/-- Column "IMM" of the opcode map, by number (R76). -/
theorem usesImm_eq (i : Instr) : (rowOf i).usesImm = decide ((opcodeOf i).toNat ∈ [0x42, 0x52]) := by
  cases i <;> rfl

/-- The fixed payload lengths of R79 (5), by number. -/
theorem fixedLen_eq (i : Instr) : (rowOf i).fixedLen =
    if (opcodeOf i).toNat ∈ [0x00, 0x34, 0x42, 0x46, 0x52, 0x54, 0x60, 0x61, 0x62] then some 0
    else if (opcodeOf i).toNat ∈ [0x10, 0x30, 0x40, 0x50, 0x21] then some 32
    else if (opcodeOf i).toNat = 0x20 then some 16
    else if (opcodeOf i).toNat = 0x32 then some 4
    else if (opcodeOf i).toNat = 0x51 then some 40 else none := by
  cases i <;> rfl

/-- Only `OMAC.INITA` has opcode 0x51 (R76). -/
theorem eq_omacInita_of_opcode {i : Instr} (h : (opcodeOf i).toNat = 0x51) : i = .omacInita i.fields := by
  cases i with
  | omacInita f => rfl
  | _ => simp [opcodeOf] at h

/-- R79 (2), by opcode. -/
theorem ctxOk_eq_false {nctx : Nat} {i : Instr}
    (h : ((opcodeOf i).toNat ∉ [0x00, 0x20, 0x21] ∧ nctx ≤ i.fields.ctx.toNat) ∨
      ((opcodeOf i).toNat ∈ [0x00, 0x20, 0x21] ∧ i.fields.ctx ≠ 0)) : ctxOk nctx (rowOf i) i.fields = false := by
  rcases h with ⟨hop, hctx⟩ | ⟨hop, hctx⟩
  · rw [ctxOk, usesSlot_eq, if_pos (decide_eq_true hop), decide_eq_false (by omega)]
  · rw [ctxOk, usesSlot_eq, if_neg (by rw [decide_eq_true_eq]; exact not_not_intro hop), beq_eq_false_iff_ne.mpr hctx]

/-- R79 (3), by opcode. -/
theorem aOk_eq_false {nctx : Nat} {i : Instr}
    (h : ((opcodeOf i).toNat ∈ [0x10, 0x30, 0x40, 0x50, 0x51] ∧ 1 < i.fields.a.toNat) ∨
      ((opcodeOf i).toNat = 0x60 ∧ nctx ≤ i.fields.a.toNat) ∨
      ((opcodeOf i).toNat ∉ [0x10, 0x30, 0x40, 0x50, 0x51, 0x60] ∧ i.fields.a ≠ 0)) :
    aOk nctx (rowOf i) i.fields = false := by
  rcases h with ⟨hop, ha⟩ | ⟨hop, ha⟩ | ⟨hop, ha⟩
  · rw [aOk, aUse_eq, if_pos hop]
    exact decide_eq_false (by omega)
  · rw [aOk, aUse_eq, if_neg (by rw [hop]; decide), if_pos hop]
    exact decide_eq_false (by omega)
  · simp only [List.mem_cons, List.not_mem_nil, or_false] at hop
    have hcipher : (opcodeOf i).toNat ∉ [0x10, 0x30, 0x40, 0x50, 0x51] := by
      simp only [List.mem_cons, List.not_mem_nil, or_false]; omega
    have hslot : (opcodeOf i).toNat ≠ 0x60 := by omega
    rw [aOk, aUse_eq, if_neg hcipher, if_neg hslot]
    exact beq_eq_false_iff_ne.mpr ha

/-- R79 (4), by opcode. -/
theorem immOk_eq_false {i : Instr} (h : (opcodeOf i).toNat ∉ [0x42, 0x52] ∧ i.fields.imm ≠ 0) :
    immOk (rowOf i) i.fields = false := by
  rw [immOk, usesImm_eq, decide_eq_false h.1, beq_eq_false_iff_ne.mpr h.2, Bool.false_or]

theorem plenOk_eq_false {r : Row} {f : Fields} {n : Nat} (hr : r.fixedLen = some n) (h : f.plen ≠ n) :
    plenOk r f = false := by
  rw [plenOk, hr]
  exact beq_eq_false_iff_ne.mpr h

/-- R79 (5), by opcode. -/
theorem plenOk_eq_false_of_opcode {i : Instr}
    (h : ((opcodeOf i).toNat ∈ [0x00, 0x34, 0x42, 0x46, 0x52, 0x54, 0x60, 0x61, 0x62] ∧ i.fields.plen ≠ 0) ∨
      ((opcodeOf i).toNat ∈ [0x10, 0x30, 0x40, 0x50, 0x21] ∧ i.fields.plen ≠ 32) ∨
      ((opcodeOf i).toNat = 0x20 ∧ i.fields.plen ≠ 16) ∨ ((opcodeOf i).toNat = 0x32 ∧ i.fields.plen ≠ 4) ∨
      ((opcodeOf i).toNat = 0x51 ∧ i.fields.plen ≠ 40)) : plenOk (rowOf i) i.fields = false := by
  have hrow := fixedLen_eq i
  rcases h with ⟨hop, hlen⟩ | ⟨hop, hlen⟩ | ⟨hop, hlen⟩ | ⟨hop, hlen⟩ | ⟨hop, hlen⟩
  · exact plenOk_eq_false (hrow.trans (if_pos hop)) hlen
  · refine plenOk_eq_false (hrow.trans ?_) hlen
    rw [if_pos hop, if_neg]
    simp only [List.mem_cons, List.not_mem_nil, or_false] at hop ⊢
    omega
  · exact plenOk_eq_false (hrow.trans (by rw [hop]; rfl)) hlen
  · exact plenOk_eq_false (hrow.trans (by rw [hop]; rfl)) hlen
  · exact plenOk_eq_false (hrow.trans (by rw [hop]; rfl)) hlen

theorem bs_of_code {a : BitVec 4} {c : Cipher} (h : cipherOf a = some c) : bs c = if a = 0 then 8 else 16 := by
  have hcode := cipherOf_eq_some h
  cases c
  · rw [if_pos (BitVec.eq_of_toNat_eq hcode)]; rfl
  · rw [if_neg (fun h0 => by rw [h0] at hcode; exact absurd hcode (by decide))]; rfl

/-- R79 (6), by opcode. -/
theorem sectionsOk_eq_false {i : Instr} (hop : (opcodeOf i).toNat = 0x51)
    (h : intOf (slice i.fields.payload 32 36) % (if i.fields.a = 0 then 8 else 16) ≠ 0 ∨
      intOf (slice i.fields.payload 36 40) % (if i.fields.a = 0 then 8 else 16) ≠ 0) : sectionsOk i = false := by
  rw [eq_omacInita_of_opcode hop]
  cases hc : cipherOf i.fields.a with
  | none => simp only [sectionsOk, hc]
  | some c =>
    rw [← bs_of_code hc] at h
    rw [← Bool.not_eq_true, sectionsOk_omacInita_iff (cipherOf_eq_some hc)]
    exact fun ⟨hn, ht⟩ => h.elim (· hn) (· ht)

/-- Settles O5: a frame of a command has a zero at the reserved byte, and the five checks of a command are those of its
row, read by opcode. -/
theorem staticChecksRefuse : Obligations.StaticChecksRefuse := by
  unfold Obligations.StaticChecksRefuse
  refine ⟨fun s frame rest hcmd _ hrsv => step_of_decode_ne_ok hcmd fun i hd => ?_, ?_⟩
  · obtain ⟨b1, b2, r, hcons⟩ := encode_eq_cons i
    rw [← (encodeOfDecode frame i hd).2, hcons] at hrsv
    exact hrsv rfl
  · intro i s op f bsA hfault
    refine exec_of_not_staticOk (Bool.eq_false_iff.mpr fun hok => ?_)
    obtain ⟨hctx, ha, himm, hplen, hsec⟩ := staticOk_iff.mp hok
    rcases hfault with h | h | h | h | h | h | h | h | h | h | h | ⟨hop, h⟩
    · exact Bool.false_ne_true ((ctxOk_eq_false (.inl h)).symm.trans hctx)
    · exact Bool.false_ne_true ((ctxOk_eq_false (.inr h)).symm.trans hctx)
    · exact Bool.false_ne_true ((aOk_eq_false (.inl h)).symm.trans ha)
    · exact Bool.false_ne_true ((aOk_eq_false (.inr (.inl h))).symm.trans ha)
    · exact Bool.false_ne_true ((aOk_eq_false (.inr (.inr h))).symm.trans ha)
    · exact Bool.false_ne_true ((immOk_eq_false h).symm.trans himm)
    · exact Bool.false_ne_true ((plenOk_eq_false_of_opcode (.inl h)).symm.trans hplen)
    · exact Bool.false_ne_true ((plenOk_eq_false_of_opcode (.inr (.inl h))).symm.trans hplen)
    · exact Bool.false_ne_true ((plenOk_eq_false_of_opcode (.inr (.inr (.inl h)))).symm.trans hplen)
    · exact Bool.false_ne_true ((plenOk_eq_false_of_opcode (.inr (.inr (.inr (.inl h))))).symm.trans hplen)
    · exact Bool.false_ne_true ((plenOk_eq_false_of_opcode (.inr (.inr (.inr (.inr h))))).symm.trans hplen)
    · exact Bool.false_ne_true ((sectionsOk_eq_false hop h).symm.trans hsec)

end Sys2Proof.Machine

/-! ### The command port as a byte stream (O6) -/

namespace Sys2Proof.Machine

/-- What a stream whose first frame is whole is cut into: that frame, and what the rest is cut into (R70). -/
theorem splitFrames_of_takeFrame {x f r : Bytes} (h : takeFrame x = some (f, r)) :
    splitFrames x.length x = (f :: (splitFrames r.length r).1, (splitFrames r.length r).2) := by
  obtain ⟨-, hx, hf⟩ := takeFrame_some h
  have hlen : x.length = f.length + r.length := by rw [hx, List.length_append]
  obtain ⟨n, hn⟩ : ∃ n, x.length = n + 1 := ⟨x.length - 1, by omega⟩
  have hfuel : splitFrames n r = splitFrames r.length r := splitFrames_fuel _ r n le_rfl (by omega)
  simp only [hn, splitFrames, h, hfuel]

/-- A stream whose first frame is not whole waits. -/
theorem splitFrames_of_no_frame {x : Bytes} (n : Nat) (h : takeFrame x = none) : splitFrames n x = ([], x) := by
  cases n with
  | zero => rfl
  | succ n => simp only [splitFrames, h]

/-- Cutting what has come, and then what is left of it with what comes after, cuts the whole stream (R51). -/
theorem splitFrames_append (n : Nat) (x y : Bytes) (hx : x.length ≤ n) :
    splitFrames (x ++ y).length (x ++ y) =
      ((splitFrames x.length x).1 ++
          (splitFrames ((splitFrames x.length x).2 ++ y).length ((splitFrames x.length x).2 ++ y)).1,
        (splitFrames ((splitFrames x.length x).2 ++ y).length ((splitFrames x.length x).2 ++ y)).2) := by
  induction n generalizing x with
  | zero =>
    obtain rfl : x = [] := List.eq_nil_of_length_eq_zero (by omega)
    rfl
  | succ n ih =>
    cases ht : takeFrame x with
    | none => simp only [splitFrames_of_no_frame _ ht, List.nil_append]
    | some fr =>
      obtain ⟨f, r⟩ := fr
      obtain ⟨hmore, hxr, hf⟩ := takeFrame_some ht
      have hlen : x.length = f.length + r.length := by rw [hxr, List.length_append]
      simp only [splitFrames_of_takeFrame ht, splitFrames_of_takeFrame (hmore y), ih r (by omega), List.cons_append]

/-- The frame of a command is the first frame of any stream it begins (R70). -/
theorem takeFrame_encode_append {i : Instr} (henc : i.encodable = true) (r : Bytes) :
    takeFrame (encode i ++ r) = some (encode i, r) := by
  have hlen : frameLen (encode i ++ r) = (encode i).length := by
    rw [frameLen, slice_encode_plen, intOf_bytesOf_plen (plen_le_of_encodable henc), length_encode]
  have hlong : ¬ (encode i ++ r).length < 8 := by rw [List.length_append, length_encode]; omega
  have hwhole : ¬ (encode i ++ r).length < (encode i).length := by rw [List.length_append]; omega
  rw [takeFrame, if_neg hlong, hlen, if_neg hwhole, List.take_left, List.drop_left]

/-- The frames of commands, one after the other, are cut into those frames (R70). -/
theorem splitFrames_flatMap_encode (cmds : List Instr) (henc : ∀ i ∈ cmds, i.encodable = true) :
    splitFrames (cmds.flatMap encode).length (cmds.flatMap encode) = (cmds.map encode, []) := by
  induction cmds with
  | nil => rfl
  | cons i rest ih =>
    have hfirst := takeFrame_encode_append (henc i List.mem_cons_self) (rest.flatMap encode)
    rw [List.flatMap_cons, splitFrames_of_takeFrame hfirst, ih fun j hj => henc j (List.mem_cons_of_mem i hj)]
    rfl

/-- Settles O6: how the stream is cut does not show, and frames of commands are cut into those frames. -/
theorem byteStreamFraming : Obligations.ByteStreamFraming := by
  unfold Obligations.ByteStreamFraming
  refine ⟨fun s a b => ?_, fun s cmds hrx henc => ?_⟩
  · have h := splitFrames_append _ (s.rx ++ a) b le_rfl
    rw [List.append_assoc] at h
    simp only [hostSendBytes, h, List.append_assoc]
  · simp only [hostSendBytes, hrx, List.nil_append, splitFrames_flatMap_encode cmds henc]

end Sys2Proof.Machine

/-! ### Response frames (O8) -/

namespace Sys2Proof.Machine

/-- Four bytes, most significant first (R13). -/
theorem bytesOf_four (v : Nat) : bytesOf 4 v =
    [BitVec.ofNat 8 (v / 2 ^ 24), BitVec.ofNat 8 (v / 2 ^ 16), BitVec.ofNat 8 (v / 2 ^ 8), BitVec.ofNat 8 (v / 2 ^ 0)] := rfl

/-- The codes of R331 are all different, and each fits the status word. -/
theorem statusCode_injective {a b : Status} (h : bytesOf 4 (statusCode a) = bytesOf 4 (statusCode b)) : a = b := by
  have hlt : ∀ x : Status, statusCode x < 256 ^ 4 := fun x => by cases x <;> decide
  have hcode : statusCode a = statusCode b := by
    have hmod := (bytesOf_eq_iff 4 _ _).mp h
    rwa [Nat.mod_eq_of_lt (hlt a), Nat.mod_eq_of_lt (hlt b)] at hmod
  revert hcode
  cases a <;> cases b <;> decide

/-- Settles O8: the two words of a response frame, and that they and the rest are read back from it. -/
theorem responseFramesAreUnambiguous : Obligations.ResponseFramesAreUnambiguous := by
  unfold Obligations.ResponseFramesAreUnambiguous
  refine ⟨fun st p => ?_, fun r q _ _ h => ?_⟩
  · intro code byte
    have hcode : bytesOf 4 (statusCode st) = [0, 0, 0, code] := by cases st <;> decide
    rw [responseFrame, hcode, bytesOf_four]
    rfl
  · simp only [responseFrame, List.append_assoc] at h
    obtain ⟨hst, hrest⟩ := List.append_inj h (by rw [length_bytesOf, length_bytesOf])
    obtain ⟨-, hpay⟩ := List.append_inj hrest (by rw [length_bytesOf, length_bytesOf])
    cases r
    cases q
    exact congrArg₂ Response.mk (statusCode_injective hst) hpay

end Sys2Proof.Machine

/-! ### What a command can change, and what it cannot (O13, O14, O57) -/

namespace Sys2Proof.Machine

/-- A command leaves alone the parameters, the number of slots, the command port and every slot but the one it names
(R57). -/
theorem exec_frame {i : Instr} {s t : State} (h : exec i s = .next t) :
    t.cfg = s.cfg ∧ t.nctx = s.nctx ∧ t.cmd = s.cmd ∧ t.rx = s.rx ∧
      ∀ j : Nat, j ≠ i.fields.ctx.toNat → t.ctx[j]? = s.ctx[j]? := by
  obtain ⟨st, p, hs | ⟨x, hs, -, -⟩⟩ := exec_shape i s
  · obtain rfl : answered s st p = t := by injection hs.symm.trans h
    exact ⟨rfl, rfl, rfl, rfl, fun _ _ => rfl⟩
  · obtain rfl : answeredWith s i.fields.ctx x st p = t := by injection hs.symm.trans h
    exact ⟨rfl, answeredWith_nctx .., rfl, rfl, fun j hj => List.getElem?_set_ne (Ne.symm hj)⟩

/-- Every command has a next state (R344). -/
theorem exists_exec (i : Instr) (s : State) : ∃ t, exec i s = .next t := by
  obtain ⟨st, p, hs | ⟨x, hs, -, -⟩⟩ := exec_shape i s
  · exact ⟨_, hs⟩
  · exact ⟨_, hs⟩

/-- A command does not change a slot it does not name (R57). -/
theorem exec_slot_other {i : Instr} {s t : State} {n : BitVec 4} (h : exec i s = .next t) (hn : i.fields.ctx ≠ n) :
    t.slot n = s.slot n := by
  obtain ⟨-, -, -, -, hother⟩ := exec_frame h
  have hne : n.toNat ≠ i.fields.ctx.toNat := fun e => hn (BitVec.eq_of_toNat_eq e.symm)
  rw [State.slot, State.slot, List.getD_eq_getElem?_getD, List.getD_eq_getElem?_getD, hother _ hne]

/-- A state that only answered is one whose slot was written with what makes no difference. -/
theorem answeredWith_eq_answered {s u : State} {n : BitVec 4} {x : Slot} {st st' : Status} {p p' : Bytes}
    (hctx : u.ctx = s.ctx) (h : answeredWith s n x st p = answered s st' p') :
    answeredWith u n x st p = answered u st' p' := by
  have hset : s.ctx.set n.toNat x = s.ctx := congrArg State.ctx h
  have hresp : s.resp ++ [⟨st, p⟩] = s.resp ++ [⟨st', p'⟩] := congrArg State.resp h
  have hone := List.append_cancel_left hresp
  rw [answeredWith, answered, hctx, hset, hone, ← hctx]

/-- A command that only reads answers a second time what it answered the first (R57). -/
theorem exec_of_readsOnly {i : Instr} {s : State} (hr : readsOnly i = true) :
    ∃ st p, exec i s = .next (answered s st p) ∧
      exec i (answered s st p) = .next (answered (answered s st p) st p) := by
  obtain ⟨st, p, hs | ⟨x, -, hw, -⟩⟩ := exec_shape i s
  · refine ⟨st, p, hs, ?_⟩
    obtain ⟨st', p', ⟨h1, h2⟩ | ⟨x, h1, h2⟩⟩ := exec_congr i s (answered s st p) rfl rfl rfl fun _ _ => rfl
    · have hsame : answered s st' p' = answered s st p := by injection h1.symm.trans hs
      have hone := List.append_cancel_left (congrArg State.resp hsame : s.resp ++ [⟨st', p'⟩] = s.resp ++ [⟨st, p⟩])
      obtain ⟨rfl, rfl⟩ : st' = st ∧ p' = p := by simpa using hone
      exact h2
    · have hsame : answeredWith s i.fields.ctx x st' p' = answered s st p := by injection h1.symm.trans hs
      exact h2.trans (congrArg _ (answeredWith_eq_answered (answered_ctx s st p) hsame))
  · exact absurd (hr.symm.trans hw) (by decide)

/-- Settles O13: the frame of a command, and that reading twice reads the same. -/
theorem onlyTheNamedSlotChanges : Obligations.OnlyTheNamedSlotChanges := by
  unfold Obligations.OnlyTheNamedSlotChanges
  intro i s t h
  obtain ⟨hcfg, hn, hcmd, hrx, hother⟩ := exec_frame h
  refine ⟨fun hr => ?_, hother, hcfg, hn, hcmd, hrx⟩
  obtain ⟨st, p, h1, h2⟩ := exec_of_readsOnly (s := s) hr
  obtain rfl : answered s st p = t := by injection h1.symm.trans h
  exact ⟨st, p, rfl, h2⟩

theorem runCommands_cons {i : Instr} {s t : State} (rest : List Instr) (h : exec i s = .next t) :
    runCommands (i :: rest) s = runCommands rest t := by
  simp only [runCommands, h]

theorem answersTo_cons {n : BitVec 4} {i : Instr} {s t : State} (rest : List Instr) (h : exec i s = .next t) :
    answersTo n (i :: rest) s =
      (if i.fields.ctx = n then t.resp.drop s.resp.length else []) ++ answersTo n rest t := by
  simp only [answersTo, h]

/-- What one session sees of a state: the parameters, the number of slots and its own slot. -/
def SameFor (n : BitVec 4) (s u : State) : Prop := u.cfg = s.cfg ∧ u.nctx = s.nctx ∧ u.slot n = s.slot n

/-- A command on another slot shows nothing to the session (R20). -/
theorem SameFor.of_exec_other {n : BitVec 4} {i : Instr} {s t u : State} (hsu : SameFor n s u) (h : exec i s = .next t)
    (hn : i.fields.ctx ≠ n) : SameFor n t u := by
  obtain ⟨hcfg, hnctx, hslot⟩ := hsu
  obtain ⟨hcfg', hnctx', -, -, -⟩ := exec_frame h
  exact ⟨hcfg.trans hcfg'.symm, hnctx.trans hnctx'.symm, hslot.trans (exec_slot_other h hn).symm⟩

/-- A command of the session answers the same in two states that look the same to it, and leaves two such states. -/
theorem SameFor.exec {n : BitVec 4} {i : Instr} {s u : State} (hsu : SameFor n s u) (hn : i.fields.ctx = n)
    (hclone : ∀ f, i = .ctxClone f → f.a = n) :
    ∃ t v, exec i s = .next t ∧ exec i u = .next v ∧ SameFor n t v ∧
      v.resp.drop u.resp.length = t.resp.drop s.resp.length := by
  obtain ⟨hcfg, hnctx, hslot⟩ := hsu
  subst hn
  obtain ⟨st, p, ⟨h1, h2⟩ | ⟨x, h1, h2⟩⟩ :=
    exec_congr i s u hcfg hnctx hslot fun f hf => by rw [hclone f hf, hslot]
  · exact ⟨_, _, h1, h2, ⟨hcfg, hnctx, hslot⟩, by rw [answered_resp, answered_resp, List.drop_left, List.drop_left]⟩
  · refine ⟨_, _, h1, h2, ⟨hcfg, ?_, ?_⟩, by rw [answeredWith_resp, answeredWith_resp, List.drop_left, List.drop_left]⟩
    · rw [answeredWith_nctx, answeredWith_nctx, hnctx]
    · have hlen : u.ctx.length = s.ctx.length := hnctx
      simp only [State.slot, answeredWith_ctx, List.getD_eq_getElem?_getD, List.getElem?_set, hlen,
        if_true]

/-- Of any sequence, the session sees what it would see of its own commands alone (R20, R60). -/
theorem SameFor.runCommands {n : BitVec 4} {cmds : List Instr} {s u : State} (hsu : SameFor n s u)
    (hclone : ∀ f, Instr.ctxClone f ∈ cmds → f.ctx = n → f.a = n) :
    answersTo n cmds s = answersTo n (cmds.filter fun i => i.fields.ctx = n) u ∧
    ∃ t v, runCommands cmds s = some t ∧ runCommands (cmds.filter fun i => i.fields.ctx = n) u = some v ∧
      t.slot n = v.slot n := by
  induction cmds generalizing s u with
  | nil => exact ⟨rfl, s, u, rfl, rfl, hsu.2.2.symm⟩
  | cons i rest ih =>
    have hrest : ∀ f, Instr.ctxClone f ∈ rest → f.ctx = n → f.a = n :=
      fun f hf => hclone f (List.mem_cons_of_mem i hf)
    by_cases hn : i.fields.ctx = n
    · obtain ⟨t, v, h1, h2, htv, hresp⟩ :=
        hsu.exec hn fun f hf => hclone f (hf ▸ List.mem_cons_self) (by rw [← hn, hf]; rfl)
      obtain ⟨hans, hrun⟩ := ih htv hrest
      rw [List.filter_cons_of_pos (by simpa using hn), answersTo_cons _ h1, answersTo_cons _ h2, runCommands_cons _ h1,
        runCommands_cons _ h2, hresp, hans]
      exact ⟨rfl, hrun⟩
    · obtain ⟨t, h1⟩ := exists_exec i s
      obtain ⟨hans, hrun⟩ := ih (hsu.of_exec_other h1 hn) hrest
      rw [List.filter_cons_of_neg (by simpa using hn), answersTo_cons _ h1, runCommands_cons _ h1, if_neg hn, hans]
      exact ⟨rfl, hrun⟩

/-- Settles O14: a state looks to every session like itself. -/
theorem sessionsAreIndependent : Obligations.SessionsAreIndependent := by
  unfold Obligations.SessionsAreIndependent
  intro n cmds s hclone
  exact SameFor.runCommands ⟨rfl, rfl, rfl⟩ hclone

/-- A slot that no command of a sequence names stays as it is (R57). -/
theorem holdsSlot_of_runCommands {n : BitVec 4} {x : Slot} {cmds : List Instr} {s t : State} (hx : holdsSlot s n x)
    (hrun : runCommands cmds s = some t) (hn : ∀ i ∈ cmds, i.fields.ctx ≠ n) : holdsSlot t n x := by
  induction cmds generalizing s with
  | nil =>
    obtain rfl : s = t := by injection hrun
    exact hx
  | cons i rest ih =>
    obtain ⟨u, hu⟩ := exists_exec i s
    obtain ⟨-, -, -, -, hother⟩ := exec_frame hu
    have hne : n.toNat ≠ i.fields.ctx.toNat := fun e => hn i List.mem_cons_self (BitVec.eq_of_toNat_eq e.symm)
    rw [runCommands_cons _ hu] at hrun
    exact ih ((hother _ hne).trans hx) hrun fun j hj => hn j (List.mem_cons_of_mem i hj)

theorem holdsSlot_answeredWith_other {s : State} {n k : BitVec 4} {x y : Slot} (st : Status) (p : Bytes) (h : n ≠ k)
    (hy : holdsSlot s k y) : holdsSlot (answeredWith s n x st p) k y := by
  have hne : n.toNat ≠ k.toNat := fun e => h (BitVec.eq_of_toNat_eq e)
  rw [holdsSlot, answeredWith_ctx, List.getElem?_set_ne hne]
  exact hy

/-- The form of `CTX.CLONE`: two slots of the file, and nothing else (R291, R79). -/
theorem staticOk_ctxClone {s : State} {f : Fields} (hctx : f.ctx.toNat < s.nctx) (ha : f.a.toNat < s.nctx)
    (himm : f.imm = 0) (hpay : f.payload = []) : staticOk s.nctx (.ctxClone f) = true :=
  staticOk_iff.mpr ⟨decide_eq_true hctx, decide_eq_true ha, beq_iff_eq.mpr himm,
    beq_iff_eq.mpr (List.length_eq_zero_iff.mpr hpay), rfl⟩

/-- Past the static checks `CTX.CLONE` writes what the source reads as, unless the two slots are one (R291). -/
theorem execCtxClone_of_staticOk {s : State} {f : Fields} (hs : staticOk s.nctx (.ctxClone f) = true) :
    execCtxClone f s =
      if f.ctx = f.a then .next (answered s .ok []) else .next (answeredWith s f.ctx (s.slot f.a) .ok []) := by
  rw [execCtxClone, checked_of_staticOk _ hs, respond_eq, respond_setSlot_eq]

/-- Settles O57: the copy, and that of the two slots the one that is not named keeps it. -/
theorem ctxCloneCopiesByValue : Obligations.CtxCloneCopiesByValue := by
  unfold Obligations.CtxCloneCopiesByValue
  intro s f x
  refine ⟨rfl, fun hctx hsrc himm hpay => ?_⟩
  have hexec := execCtxClone_of_staticOk (staticOk_ctxClone hctx (holdsSlot_lt hsrc) himm hpay)
  refine ⟨fun he => ?_, fun hne => ?_⟩
  · exact hexec.trans (if_pos he)
  · rw [if_neg hne, slot_of_holdsSlot hsrc] at hexec
    have hdst : holdsSlot (answeredWith s f.ctx x .ok []) f.ctx x := holdsSlot_answeredWith_same x .ok [] hctx
    have hsrc' : holdsSlot (answeredWith s f.ctx x .ok []) f.a x := holdsSlot_answeredWith_other .ok [] hne hsrc
    exact ⟨hexec, hdst, hsrc', fun cmds t hrun =>
      ⟨holdsSlot_of_runCommands hsrc' hrun, holdsSlot_of_runCommands hdst hrun⟩⟩

end Sys2Proof.Machine

/-! ### The ports (O10) -/

namespace Sys2Proof.Machine

/-- A step on a waiting frame, whatever else waits at the ports: it takes the frame and answers once, and it does so in
the same way (R55, R330, R373). -/
theorem step_shape {s u : State} {frame : Bytes} {rest rest' : List Bytes} (hs : s.cmd = frame :: rest)
    (hu : u.cmd = frame :: rest') (hcfg : u.cfg = s.cfg) (hctx : u.ctx = s.ctx) :
    ∃ ctx st p, step s = .next { s with ctx := ctx, cmd := rest, resp := s.resp ++ [⟨st, p⟩] } ∧
      step u = .next { u with ctx := ctx, cmd := rest', resp := u.resp ++ [⟨st, p⟩] } := by
  cases hd : decode frame with
  | error e => exact ⟨s.ctx, .illegalCommand, [], step_of_decode_error hs hd, by rw [step_of_decode_error hu hd, ← hctx]; rfl⟩
  | ok i =>
    have hn : ({ u with cmd := rest' } : State).nctx = ({ s with cmd := rest } : State).nctx := congrArg List.length hctx
    have hslot : ∀ k, ({ u with cmd := rest' } : State).slot k = ({ s with cmd := rest } : State).slot k := fun k => by
      rw [State.slot, State.slot, hctx]
    obtain ⟨st, p, ⟨h1, h2⟩ | ⟨x, h1, h2⟩⟩ :=
      exec_congr i { s with cmd := rest } { u with cmd := rest' } hcfg hn (hslot _) fun _ _ => hslot _
    · exact ⟨s.ctx, st, p, (step_of_decode hs hd).trans h1, by rw [step_of_decode hu hd, h2, ← hctx]; rfl⟩
    · exact ⟨s.ctx.set i.fields.ctx.toNat x, st, p, (step_of_decode hs hd).trans h1,
        by rw [step_of_decode hu hd, h2, ← hctx]; rfl⟩

/-- As many steps as there are frames waiting answer them all (R62, R344). -/
theorem run_answers_every_frame (n : Nat) (s : State) (hn : s.cmd.length = n) :
    ∃ t rs, core.run n s = .next t ∧ t.cmd = [] ∧ t.resp = s.resp ++ rs ∧ rs.length = n := by
  induction n generalizing s with
  | zero => exact ⟨s, [], rfl, List.eq_nil_of_length_eq_zero hn, (List.append_nil _).symm, rfl⟩
  | succ n ih =>
    obtain ⟨frame, rest, hcmd⟩ := List.exists_cons_of_length_eq_add_one hn
    obtain ⟨ctx, st, p, h, -⟩ := step_shape hcmd hcmd rfl rfl
    have hrest : rest.length = n := by rw [hcmd, List.length_cons] at hn; omega
    obtain ⟨t, rs, hrun, hnone, hresp, hlen⟩ :=
      ih { s with ctx := ctx, cmd := rest, resp := s.resp ++ [⟨st, p⟩] } hrest
    refine ⟨t, ⟨st, p⟩ :: rs, ?_, hnone, ?_, by rw [List.length_cons, hlen]⟩
    · have hcore : core.step s = .next { s with ctx := ctx, cmd := rest, resp := s.resp ++ [⟨st, p⟩] } := h
      simp only [Host.Core.run, hcore]
      exact hrun
    · rw [hresp, List.append_assoc, List.singleton_append]

/-- The host takes the oldest response, as its bytes, where there is one (R51, R55). -/
theorem hostReceive_of_resp {s : State} {r : Response} {rest : List Response} (h : s.resp = r :: rest) :
    hostReceive s = some (responseFrame r, { s with resp := rest }) := by
  simp only [hostReceive, h]

theorem hostReceive_eq_some {s u : State} {bytes : Bytes} (h : hostReceive s = some (bytes, u)) :
    ∃ r rest, s.resp = r :: rest ∧ bytes = responseFrame r ∧ u = { s with resp := rest } := by
  cases hr : s.resp with
  | nil => simp [hostReceive, hr] at h
  | cons r rest =>
    rw [hostReceive_of_resp hr] at h
    obtain ⟨rfl, rfl⟩ : responseFrame r = bytes ∧ { s with resp := rest } = u := by simpa using h
    exact ⟨r, rest, rfl, rfl, rfl⟩

/-- A frame delivered before a step or after it is the same, while another waits in front of it (R373). -/
theorem step_hostSendFrame {s t : State} (frame : Bytes) (hcmd : s.cmd ≠ []) (h : step s = .next t) :
    step (hostSendFrame s frame) = .next (hostSendFrame t frame) := by
  obtain ⟨first, rest, hs⟩ := List.exists_cons_of_ne_nil hcmd
  have hu : (hostSendFrame s frame).cmd = first :: (rest ++ [frame]) := by rw [hostSendFrame, hs]; rfl
  obtain ⟨ctx, st, p, h1, h2⟩ := step_shape hs hu rfl rfl
  obtain rfl : _ = t := by injection h1.symm.trans h
  exact h2

/-- A response taken before a step or after it is the same (R373). -/
theorem step_hostReceive {s t u : State} {bytes : Bytes} (hr : hostReceive s = some (bytes, u)) (h : step s = .next t) :
    ∃ v, hostReceive t = some (bytes, v) ∧ step u = .next v := by
  obtain ⟨r, rest, hresp, rfl, rfl⟩ := hostReceive_eq_some hr
  by_cases hcmd : s.cmd = []
  · obtain rfl : s = t := by injection (step_of_no_frame hcmd).symm.trans h
    exact ⟨_, hr, step_of_no_frame hcmd⟩
  · obtain ⟨first, waiting, hcmd⟩ := List.exists_cons_of_ne_nil hcmd
    have hu : ({ s with resp := rest } : State).cmd = first :: waiting := hcmd
    obtain ⟨ctx, st, p, h1, h2⟩ := step_shape hcmd hu rfl rfl
    obtain rfl : _ = t := by injection h1.symm.trans h
    exact ⟨_, hostReceive_of_resp (by rw [hresp, List.cons_append]), h2⟩

/-- Settles O10: the run over the waiting frames, the two queues, and that they do not meet. -/
theorem everyDeliveredFrameIsAnswered : Obligations.EveryDeliveredFrameIsAnswered := by
  unfold Obligations.EveryDeliveredFrameIsAnswered
  refine ⟨fun s => ?_, fun _ _ => rfl, fun s => ⟨fun hnone => ?_, fun r rest hresp => hostReceive_of_resp hresp⟩,
    fun s t frame hcmd h => step_hostSendFrame frame hcmd h, fun s t u bytes hr h => step_hostReceive hr h⟩
  · obtain ⟨t, rs, hrun, hnone, hresp, hlen⟩ := run_answers_every_frame _ s rfl
    exact ⟨t, rs, hrun, hnone, hresp, hlen, step_of_no_frame hnone⟩
  · simp only [hostReceive, hnone]

end Sys2Proof.Machine

/-! ### The bytes of a query (O59), reset (O16, O17) -/

namespace Sys2Proof.Machine

/-- Settles O59: the query answers the bytes of the slot it names, and these are the codes of its record. -/
theorem ctxQueryAnswersFourBytes : Obligations.CtxQueryAnswersFourBytes := by
  unfold Obligations.CtxQueryAnswersFourBytes
  intro s f x
  refine ⟨rfl, fun hx h0 hpay => ?_⟩
  have hs : staticOk s.nctx (.ctxQuery f) = true :=
    staticOk_slot_fixed rfl rfl (holdsSlot_lt hx) h0 (List.length_eq_zero_iff.mpr hpay)
  refine (execCtxQuery_of_staticOk hs (slot_of_holdsSlot hx)).trans ?_
  cases x with
  | empty => rfl
  | bc c => cases hc : c.cipher <;> cases hp : c.phase <;> simp only [queryBytes, hc, hp] <;> rfl
  | ctr c => cases hc : c.cipher <;> cases hp : c.phase <;> simp only [queryBytes, hc, hp] <;> rfl
  | mgm m => cases hc : m.cipher <;> cases hp : m.phase <;> simp only [queryBytes, hc, hp] <;> rfl
  | omac o => cases hc : o.cipher <;> cases hp : o.phase <;> simp only [queryBytes, hc, hp] <;> rfl

/-- A slot file of empty slots has the invariants (R48). -/
theorem stateWf_of_empty {s : State} (hd : s.cfg.acpkmD.length = keyLen) (hn : 1 ≤ s.nctx ∧ s.nctx ≤ 16)
    (hempty : ∀ x ∈ s.ctx, x = .empty) : StateWf s where
  acpkmD := hd
  nctx := hn
  slots := fun x hx => by rw [hempty x hx]; exact trivial
  streams := fun x hx => by rw [hempty x hx]; exact trivial

/-- Settles O16: the reset state and a unit that is reset hold nothing but empty slots. -/
theorem resetHasTheInvariants : Obligations.ResetHasTheInvariants := by
  unfold Obligations.ResetHasTheInvariants
  refine ⟨stateWf_of_empty (by decide) (by decide) fun x hx => List.eq_of_mem_replicate hx, fun s hd h1 h16 => ?_⟩
  have hn : (hostReset s).nctx = s.nctx := List.length_replicate
  exact stateWf_of_empty hd (by omega) fun x hx => List.eq_of_mem_replicate hx

/-- A slot of a file of empty slots is `Empty`. -/
theorem holdsSlot_of_replicate {s : State} {n : Nat} {i : BitVec 4} (hctx : s.ctx = List.replicate n .empty)
    (hi : i.toNat < n) : holdsSlot s i .empty := by
  rw [holdsSlot, hctx, List.getElem?_replicate_of_lt hi]

/-- Settles O17: the slot files are made of `Empty`, and the ports are written empty. -/
theorem resetEmptiesEverySlot : Obligations.ResetEmptiesEverySlot := by
  unfold Obligations.ResetEmptiesEverySlot
  exact ⟨fun i hi => holdsSlot_of_replicate rfl hi, rfl, rfl, rfl, fun s i hi => holdsSlot_of_replicate rfl hi,
    fun s => ⟨rfl, rfl, rfl⟩⟩

end Sys2Proof.Machine

/-! ### Every step keeps the invariants (O15) -/

namespace Sys2Proof.Machine

/-- A read of a well-formed state gives a well-formed slot, its keystream block included. -/
theorem StateWf.slot {s : State} (h : StateWf s) (n : BitVec 4) : SlotWf (s.slot n) ∧ StreamWf s.cfg (s.slot n) := by
  rw [State.slot, List.getD_eq_getElem?_getD]
  cases hx : s.ctx[n.toNat]? with
  | none => exact ⟨trivial, trivial⟩
  | some x =>
    have hmem : x ∈ s.ctx := List.mem_of_getElem? hx
    exact ⟨h.slots x hmem, h.streams x hmem⟩

/-- An answer keeps the invariants. -/
theorem StateWf.answered {s : State} (h : StateWf s) (st : Status) (p : Bytes) : StateWf (answered s st p) :=
  ⟨h.acpkmD, h.nctx, h.slots, h.streams⟩

/-- A write of a well-formed slot keeps the invariants. -/
theorem StateWf.answeredWith {s : State} {x : Slot} (h : StateWf s) (n : BitVec 4) (st : Status) (p : Bytes)
    (hx : SlotWf x) (hks : StreamWf s.cfg x) : StateWf (answeredWith s n x st p) where
  acpkmD := h.acpkmD
  nctx := by rw [answeredWith_nctx]; exact h.nctx
  slots := fun y hy => (List.mem_or_eq_of_mem_set hy).elim (h.slots y) fun e => e ▸ hx
  streams := fun y hy => (List.mem_or_eq_of_mem_set hy).elim (h.streams y) fun e => e ▸ hks

/-- Every next state of a result has the invariants. -/
def KeepsWf (r : Result) : Prop := ∀ t, r = .next t → StateWf t

/-! One rule for each shared operation a command is made of. -/

theorem keepsWf_next {t : State} (h : StateWf t) : KeepsWf (.next t) := fun u hu => by
  obtain rfl : t = u := by injection hu
  exact h

theorem keepsWf_checked {i : Instr} {s : State} {k : Result} (h : StateWf s)
    (hk : staticOk s.nctx i = true → KeepsWf k) : KeepsWf (checked i s k) := fun t ht => by
  obtain ⟨hs, hnext⟩ | ⟨-, rfl⟩ := checked_cases ht
  · exact hk hs t hnext
  · exact h.answered _ _

theorem keepsWf_require {b : Bool} {st : Status} {s : State} {k : Result} (h : StateWf s)
    (hk : b = true → KeepsWf k) : KeepsWf (require b st s k) := fun t ht => by
  obtain ⟨hb, hnext⟩ | ⟨-, rfl⟩ := require_cases ht
  · exact hk hb t hnext
  · exact h.answered _ _

theorem keepsWf_withCipher {f : Fields} {s : State} {k : Cipher → Result} (h : StateWf s)
    (hk : ∀ c, cipherOf f.a = some c → KeepsWf (k c)) : KeepsWf (withCipher f s k) := fun t ht => by
  obtain ⟨c, hc, hnext⟩ | ⟨-, rfl⟩ := withCipher_cases ht
  · exact hk c hc t hnext
  · exact h.answered _ _

theorem keepsWf_withCtr {f : Fields} {s : State} {k : CtrCtx → Result} (h : StateWf s)
    (hk : ∀ c, GenWf c.cipher c.gen → StreamWf s.cfg (.ctr c) → KeepsWf (k c)) : KeepsWf (withCtr f s k) := fun t ht => by
  obtain ⟨c, hc, hnext⟩ | ⟨-, rfl⟩ := withCtr_cases ht
  · exact hk c (hc ▸ (h.slot f.ctx).1 : SlotWf (.ctr c)) (hc ▸ (h.slot f.ctx).2) t hnext
  · exact h.answered _ _

theorem keepsWf_withMgm {f : Fields} {s : State} {k : MgmCtx → Result} (h : StateWf s)
    (hk : ∀ m, MgmWf m → StreamWf s.cfg (.mgm m) → KeepsWf (k m)) : KeepsWf (withMgm f s k) := fun t ht => by
  obtain ⟨m, hm, hnext⟩ | ⟨-, rfl⟩ := withMgm_cases ht
  · exact hk m (hm ▸ (h.slot f.ctx).1 : SlotWf (.mgm m)) (hm ▸ (h.slot f.ctx).2) t hnext
  · exact h.answered _ _

theorem keepsWf_withOmac {f : Fields} {s : State} {k : OmacCtx → Result} (h : StateWf s)
    (hk : ∀ o, OmacWf o → KeepsWf (k o)) : KeepsWf (withOmac f s k) := fun t ht => by
  obtain ⟨o, ho, hnext⟩ | ⟨-, rfl⟩ := withOmac_cases ht
  · exact hk o (ho ▸ (h.slot f.ctx).1 : SlotWf (.omac o)) t hnext
  · exact h.answered _ _

theorem keepsWf_respond {s : State} (h : StateWf s) (p : Bytes) : KeepsWf (respond s p) := keepsWf_next (h.answered .ok p)

theorem keepsWf_raise {s : State} (h : StateWf s) (st : Status) : KeepsWf (raise s st) := keepsWf_next (h.answered st [])

theorem keepsWf_respond_setSlot {s : State} {x : Slot} (h : StateWf s) (n : BitVec 4) (p : Bytes) (hx : SlotWf x)
    (hks : StreamWf s.cfg x) : KeepsWf (respond (s.setSlot n x) p) :=
  keepsWf_next (h.answeredWith n .ok p hx hks)

/-! The invariants of the records the commands make. -/

/-- A fixed payload length, once the static checks passed (R79 (5)). -/
theorem plen_of_staticOk {nctx n : Nat} {i : Instr} (hs : staticOk nctx i = true) (hr : (rowOf i).fixedLen = some n) :
    i.fields.plen = n := by
  obtain ⟨-, -, -, hplen, -⟩ := staticOk_iff.mp hs
  rw [plenOk, hr] at hplen
  exact beq_iff_eq.mp hplen

/-- The key operand is a key where the payload is long enough for one (R101). -/
theorem length_keyOperand {f : Fields} (h : keyLen ≤ f.plen) : (keyOperand f).length = keyLen :=
  length_slice_of_le (Nat.zero_le _) h

/-- A new CTR context (R144). -/
theorem genWf_new (c : Cipher) {key : Bytes} (hk : key.length = keyLen) :
    GenWf c { key := key, ctr := zeros (bs c), ks := zeros (bs c), num := 0, sect := 0 } :=
  ⟨hk, length_zeros _, length_zeros _, Nat.zero_mod _⟩

/-- A freshly loaded counter block (R145). -/
theorem GenWf.setiv {c : Cipher} {g : CtrGen} {p : Bytes} (h : GenWf c g) (hp : p.length = halfBs c) :
    GenWf c { g with ctr := p ++ zeros (halfBs c), ks := zeros (bs c), num := 0 } where
  key := h.key
  ctr := by rw [IsBlock, List.length_append, hp, length_zeros, halfBs_add_halfBs]
  ks := length_zeros _
  sect := h.sect

/-- A generator rekeyed by hand (R152). -/
theorem GenWf.mesh {cfg : Config} {c : Cipher} {g : CtrGen} (h : GenWf c g) :
    GenWf c { g with key := acpkmNextKey cfg c g.key, num := maskNum c g.num } :=
  { h with key := length_acpkmNextKey .. }

/-- A message that has not begun (R182, R183): everything but the key, the tag length and the nonce is zero. -/
theorem mgmWf_of_zeros {m : MgmCtx} (hkey : m.key.length = keyLen) (htag : 1 ≤ m.taglen ∧ m.taglen ≤ bs m.cipher)
    (hphase : m.phase = .keySet ∨ m.phase = .ivSet) (hnonce : IsBlock m.cipher m.nonce)
    (hset : settop m.nonce false = m.nonce)
    (hblocks : ∀ b ∈ [m.z, m.y, m.sum, m.abuf, m.cbuf, m.ks, m.tag], b = zeros (bs m.cipher))
    (hares : m.ares = 0) (hmres : m.mres = 0) (halen : m.aLen = 0) (hclen : m.cLen = 0) : MgmWf m := by
  simp only [List.forall_mem_cons, List.not_mem_nil, false_implies, implies_true, and_true] at hblocks
  obtain ⟨hz, hy, hsum, habuf, hcbuf, hks, htagb⟩ := hblocks
  have hne : m.phase ≠ .processingAad ∧ m.phase ≠ .processingData := by
    rcases hphase with e | e <;> rw [e] <;> decide
  exact {
    key := hkey
    taglen := htag
    blocks := by
      simp only [List.forall_mem_cons, List.not_mem_nil, false_implies, implies_true, and_true, hz, hy, hsum, habuf,
        hcbuf, hks, htagb, IsBlock, length_zeros]
      exact hnonce
    ares := hares ▸ bs_pos m.cipher
    mres := hmres ▸ bs_pos m.cipher
    abuf := by rw [habuf, hares, drop_zeros]
    cbuf := by rw [hcbuf, hmres, drop_zeros]
    aresWhen := fun h => absurd hares (by omega)
    mresWhen := fun h => absurd hmres (by omega)
    aLen := by rw [halen]; exact Nat.zero_le _
    cLen := by rw [hclen]; exact Nat.zero_le _
    aresIs := fun h => absurd h hne.1
    mresIs := fun h => absurd h hne.2
    nonce := hset
    idle := fun _ => ⟨hz, hy⟩
    aLenZero := fun _ => halen
    cLenZero := fun _ => hclen }

/-- The zero blocks of a message that has not begun. -/
theorem forall_eq_zeros_replicate (n k : Nat) : ∀ b ∈ List.replicate n (zeros k), b = zeros k :=
  fun _ hb => List.eq_of_mem_replicate hb

theorem one_le_bs (c : Cipher) : 1 ≤ bs c ∧ bs c ≤ bs c := ⟨bs_pos c, le_rfl⟩

/-- A new OMAC context, with or without a master (R244, R247): nothing waits and nothing is chained. -/
theorem omacWf_new {c : Cipher} {key k1 : Bytes} {n : BitVec 32} {g : Option CtrGen} (hkey : key.length = keyLen)
    (hk1 : k1.length = bs c) (hn : n.toNat % bs c = 0) (hplain : g = none → n = 0)
    (hg : ∀ m, g = some m → GenWf c m ∧ m.num.toNat % bs c = 0) :
    OmacWf { cipher := c, phase := .keySet, key := key, k1 := k1, k2 := dbl c k1, chain := zeros (bs c),
             lbuf := zeros (bs c), nlast := 0, num := 0, n := n, maclen := bs c, mac := zeros (bs c), master := g } where
  key := hkey
  blocks := by
    simp only [List.forall_mem_cons, List.not_mem_nil, false_implies, implies_true, and_true, IsBlock, length_dbl,
      length_zeros]
    exact hk1
  maclen := one_le_bs c
  nlast := Nat.zero_le _
  lbuf := drop_zeros ..
  k2 := rfl
  num := Nat.zero_mod _
  n := hn
  numLe := fun _ _ => Nat.zero_le _
  plain := fun h => hplain (Option.isNone_iff_eq_none.mp (by simpa [OmacCtx.acpkm] using h))
  master := hg

/-- Four bytes of a payload make a 32-bit number, so storing them loses nothing. -/
theorem toNat_ofNat_initaN (p : Bytes) : (BitVec.ofNat 32 (initaN p)).toNat = initaN p := toNat_ofNat_intOf_slice p 32

theorem toNat_ofNat_initaT (p : Bytes) : (BitVec.ofNat 32 (initaT p)).toNat = initaT p := toNat_ofNat_intOf_slice p 36

/-- What is left of a new master has its widths, and its `num` is a multiple of a block (R247). -/
theorem genWf_masterKeys {cfg : Config} {c : Cipher} {g : CtrGen} (h : GenWf c g) (hnum : g.num.toNat % bs c = 0) :
    GenWf c (masterKeys cfg c g).2 ∧ (masterKeys cfg c g).2.num.toNat % bs c = 0 := by
  refine ⟨h.ctrStream _, ?_⟩
  rw [masterKeys, ctrStream_num_mod, length_zeros, Nat.add_mod, hnum, keyLen_add_bs_mod, Nat.zero_add, Nat.zero_mod]

/-! The commands. -/

section
variable {s : State} (h : StateWf s) (f : Fields)
include h

theorem keepsWf_execBcSetkey : KeepsWf (execBcSetkey f s) :=
  keepsWf_checked h fun hs => keepsWf_withCipher h fun _ _ =>
    keepsWf_respond_setSlot h _ _ (length_keyOperand (plen_of_staticOk hs rfl).ge) trivial

theorem keepsWf_execCtrSetkey : KeepsWf (execCtrSetkey f s) :=
  keepsWf_checked h fun hs => keepsWf_withCipher h fun c _ =>
    keepsWf_respond_setSlot h _ _ (genWf_new c (length_keyOperand (plen_of_staticOk hs rfl).ge))
      (streamWf_ctr_idle (Nat.zero_mod _))

theorem keepsWf_execCtrSetiv : KeepsWf (execCtrSetiv f s) :=
  keepsWf_checked h fun _ => keepsWf_withCtr h fun _ hg _ => keepsWf_require h fun hlen =>
    keepsWf_respond_setSlot h _ _ (GenWf.setiv hg (beq_iff_eq.mp hlen)) (streamWf_ctr_idle (Nat.zero_mod _))

theorem keepsWf_execCtrSection : KeepsWf (execCtrSection f s) :=
  keepsWf_checked h fun hs => keepsWf_withCtr h fun c hg hks => keepsWf_require h fun hmod => by
    have hplen : f.plen = 4 := plen_of_staticOk hs rfl
    have hsize : (BitVec.ofNat 32 (sectionSize f)).toNat % bs c.cipher = 0 := by
      rw [toNat_sectionSize hplen]
      exact beq_iff_eq.mp hmod
    exact keepsWf_respond_setSlot h _ _ { hg with sect := hsize } hks

theorem keepsWf_execCtrCrypt : KeepsWf (execCtrCrypt f s) :=
  keepsWf_checked h fun _ => keepsWf_withCtr h fun _ hg hks => keepsWf_require h fun _ =>
    keepsWf_respond_setSlot h _ _ (hg.ctrStream f.payload) (hks.ctrStream hg f.payload)

theorem keepsWf_execAcpkmMesh : KeepsWf (execAcpkmMesh f s) := keepsWf_checked h fun _ => by
  have hslot := h.slot f.ctx
  cases hx : s.slot f.ctx with
  | bc c => exact keepsWf_respond_setSlot h _ _ (length_acpkmNextKey ..) trivial
  | ctr c =>
    rw [hx] at hslot
    exact keepsWf_respond_setSlot h _ _ (GenWf.mesh hslot.1) hslot.2.mesh
  | empty => exact keepsWf_raise h _
  | mgm m => exact keepsWf_raise h _
  | omac o => exact keepsWf_raise h _

theorem keepsWf_execMgmInit : KeepsWf (execMgmInit f s) :=
  keepsWf_checked h fun hs => keepsWf_withCipher h fun c _ =>
    keepsWf_respond_setSlot h _ _
      (mgmWf_of_zeros (length_keyOperand (plen_of_staticOk hs rfl).ge) (one_le_bs c) (.inl rfl) (length_zeros _)
        (settop_zeros _) (forall_eq_zeros_replicate 7 (bs c)) rfl rfl rfl rfl)
      (streamWf_mgm_idle rfl)

theorem keepsWf_execMgmSetiv : KeepsWf (execMgmSetiv f s) :=
  keepsWf_checked h fun _ => keepsWf_withMgm h fun m hm _ => keepsWf_require h fun hlen =>
    keepsWf_respond_setSlot h _ _
      (mgmWf_of_zeros hm.key hm.taglen (.inr rfl) ((length_settop ..).trans (beq_iff_eq.mp hlen)) (settop_settop ..)
        (forall_eq_zeros_replicate 7 (bs m.cipher)) rfl rfl rfl rfl)
      (streamWf_mgm_idle rfl)

theorem keepsWf_execMgmTaglen : KeepsWf (execMgmTaglen f s) :=
  keepsWf_checked h fun _ => keepsWf_withMgm h fun _ hm hks => keepsWf_require h fun _ => keepsWf_require h fun hlen =>
    keepsWf_respond_setSlot h _ _ { hm with taglen := (lenOk_iff _ _).mp hlen } hks

theorem keepsWf_execMgmAad : KeepsWf (execMgmAad f s) :=
  keepsWf_checked h fun _ => keepsWf_withMgm h fun m hm hks => keepsWf_require h fun hp => keepsWf_require h fun hfit =>
    keepsWf_respond_setSlot h _ _ (hm.aad s.cfg f.payload ((mgmAadPhase_iff m).mp hp) ((mgmFits_iff ..).mp hfit))
      (hks.mgmAad f.payload)

theorem keepsWf_mgmDataCommand (d : Dir) : KeepsWf (mgmDataCommand f s d) :=
  keepsWf_withMgm h fun m hm hks => keepsWf_require h fun hp => keepsWf_require h fun _ => keepsWf_require h fun hfit => by
    have hphase : m.phase = .ivSet ∨ m.phase = .processingAad ∨ m.phase = .processingData := by
      simpa [mgmDataPhase, or_assoc] using hp
    exact keepsWf_respond_setSlot h _ _ (hm.data s.cfg f.payload d hphase ((mgmFits_iff ..).mp hfit))
      (hks.mgmData hm f.payload d)

theorem keepsWf_execMgmFinish : KeepsWf (execMgmFinish f s) :=
  keepsWf_checked h fun _ => keepsWf_withMgm h fun m hm _ => keepsWf_require h fun _ =>
    keepsWf_respond_setSlot h _ _ (hm.finish s.cfg) (streamWf_mgmFinish s.cfg m)

theorem keepsWf_execMgmVerify : KeepsWf (execMgmVerify f s) :=
  keepsWf_checked h fun _ => keepsWf_withMgm h fun m hm _ => keepsWf_require h fun _ => keepsWf_require h fun _ => by
    dsimp only
    split
    · exact keepsWf_respond_setSlot h _ _ (hm.finish s.cfg) (streamWf_mgmFinish s.cfg m)
    · exact keepsWf_next (h.answeredWith _ _ _ (hm.finish s.cfg) (streamWf_mgmFinish s.cfg m))

theorem keepsWf_execOmacInit : KeepsWf (execOmacInit f s) :=
  keepsWf_checked h fun hs => keepsWf_withCipher h fun _ _ =>
    keepsWf_respond_setSlot h _ _
      (omacWf_new (length_keyOperand (plen_of_staticOk hs rfl).ge) (length_dbl ..) (Nat.zero_mod _) (fun _ => rfl)
        fun _ hg => absurd hg (Option.some_ne_none _).symm) trivial

theorem keepsWf_execOmacInita : KeepsWf (execOmacInita f s) :=
  keepsWf_checked h fun hs => keepsWf_withCipher h fun c hc => by
    obtain ⟨-, -, -, -, hsec⟩ := staticOk_iff.mp hs
    obtain ⟨hn, ht⟩ := (sectionsOk_omacInita_iff (cipherOf_eq_some hc)).mp hsec
    have hplen : f.plen = 40 := plen_of_staticOk hs rfl
    have hkey : (keyOperand f).length = keyLen := length_keyOperand (by rw [hplen]; decide)
    have hmaster : GenWf c (masterInit c (keyOperand f) (initaT f.payload)) :=
      genWf_masterInit c hkey (by rw [toNat_ofNat_initaT, ht])
    refine keepsWf_respond_setSlot h _ _ (omacWf_new (length_masterKey ..) (length_masterSubkey ..) ?_ ?_ ?_) trivial
    · rw [sections, toNat_ofNat_initaN, hn]
    · exact fun hg => absurd hg (Option.some_ne_none _)
    · rintro g ⟨rfl⟩
      exact genWf_masterKeys hmaster (Nat.zero_mod _)

theorem keepsWf_execOmacMaclen : KeepsWf (execOmacMaclen f s) :=
  keepsWf_checked h fun _ => keepsWf_withOmac h fun _ ho => keepsWf_require h fun _ => keepsWf_require h fun hlen =>
    keepsWf_respond_setSlot h _ _ { ho with maclen := (lenOk_iff _ _).mp hlen } trivial

theorem keepsWf_execOmacUpdate : KeepsWf (execOmacUpdate f s) :=
  keepsWf_checked h fun _ => keepsWf_withOmac h fun _ ho => keepsWf_require h fun _ =>
    keepsWf_respond_setSlot h _ _ (ho.update s.cfg f.payload) trivial

theorem keepsWf_execOmacFinal : KeepsWf (execOmacFinal f s) :=
  keepsWf_checked h fun _ => keepsWf_withOmac h fun _ ho => keepsWf_require h fun _ =>
    keepsWf_respond_setSlot h _ _ (ho.final s.cfg) trivial

theorem keepsWf_execCtxClone : KeepsWf (execCtxClone f s) := keepsWf_checked h fun _ => by
  split
  · exact keepsWf_respond h _
  · exact keepsWf_respond_setSlot h _ _ (h.slot f.a).1 (h.slot f.a).2

theorem keepsWf_execCtxDestroy : KeepsWf (execCtxDestroy f s) :=
  keepsWf_checked h fun _ => keepsWf_respond_setSlot h _ _ trivial trivial

end

/-- A command that only reads keeps the invariants as any answer does. -/
theorem keepsWf_exec_of_readsOnly {i : Instr} {s : State} (h : StateWf s) (hr : readsOnly i = true) :
    KeepsWf (exec i s) := by
  obtain ⟨st, p, hs, -⟩ := exec_of_readsOnly (s := s) hr
  rw [hs]
  exact keepsWf_next (h.answered st p)

theorem keepsWf_exec {s : State} (h : StateWf s) (i : Instr) : KeepsWf (exec i s) := by
  cases i with
  | nop f => exact keepsWf_exec_of_readsOnly h rfl
  | bcEnc f => exact keepsWf_exec_of_readsOnly h rfl
  | bcDec f => exact keepsWf_exec_of_readsOnly h rfl
  | gfMul64 f => exact keepsWf_exec_of_readsOnly h rfl
  | gfMul128 f => exact keepsWf_exec_of_readsOnly h rfl
  | ctxQuery f => exact keepsWf_exec_of_readsOnly h rfl
  | bcSetkey f => exact keepsWf_execBcSetkey h f
  | ctrSetkey f => exact keepsWf_execCtrSetkey h f
  | ctrSetiv f => exact keepsWf_execCtrSetiv h f
  | ctrSection f => exact keepsWf_execCtrSection h f
  | ctrCrypt f => exact keepsWf_execCtrCrypt h f
  | acpkmMesh f => exact keepsWf_execAcpkmMesh h f
  | mgmInit f => exact keepsWf_execMgmInit h f
  | mgmSetiv f => exact keepsWf_execMgmSetiv h f
  | mgmTaglen f => exact keepsWf_execMgmTaglen h f
  | mgmAad f => exact keepsWf_execMgmAad h f
  | mgmEnc f => exact keepsWf_checked h fun _ => keepsWf_mgmDataCommand h f .enc
  | mgmDec f => exact keepsWf_checked h fun _ => keepsWf_mgmDataCommand h f .dec
  | mgmFinish f => exact keepsWf_execMgmFinish h f
  | mgmVerify f => exact keepsWf_execMgmVerify h f
  | omacInit f => exact keepsWf_execOmacInit h f
  | omacInita f => exact keepsWf_execOmacInita h f
  | omacMaclen f => exact keepsWf_execOmacMaclen h f
  | omacUpdate f => exact keepsWf_execOmacUpdate h f
  | omacFinal f => exact keepsWf_execOmacFinal h f
  | ctxClone f => exact keepsWf_execCtxClone h f
  | ctxDestroy f => exact keepsWf_execCtxDestroy h f

/-- Settles O15: taking a frame touches no slot, and every command keeps the invariants. -/
theorem stepKeepsTheInvariants : Obligations.StepKeepsTheInvariants := by
  unfold Obligations.StepKeepsTheInvariants
  intro s t h hstep
  cases hcmd : s.cmd with
  | nil =>
    obtain rfl : s = t := by injection (step_of_no_frame hcmd).symm.trans hstep
    exact h
  | cons frame rest =>
    have hrest : StateWf { s with cmd := rest } := ⟨h.acpkmD, h.nctx, h.slots, h.streams⟩
    cases hd : decode frame with
    | ok i => exact keepsWf_exec hrest i t ((step_of_decode hcmd hd).symm.trans hstep)
    | error e => exact keepsWf_next (hrest.answered _ _) t ((step_of_decode_error hcmd hd).symm.trans hstep)

end Sys2Proof.Machine

/-! ### Which status a command answers, and what it leaves after an error (O11, O12) -/

namespace Sys2Proof.Machine

/-- A result of a command past the static checks: one response, `OK` or of an allowed status, with no payload where it is not
`OK`; and no slot is written under any status but `OK` and `AuthenticationFailed` (R330, R341). -/
def AnswersIn (allowed : List Status) (s : State) (r : Result) : Prop :=
  ∃ st p, (st = .ok ∨ st ∈ allowed) ∧ (st ≠ .ok → p = []) ∧
    (r = .next (answered s st p) ∨
      ∃ n x, r = .next (answeredWith s n x st p) ∧ (st = .ok ∨ st = .authenticationFailed))

/-! One rule for each shared operation a command is made of. -/

section
variable {allowed : List Status} {s : State}

theorem answersIn_respond (p : Bytes) : AnswersIn allowed s (respond s p) :=
  ⟨.ok, p, .inl rfl, fun h => absurd rfl h, .inl rfl⟩

theorem answersIn_respond_setSlot (n : BitVec 4) (x : Slot) (p : Bytes) :
    AnswersIn allowed s (respond (s.setSlot n x) p) :=
  ⟨.ok, p, .inl rfl, fun h => absurd rfl h, .inr ⟨n, x, rfl, .inl rfl⟩⟩

theorem answersIn_raise {st : Status} (hst : st ∈ allowed) : AnswersIn allowed s (raise s st) :=
  ⟨st, [], .inr hst, fun _ => rfl, .inl rfl⟩

theorem answersIn_checked {i : Instr} {k : Result} (hs : staticOk s.nctx i = true) (hk : AnswersIn allowed s k) :
    AnswersIn allowed s (checked i s k) := by
  rw [checked_of_staticOk k hs]
  exact hk

theorem answersIn_require {b : Bool} {st : Status} {k : Result} (hst : st ∈ allowed) (hk : AnswersIn allowed s k) :
    AnswersIn allowed s (require b st s k) := by
  cases b
  · exact answersIn_raise hst
  · exact hk

/-- Past the static checks the `A` field of a creating command is the code of a cipher (R79 (3)). -/
theorem exists_cipherOf {nctx : Nat} {i : Instr} (hs : staticOk nctx i = true) (hr : (rowOf i).aUse = .cipher) :
    ∃ c, cipherOf i.fields.a = some c := by
  obtain ⟨-, ha, -, -, -⟩ := staticOk_iff.mp hs
  rw [aOk, hr] at ha
  have hle : i.fields.a.toNat ≤ 1 := of_decide_eq_true ha
  rcases Nat.le_one_iff_eq_zero_or_eq_one.mp hle with h0 | h1
  · exact ⟨.magma, cipherOf_of_code h0⟩
  · exact ⟨.grasshopper, cipherOf_of_code h1⟩

theorem answersIn_withCipher {i : Instr} {k : Cipher → Result} (hs : staticOk s.nctx i = true)
    (hr : (rowOf i).aUse = .cipher) (hk : ∀ c, AnswersIn allowed s (k c)) :
    AnswersIn allowed s (withCipher i.fields s k) := by
  obtain ⟨c, hc⟩ := exists_cipherOf hs hr
  rw [withCipher_of_code k (cipherOf_eq_some hc)]
  exact hk c

theorem answersIn_withBc {f : Fields} {k : BcCtx → Result} (hst : .keyNotSet ∈ allowed)
    (hk : ∀ c, AnswersIn allowed s (k c)) : AnswersIn allowed s (withBc f s k) := by
  unfold withBc
  split
  · exact hk _
  · exact answersIn_raise hst

theorem answersIn_withCtr {f : Fields} {k : CtrCtx → Result} (hst : .keyNotSet ∈ allowed)
    (hk : ∀ c, AnswersIn allowed s (k c)) : AnswersIn allowed s (withCtr f s k) := by
  unfold withCtr
  split
  · exact hk _
  · exact answersIn_raise hst

theorem answersIn_withMgm {f : Fields} {k : MgmCtx → Result} (hst : .keyNotSet ∈ allowed)
    (hk : ∀ m, AnswersIn allowed s (k m)) : AnswersIn allowed s (withMgm f s k) := by
  unfold withMgm
  split
  · exact hk _
  · exact answersIn_raise hst

theorem answersIn_withOmac {f : Fields} {k : OmacCtx → Result} (hst : .macKeyNotSet ∈ allowed)
    (hk : ∀ o, AnswersIn allowed s (k o)) : AnswersIn allowed s (withOmac f s k) := by
  unfold withOmac
  split
  · exact hk _
  · exact answersIn_raise hst

theorem answersIn_mgmDataCommand (f : Fields) (d : Dir) :
    AnswersIn [.keyNotSet, .badOrder, .dataTooLarge] s (mgmDataCommand f s d) :=
  answersIn_withMgm (by decide) fun _ => answersIn_require (by decide) <| answersIn_require (by decide) <|
    answersIn_require (by decide) <| answersIn_respond_setSlot _ _ _

end

/-- Every command against its row of the table of R342. -/
theorem exec_answersIn {i : Instr} {s : State} (hs : staticOk s.nctx i = true) : AnswersIn (mayRaise i) s (exec i s) := by
  cases i with
  | nop f => exact answersIn_checked hs <| answersIn_respond _
  | bcSetkey f =>
    exact answersIn_checked hs <| answersIn_withCipher hs rfl fun _ => answersIn_respond_setSlot _ _ _
  | bcEnc f =>
    exact answersIn_checked hs <| answersIn_withBc (by simp [mayRaise]) fun _ =>
      answersIn_require (by simp [mayRaise]) <| answersIn_respond _
  | bcDec f =>
    exact answersIn_checked hs <| answersIn_withBc (by simp [mayRaise]) fun _ =>
      answersIn_require (by simp [mayRaise]) <| answersIn_respond _
  | gfMul64 f => exact answersIn_checked hs <| answersIn_respond _
  | gfMul128 f => exact answersIn_checked hs <| answersIn_respond _
  | ctrSetkey f =>
    exact answersIn_checked hs <| answersIn_withCipher hs rfl fun _ => answersIn_respond_setSlot _ _ _
  | ctrSetiv f =>
    exact answersIn_checked hs <| answersIn_withCtr (by simp [mayRaise]) fun _ =>
      answersIn_require (by simp [mayRaise]) <| answersIn_respond_setSlot _ _ _
  | ctrSection f =>
    exact answersIn_checked hs <| answersIn_withCtr (by simp [mayRaise]) fun _ =>
      answersIn_require (by simp [mayRaise]) <| answersIn_respond_setSlot _ _ _
  | ctrCrypt f =>
    exact answersIn_checked hs <| answersIn_withCtr (by simp [mayRaise]) fun _ =>
      answersIn_require (by simp [mayRaise]) <| answersIn_respond_setSlot _ _ _
  | acpkmMesh f =>
    refine answersIn_checked hs ?_
    split
    · exact answersIn_respond_setSlot _ _ _
    · exact answersIn_respond_setSlot _ _ _
    · exact answersIn_raise (by simp [mayRaise])
  | mgmInit f =>
    exact answersIn_checked hs <| answersIn_withCipher hs rfl fun _ => answersIn_respond_setSlot _ _ _
  | mgmSetiv f =>
    exact answersIn_checked hs <| answersIn_withMgm (by simp [mayRaise]) fun _ =>
      answersIn_require (by simp [mayRaise]) <| answersIn_respond_setSlot _ _ _
  | mgmTaglen f =>
    exact answersIn_checked hs <| answersIn_withMgm (by simp [mayRaise]) fun _ =>
      answersIn_require (by simp [mayRaise]) <| answersIn_require (by simp [mayRaise]) <|
        answersIn_respond_setSlot _ _ _
  | mgmAad f =>
    exact answersIn_checked hs <| answersIn_withMgm (by simp [mayRaise]) fun _ =>
      answersIn_require (by simp [mayRaise]) <| answersIn_require (by simp [mayRaise]) <|
        answersIn_respond_setSlot _ _ _
  | mgmEnc f => exact answersIn_checked hs <| answersIn_mgmDataCommand f .enc
  | mgmDec f => exact answersIn_checked hs <| answersIn_mgmDataCommand f .dec
  | mgmFinish f =>
    exact answersIn_checked hs <| answersIn_withMgm (by simp [mayRaise]) fun _ =>
      answersIn_require (by simp [mayRaise]) <| answersIn_respond_setSlot _ _ _
  | mgmVerify f =>
    refine answersIn_checked hs <| answersIn_withMgm (by simp [mayRaise]) fun _ =>
      answersIn_require (by simp [mayRaise]) <| answersIn_require (by simp [mayRaise]) ?_
    dsimp only
    split
    · exact answersIn_respond_setSlot _ _ _
    · exact ⟨.authenticationFailed, [], .inr (by simp [mayRaise]), fun _ => rfl, .inr ⟨_, _, rfl, .inr rfl⟩⟩
  | omacInit f =>
    exact answersIn_checked hs <| answersIn_withCipher hs rfl fun _ => answersIn_respond_setSlot _ _ _
  | omacInita f =>
    exact answersIn_checked hs <| answersIn_withCipher hs rfl fun _ => answersIn_respond_setSlot _ _ _
  | omacMaclen f =>
    exact answersIn_checked hs <| answersIn_withOmac (by simp [mayRaise]) fun _ =>
      answersIn_require (by simp [mayRaise]) <| answersIn_require (by simp [mayRaise]) <|
        answersIn_respond_setSlot _ _ _
  | omacUpdate f =>
    exact answersIn_checked hs <| answersIn_withOmac (by simp [mayRaise]) fun _ =>
      answersIn_require (by simp [mayRaise]) <| answersIn_respond_setSlot _ _ _
  | omacFinal f =>
    exact answersIn_checked hs <| answersIn_withOmac (by simp [mayRaise]) fun _ =>
      answersIn_require (by simp [mayRaise]) <| answersIn_respond_setSlot _ _ _
  | ctxClone f =>
    refine answersIn_checked hs ?_
    split
    · exact answersIn_respond _
    · exact answersIn_respond_setSlot _ _ _
  | ctxDestroy f => exact answersIn_checked hs <| answersIn_respond_setSlot _ _ _
  | ctxQuery f => exact answersIn_checked hs <| answersIn_respond _

theorem AnswersIn.exists_next {allowed : List Status} {s : State} {r : Result} (h : AnswersIn allowed s r) :
    ∃ t st p, r = .next t ∧ t.resp = s.resp ++ [⟨st, p⟩] ∧ (st ≠ .ok → p = []) ∧ (st = .ok ∨ st ∈ allowed) ∧
      (st ≠ .ok → st ≠ .authenticationFailed → t = answered s st []) := by
  obtain ⟨st, p, hst, hp, hr | ⟨n, x, hr, hwritten⟩⟩ := h
  · exact ⟨_, st, p, hr, rfl, hp, hst, fun hne _ => by rw [hp hne]⟩
  · exact ⟨_, st, p, hr, rfl, hp, hst, fun hok hauth => absurd hwritten (by tauto)⟩

/-- The two reserved statuses are in no row of the table (R338). -/
theorem reserved_not_mem_mayRaise (i : Instr) : .badMac ∉ mayRaise i ∧ .internalError ∉ mayRaise i := by
  cases i <;> simp [mayRaise]

/-- Settles O11: the static checks answer one status, and past them the table holds command by command. -/
theorem statusesOfTheTable : Obligations.StatusesOfTheTable := by
  unfold Obligations.StatusesOfTheTable
  intro i s
  cases hs : staticOk s.nctx i with
  | false =>
    exact ⟨_, .illegalCommand, [], exec_of_not_staticOk hs, rfl, fun _ => rfl, fun _ => rfl,
      fun h => Bool.noConfusion h, fun h => Bool.noConfusion h, by decide, by decide⟩
  | true =>
    obtain ⟨t, st, p, hexec, hresp, hp, hst, -⟩ := (exec_answersIn hs).exists_next
    obtain ⟨hbad, hint⟩ := reserved_not_mem_mayRaise i
    refine ⟨t, st, p, hexec, hresp, hp, fun h => Bool.noConfusion h, fun _ => hst, fun _ hnil => ?_, ?_, ?_⟩
    · exact hst.resolve_right (by rw [hnil]; exact List.not_mem_nil)
    · rintro rfl
      exact hst.elim (by decide) hbad
    · rintro rfl
      exact hst.elim (by decide) hint

/-- `AuthenticationFailed` is in the row of `MGM.VERIFY` only (R342). -/
theorem eq_mgmVerify_of_authenticationFailed {i : Instr} (h : .authenticationFailed ∈ mayRaise i) :
    i = .mgmVerify i.fields := by
  cases i with
  | mgmVerify f => rfl
  | _ => simp [mayRaise] at h

/-- Two answers to one state are of one status. -/
theorem status_of_resp_eq {s : State} {st st' : Status} {p p' : Bytes}
    (h : s.resp ++ [⟨st, p⟩] = s.resp ++ [⟨st', p'⟩]) : st = st' := by
  have hone := List.append_cancel_left h
  simp only [List.cons.injEq, Response.mk.injEq] at hone
  exact hone.1.1

/-- Where `MGM.VERIFY` answers `AuthenticationFailed` the message has been finished (R193, R341). -/
theorem execMgmVerify_authenticationFailed {f : Fields} {s t : State} {p : Bytes} (h : execMgmVerify f s = .next t)
    (hresp : t.resp = s.resp ++ [⟨.authenticationFailed, p⟩]) :
    ∃ m, s.slot f.ctx = .mgm m ∧
      t = answeredWith s f.ctx (.mgm (mgmFinish s.cfg m)) .authenticationFailed [] := by
  obtain ⟨-, h⟩ | ⟨-, rfl⟩ := checked_cases h
  · obtain ⟨m, hm, h⟩ | ⟨-, rfl⟩ := withMgm_cases h
    · obtain ⟨-, h⟩ | ⟨-, rfl⟩ := require_cases h
      · obtain ⟨-, h⟩ | ⟨-, rfl⟩ := require_cases h
        · dsimp only at h
          split at h
          · obtain rfl : answeredWith s f.ctx (.mgm (mgmFinish s.cfg m)) .ok [] = t := by injection h
            exact absurd (status_of_resp_eq hresp) (by decide)
          · exact ⟨m, hm, by injection h.symm⟩
        · exact absurd (status_of_resp_eq hresp) (by decide)
      · exact absurd (status_of_resp_eq hresp) (by decide)
    · exact absurd (status_of_resp_eq hresp) (by decide)
  · exact absurd (status_of_resp_eq hresp) (by decide)

@[simp] theorem mgmFlushAad_ares (cfg : Config) (m : MgmCtx) : (mgmFlushAad cfg m).ares = 0 := by
  unfold mgmFlushAad
  split
  · rfl
  · omega

@[simp] theorem mgmFlushData_mres (cfg : Config) (m : MgmCtx) : (mgmFlushData cfg m).mres = 0 := by
  unfold mgmFlushData
  split
  · rfl
  · omega

/-- A finished context is `Finalized`, its buffers flushed (R189). -/
theorem mgmFinish_flushed (cfg : Config) (m : MgmCtx) :
    (mgmFinish cfg m).phase = .finalized ∧ (mgmFinish cfg m).ares = 0 ∧ (mgmFinish cfg m).mres = 0 := by
  rw [mgmFinish_eq]
  simp only [mgmFold_ares, mgmFold_mres, mgmFlushData_ares, mgmFlushAad_ares, mgmFlushData_mres, and_self]

/-- Settles O12: no slot is written under an error but `AuthenticationFailed`, which only the finished message answers. -/
theorem refusedCommandsChangeNothing : Obligations.RefusedCommandsChangeNothing := by
  unfold Obligations.RefusedCommandsChangeNothing
  intro i s
  cases hs : staticOk s.nctx i with
  | false =>
    exact ⟨_, .illegalCommand, [], exec_of_not_staticOk hs, rfl, fun _ _ => rfl, fun h => Status.noConfusion h⟩
  | true =>
    obtain ⟨t, st, p, hexec, hresp, -, hst, hsame⟩ := (exec_answersIn hs).exists_next
    refine ⟨t, st, p, hexec, hresp, hsame, ?_⟩
    rintro rfl
    have hi := eq_mgmVerify_of_authenticationFailed (hst.resolve_left (by decide))
    rw [hi] at hexec
    obtain ⟨m, hm, ht⟩ := execMgmVerify_authenticationFailed hexec hresp
    have hctx : i.fields.ctx.toNat < s.nctx := ctx_lt_of_staticOk (by rw [hi]; rfl) hs
    exact ⟨i.fields, m, hi, hm ▸ holdsSlot_slot hctx, ht, mgmFinish_flushed s.cfg m⟩

end Sys2Proof.Machine

/-! ### `BC.ENC`, `BC.DEC` and the field multiplier commands (O19, O21) -/

namespace Sys2Proof.Machine

/-- R102 (1): on a slot that is not `BC`, `BC.ENC` answers `KeyNotSet`. -/
theorem execBcEnc_of_other {s : State} {f : Fields} (hs : staticOk s.nctx (.bcEnc f) = true) (hctx : f.ctx.toNat < s.nctx)
    (hother : ∀ c, ¬ holdsSlot s f.ctx (.bc c)) : execBcEnc f s = .next (answered s .keyNotSet []) := by
  rw [execBcEnc, checked_of_staticOk _ hs, withBc_of_other _ hctx hother]

/-- On a `BC` slot `BC.ENC` takes exactly one block (R102). -/
theorem execBcEnc_of_slot {s : State} {f : Fields} {c : BcCtx} (hs : staticOk s.nctx (.bcEnc f) = true)
    (hc : s.slot f.ctx = .bc c) :
    execBcEnc f s =
      if f.plen = bs c.cipher then .next (answered s .ok (encBlock s.cfg.bc c.cipher c.key f.payload))
      else .next (answered s .illegalCommand []) := by
  rw [execBcEnc, checked_of_staticOk _ hs, withBc_of_slot _ hc]
  split
  · next hlen => rw [beq_iff_eq.mpr hlen, require_true, respond_eq]
  · next hlen => rw [beq_eq_false_iff_ne.mpr hlen, require_false]

/-- R103 (1): on a slot that is not `BC`, `BC.DEC` answers `KeyNotSet`. -/
theorem execBcDec_of_other {s : State} {f : Fields} (hs : staticOk s.nctx (.bcDec f) = true) (hctx : f.ctx.toNat < s.nctx)
    (hother : ∀ c, ¬ holdsSlot s f.ctx (.bc c)) : execBcDec f s = .next (answered s .keyNotSet []) := by
  rw [execBcDec, checked_of_staticOk _ hs, withBc_of_other _ hctx hother]

/-- On a `BC` slot `BC.DEC` takes exactly one block (R103). -/
theorem execBcDec_of_slot {s : State} {f : Fields} {c : BcCtx} (hs : staticOk s.nctx (.bcDec f) = true)
    (hc : s.slot f.ctx = .bc c) :
    execBcDec f s =
      if f.plen = bs c.cipher then .next (answered s .ok (decBlock s.cfg.bc c.cipher c.key f.payload))
      else .next (answered s .illegalCommand []) := by
  rw [execBcDec, checked_of_staticOk _ hs, withBc_of_slot _ hc]
  split
  · next hlen => rw [beq_iff_eq.mpr hlen, require_true, respond_eq]
  · next hlen => rw [beq_eq_false_iff_ne.mpr hlen, require_false]

/-- Settles O19: the kind check, the length check, and that what is answered is itself a block, which the law of R9
sends back. -/
theorem bcEncAndDecAnswerABlock : Obligations.BcEncAndDecAnswerABlock := by
  unfold Obligations.BcEncAndDecAnswerABlock
  intro s f
  refine ⟨rfl, rfl, fun hctx h0 => ?_⟩
  have hsE : ∀ p, staticOk s.nctx (.bcEnc { f with payload := p }) = true := fun _ => staticOk_slot rfl rfl hctx h0
  have hsD : ∀ p, staticOk s.nctx (.bcDec { f with payload := p }) = true := fun _ => staticOk_slot rfl rfl hctx h0
  refine ⟨fun hother => ?_, fun c hc hlen => ?_, fun c hc hlen => ?_⟩
  · exact ⟨execBcEnc_of_other (hsE f.payload) hctx hother, execBcDec_of_other (hsD f.payload) hctx hother⟩
  · have hslot := slot_of_holdsSlot hc
    exact ⟨(execBcEnc_of_slot (hsE f.payload) hslot).trans (if_neg hlen),
      (execBcDec_of_slot (hsD f.payload) hslot).trans (if_neg hlen)⟩
  · intro y x
    have hslot := slot_of_holdsSlot hc
    refine ⟨(execBcEnc_of_slot (hsE f.payload) hslot).trans (if_pos hlen),
      (execBcDec_of_slot (hsD f.payload) hslot).trans (if_pos hlen), fun hlaw hkey => ?_⟩
    obtain ⟨hDE, hED⟩ := hlaw c.cipher c.key f.payload hkey hlen
    constructor
    · refine (execBcDec_of_slot (hsD y) hslot).trans ((if_pos (length_encBlock ..)).trans ?_)
      rw [hDE]
    · refine (execBcEnc_of_slot (hsE x) hslot).trans ((if_pos (length_decBlock ..)).trans ?_)
      rw [hED]

/-- The two halves of a payload are its factors (R123, R124). -/
theorem factors_of_append {f : Fields} {a b : Bytes} {c : Cipher} (hp : f.payload = a ++ b) (ha : a.length = bs c)
    (hb : b.length = bs c) : factors f c = (a, b) := by
  have hleft : slice ([] ++ a ++ b) 0 (bs c) = a := slice_append_middle rfl (by rw [ha]; exact Nat.zero_add _)
  have hright : slice (a ++ b ++ []) (bs c) (2 * bs c) = b := slice_append_middle ha (by rw [hb]; omega)
  rw [List.nil_append] at hleft
  rw [List.append_nil] at hright
  rw [factors, hp, hleft, hright]

/-- Settles O21: the two commands name no slot, and the halves of the payload are the factors. -/
theorem gfMulCommandsAnswerTheProduct : Obligations.GfMulCommandsAnswerTheProduct := by
  unfold Obligations.GfMulCommandsAnswerTheProduct
  intro s f a b
  refine ⟨rfl, rfl, fun hctx h0 hp => ⟨fun ha hb => ?_, fun ha hb => ?_⟩⟩
  · have hplen : f.plen = 16 := by rw [Fields.plen, hp, List.length_append, ha, hb]
    have hs : staticOk s.nctx (.gfMul64 f) = true := staticOk_noSlot rfl rfl hctx h0 hplen
    change execGfMul64 f s = _
    rw [execGfMul64, checked_of_staticOk _ hs, factors_of_append (c := .magma) hp ha hb, respond_eq]
  · have hplen : f.plen = 32 := by rw [Fields.plen, hp, List.length_append, ha, hb]
    have hs : staticOk s.nctx (.gfMul128 f) = true := staticOk_noSlot rfl rfl hctx h0 hplen
    change execGfMul128 f s = _
    rw [execGfMul128, checked_of_staticOk _ hs, factors_of_append (c := .grasshopper) hp ha hb, respond_eq]

end Sys2Proof.Machine

/-! ### `CTR.CRYPT` (O30, O32) -/

namespace Sys2Proof.Machine

theorem ctrStreams_eq_false {c : CtrCtx} (h : c.phase ≠ .ivSet) : ctrStreams c = false :=
  Bool.eq_false_iff.mpr (mt (ctrStreams_iff c).mp h)

/-- R150 (1): on a slot that is not `CTR`, `CTR.CRYPT` answers `KeyNotSet`. -/
theorem execCtrCrypt_of_other {s : State} {f : Fields} (hs : staticOk s.nctx (.ctrCrypt f) = true)
    (hctx : f.ctx.toNat < s.nctx) (hother : ∀ c, ¬ holdsSlot s f.ctx (.ctr c)) :
    execCtrCrypt f s = .next (answered s .keyNotSet []) := by
  rw [execCtrCrypt, checked_of_staticOk _ hs, withCtr_of_other _ hctx hother]

/-- R150 (2): a context with no counter loaded is refused with `BadOrder`. -/
theorem execCtrCrypt_of_keySet {s : State} {f : Fields} {c : CtrCtx} (hs : staticOk s.nctx (.ctrCrypt f) = true)
    (hc : s.slot f.ctx = .ctr c) (hphase : c.phase ≠ .ivSet) :
    execCtrCrypt f s = .next (answered s .badOrder []) := by
  rw [execCtrCrypt, checked_of_staticOk _ hs, withCtr_of_slot _ hc, ctrStreams_eq_false hphase, require_false]

/-- Past both checks `CTR.CRYPT` sends the payload through the driver (R150). -/
theorem execCtrCrypt_of_ivSet {s : State} {f : Fields} {c : CtrCtx} (hs : staticOk s.nctx (.ctrCrypt f) = true)
    (hc : s.slot f.ctx = .ctr c) (hphase : c.phase = .ivSet) :
    execCtrCrypt f s = .next (answeredWith s f.ctx (.ctr { c with gen := (ctrStream s.cfg c.cipher c.gen f.payload).2 }) .ok
      (ctrStream s.cfg c.cipher c.gen f.payload).1) := by
  rw [execCtrCrypt, checked_of_staticOk _ hs, withCtr_of_slot _ hc, (ctrStreams_iff c).mpr hphase, require_true,
    respond_setSlot_eq]

/-- Settles O30: the kind check and the phase check one after the other, and the driver past both. -/
theorem ctrCryptRunsTheDriver : Obligations.CtrCryptRunsTheDriver := by
  unfold Obligations.CtrCryptRunsTheDriver
  intro s f
  refine ⟨rfl, fun hctx h0 => ?_⟩
  have hs : staticOk s.nctx (.ctrCrypt f) = true := staticOk_slot rfl rfl hctx h0
  refine ⟨fun hother => ?_, fun c hc hphase => ?_, fun c hc hphase => ?_⟩
  · exact execCtrCrypt_of_other hs hctx hother
  · exact execCtrCrypt_of_keySet hs (slot_of_holdsSlot hc) hphase
  · have hexec := execCtrCrypt_of_ivSet hs (slot_of_holdsSlot hc) hphase
    refine ⟨_, _, rfl, length_ctrStream .., ctrStream_sect .., hexec, fun hnil => ?_⟩
    rw [hnil, ctrStream_nil, answeredWith_of_holdsSlot .ok [] hc] at hexec
    exact hexec

/-- The output sent through the same generator is the input again, and leaves the same generator (R150 (b)). -/
theorem ctrStream_ctrStream (cfg : Config) (c : Cipher) (g : CtrGen) (p : Bytes) :
    ctrStream cfg c g (ctrStream cfg c g p).1 = (p, (ctrStream cfg c g p).2) := by
  induction p generalizing g with
  | nil => rfl
  | cons b r ih => simp only [ctrStream_cons, ctrByte_ctrByte, ctrByte_snd, ih]

/-- The form of a command on a slot with a payload of any length, as `onSlot` writes it. -/
theorem staticOk_onSlot {s : State} {n : BitVec 4} {i : Instr} {p : Bytes} (hf : i.fields = onSlot n p)
    (hr : rowOf i = ⟨true, .zero, false, none⟩) (hsec : sectionsOk i = true) (hn : n.toNat < s.nctx) :
    staticOk s.nctx i = true :=
  staticOk_slot hr hsec (by rw [hf]; exact hn) (by rw [hf]; exact ⟨rfl, rfl⟩)

/-- `CTR.CRYPT` on a slot known to stream. -/
theorem exec_ctrCrypt_onSlot {s : State} {n : BitVec 4} {c : CtrCtx} (hc : holdsSlot s n (.ctr c))
    (hphase : c.phase = .ivSet) (p : Bytes) :
    exec (.ctrCrypt (onSlot n p)) s = .next (answeredWith s n
      (.ctr { c with gen := (ctrStream s.cfg c.cipher c.gen p).2 }) .ok (ctrStream s.cfg c.cipher c.gen p).1) :=
  execCtrCrypt_of_ivSet (staticOk_onSlot rfl rfl rfl (holdsSlot_lt hc)) (slot_of_holdsSlot (i := n) hc) hphase

/-- Settles O32: the driver over two pieces, and over its own output. -/
theorem ctrChunkingAndInvolution : Obligations.CtrChunkingAndInvolution := by
  unfold Obligations.CtrChunkingAndInvolution
  intro s n c p q hc hphase
  have hfirst := exec_ctrCrypt_onSlot hc hphase p
  have hc1 := holdsSlot_answeredWith_same (.ctr { c with gen := (ctrStream s.cfg c.cipher c.gen p).2 }) .ok
    (ctrStream s.cfg c.cipher c.gen p).1 (holdsSlot_lt hc)
  have hboth := exec_ctrCrypt_onSlot hc hphase (p ++ q)
  have hback := exec_ctrCrypt_onSlot hc hphase (ctrStream s.cfg c.cipher c.gen p).1
  rw [ctrStream_append] at hboth
  rw [ctrStream_ctrStream] at hback
  exact ⟨_, _, _, _, hfirst, exec_ctrCrypt_onSlot hc1 hphase q, hboth, length_ctrStream .., length_ctrStream .., hback⟩

end Sys2Proof.Machine

/-! ### The keystream as a whole (O31) -/

namespace Sys2Proof.Machine

/-- Counting one byte on: either a section is full, or it goes on. -/
theorem succ_div_mod_cases (j : Nat) {n : Nat} (hn : 0 < n) :
    (j % n + 1 = n ∧ (j + 1) % n = 0 ∧ (j + 1) / n = j / n + 1) ∨
    (j % n + 1 < n ∧ (j + 1) % n = j % n + 1 ∧ (j + 1) / n = j / n) := by
  have hj : j + 1 = j % n + 1 + n * (j / n) := by have := Nat.mod_add_div j n; omega
  rcases Nat.lt_or_ge (j % n + 1) n with hlt | hge
  · refine .inr ⟨hlt, ?_, ?_⟩
    · rw [hj, Nat.add_mul_mod_self_left, Nat.mod_eq_of_lt hlt]
    · rw [hj, Nat.add_mul_div_left _ _ hn, Nat.div_eq_of_lt hlt, Nat.zero_add]
  · have hfull : j % n + 1 = n := by have := Nat.mod_lt j hn; omega
    refine .inl ⟨hfull, ?_, ?_⟩
    · rw [hj, Nat.add_mul_mod_self_left, hfull, Nat.mod_self]
    · rw [hj, Nat.add_mul_div_left _ _ hn, hfull, Nat.div_self hn, Nat.add_comm]

theorem incrFull_bytesOf (k v : Nat) : incrFull (bytesOf k v) = bytesOf k (v + 1) := by
  rw [incrFull, length_bytesOf, intOf_bytesOf, bytesOf_eq_iff, Nat.mod_add_mod]

/-- How many meshing steps lie before byte `j` of a stream (R32). -/
def sectionOf (sect j : Nat) : Nat := if sect = 0 then 0 else j / sect

/-- What the driver has at hand for byte `j` of a stream that began at the counter block `ctr0` under `key` (R149): the block of
that byte, under the key of its section, and `num` where the section is. -/
structure ReadyAt (cfg : Config) (c : Cipher) (key ctr0 : Bytes) (j : Nat) (g : CtrGen) : Prop where
  key : g.key = sectionKey cfg c key (sectionOf g.sect.toNat j)
  ks  : g.ks = encBlock cfg.bc c g.key (bytesOf (bs c) (intOf ctr0 + j / bs c))
  ctr : g.ctr = bytesOf (bs c) (intOf ctr0 + j / bs c + 1)
  num : g.num.toNat = if g.sect.toNat = 0 then j % 2 ^ 64 else j % g.sect.toNat
  sect : g.sect.toNat % bs c = 0

section
variable {cfg : Config} {c : Cipher} {key ctr0 : Bytes} {j : Nat} {g : CtrGen}

/-- Meshing keeps the position inside the block, so `num` shows it (R149). -/
theorem ReadyAt.num_mod (h : ReadyAt cfg c key ctr0 j g) : g.num.toNat % bs c = j % bs c := by
  rw [h.num]
  split
  · exact Nat.mod_mod_of_dvd _ (bs_dvd_pow64 c)
  · exact Nat.mod_mod_of_dvd _ (Nat.dvd_of_mod_eq_zero h.sect)

/-- The byte out is the one the closed form gives (R150 (c)). -/
theorem ReadyAt.byte (h : ReadyAt cfg c key ctr0 j g) :
    g.ks.getD (g.num.toNat % bs c) 0 = ctrKeystream cfg c key ctr0 g.sect.toNat j := by
  rw [h.num_mod, h.ks, h.key, sectionOf, ctrKeystream]

/-- The counter after a byte: it wraps only where no section size bounds it (R149). -/
theorem ReadyAt.toNat_num_succ (h : ReadyAt cfg c key ctr0 j g) :
    (g.num + 1).toNat = if g.sect.toNat = 0 then (j + 1) % 2 ^ 64 else j % g.sect.toNat + 1 := by
  have hone : (1 : BitVec 64).toNat = 1 := rfl
  rw [BitVec.toNat_add, hone, h.num]
  split
  · exact Nat.mod_add_mod ..
  · next h0 =>
    have hlt := Nat.mod_lt j (Nat.pos_of_ne_zero h0)
    have hsect := g.sect.isLt
    exact Nat.mod_eq_of_lt (by omega)

theorem ReadyAt.num_succ_mod (h : ReadyAt cfg c key ctr0 j g) : (g.num + 1).toNat % bs c = (j + 1) % bs c := by
  rw [h.toNat_num_succ]
  split
  · exact Nat.mod_mod_of_dvd _ (bs_dvd_pow64 c)
  · rw [Nat.add_mod, Nat.mod_mod_of_dvd _ (Nat.dvd_of_mod_eq_zero h.sect), ← Nat.add_mod]

/-- The driver begins ready for byte 0. -/
theorem readyAt_zero (hwf : GenWf c g) (hnum : g.num = 0) : ReadyAt cfg c g.key g.ctr 0 (ctrReady cfg c g) := by
  have hmesh : ctrMesh cfg c g = g := by
    rw [ctrMesh, if_neg]
    rw [sectionDue_iff, hnum]
    rintro ⟨hne, hle⟩
    exact hne (Nat.le_zero.mp hle)
  have hblock : g.num.toNat % bs c = 0 := by
    rw [hnum]
    exact Nat.zero_mod _
  have hready : ctrReady cfg c g = { g with ks := encBlock cfg.bc c g.key g.ctr, ctr := incrFull g.ctr } := by
    rw [ctrReady, if_pos hblock, ctrRefill, hmesh]
  have hctr : bytesOf (bs c) (intOf g.ctr) = g.ctr := bytesOf_intOf_of_length hwf.ctr
  rw [hready]
  exact {
    key := by rw [sectionOf, Nat.zero_div, ite_self]; rfl
    ks := by rw [Nat.zero_div, Nat.add_zero, hctr]
    ctr := by rw [Nat.zero_div, Nat.add_zero, ← incrFull_bytesOf, hctr]
    num := by rw [Nat.zero_mod, Nat.zero_mod, ite_self, hnum]; rfl
    sect := hwf.sect }

/-- The meshing part of the driver at a block boundary leaves the key and the counter of the next byte (R149). -/
theorem ReadyAt.mesh_succ (h : ReadyAt cfg c key ctr0 j g) (hblock : (j + 1) % bs c = 0) :
    (ctrMesh cfg c { g with num := g.num + 1 }).key = sectionKey cfg c key (sectionOf g.sect.toNat (j + 1)) ∧
    (ctrMesh cfg c { g with num := g.num + 1 }).num.toNat =
      if g.sect.toNat = 0 then (j + 1) % 2 ^ 64 else (j + 1) % g.sect.toNat := by
  have hnum := h.toNat_num_succ
  have hmod := h.num_succ_mod
  by_cases h0 : g.sect.toNat = 0
  · have hdue : ¬ (g.sect.toNat ≠ 0 ∧ g.sect.toNat ≤ (g.num + 1).toNat) := fun hd => hd.1 h0
    rw [ctrMesh_eq, if_neg hdue, if_neg hdue]
    rw [if_pos h0] at hnum ⊢
    refine ⟨?_, hnum⟩
    rw [h.key, sectionOf, sectionOf, if_pos h0, if_pos h0]
  · rw [if_neg h0] at hnum ⊢
    obtain ⟨hfull, hz, hnext⟩ | ⟨hlt, hz, hsame⟩ := succ_div_mod_cases j (Nat.pos_of_ne_zero h0)
    · have hdue : g.sect.toNat ≠ 0 ∧ g.sect.toNat ≤ (g.num + 1).toNat := ⟨h0, by omega⟩
      rw [ctrMesh_eq, if_pos hdue, if_pos hdue, toNat_maskNum, hmod, hblock, hz, h.key, sectionOf, sectionOf, if_neg h0,
        if_neg h0, hnext, sectionKey, sectionKey, Function.iterate_succ_apply']
      exact ⟨rfl, rfl⟩
    · have hdue : ¬ (g.sect.toNat ≠ 0 ∧ g.sect.toNat ≤ (g.num + 1).toNat) := by omega
      rw [ctrMesh_eq, if_neg hdue, if_neg hdue, h.key, sectionOf, sectionOf, if_neg h0, if_neg h0, hsame, hz]
      exact ⟨rfl, hnum⟩

/-- From one byte to the next: a block in use stays, a used-up one is replaced (R149). -/
theorem ReadyAt.succ (h : ReadyAt cfg c key ctr0 j g) :
    ReadyAt cfg c key ctr0 (j + 1) (ctrReady cfg c { g with num := g.num + 1 }) := by
  have hmod : (g.num + 1).toNat % bs c = (j + 1) % bs c := h.num_succ_mod
  unfold ctrReady
  obtain ⟨-, hz, hnext⟩ | ⟨-, hz, hsame⟩ := succ_div_mod_cases j (bs_pos c)
  · obtain ⟨hkey, hnum⟩ := h.mesh_succ hz
    rw [if_pos (hmod.trans hz)]
    have hctr : g.ctr = bytesOf (bs c) (intOf ctr0 + (j + 1) / bs c) := by rw [h.ctr, hnext, Nat.add_assoc]
    exact {
      key := by simpa only [ctrRefill, ctrMesh_sect] using hkey
      ks := by simp only [ctrRefill, ctrMesh_ctr, hctr]
      ctr := by simp only [ctrRefill, ctrMesh_ctr, hctr, incrFull_bytesOf]
      num := by simpa only [ctrRefill, ctrMesh_sect] using hnum
      sect := by simpa only [ctrRefill, ctrMesh_sect] using h.sect }
  · rw [if_neg (show ¬ (g.num + 1).toNat % bs c = 0 by omega)]
    have hwithin : g.sect.toNat ≠ 0 →
        j % g.sect.toNat + 1 = (j + 1) % g.sect.toNat ∧ j / g.sect.toNat = (j + 1) / g.sect.toNat := fun h0 => by
      obtain ⟨-, hs, -⟩ | ⟨-, hs, hd⟩ := succ_div_mod_cases j (Nat.pos_of_ne_zero h0)
      · have hbs : (j + 1) % bs c = 0 :=
          Nat.mod_eq_zero_of_dvd ((Nat.dvd_of_mod_eq_zero h.sect).trans (Nat.dvd_of_mod_eq_zero hs))
        omega
      · exact ⟨hs.symm, hd.symm⟩
    exact {
      key := by
        rw [h.key, sectionOf, sectionOf]
        split
        · rfl
        · next h0 => rw [(hwithin h0).2]
      ks := by rw [h.ks, hsame]
      ctr := by rw [h.ctr, hsame]
      num := by
        rw [h.toNat_num_succ]
        split
        · rfl
        · next h0 => exact (hwithin h0).1
      sect := h.sect }

end

/-- A list by its index, and one more in front. -/
theorem map_range_succ {β : Type} (n : Nat) (f : Nat → β) :
    (List.range (n + 1)).map f = f 0 :: (List.range n).map fun i => f (i + 1) := by
  rw [List.range_succ_eq_map, List.map_cons, List.map_map]
  rfl

/-- The output of a run that begins at byte `j` of a stream. -/
theorem ctrStream_of_readyAt {cfg : Config} {c : Cipher} {key ctr0 : Bytes} (data : Bytes) {j : Nat} {g : CtrGen}
    (h : ReadyAt cfg c key ctr0 j (ctrReady cfg c g)) :
    (ctrStream cfg c g data).1 =
      (List.range data.length).map fun i => data.getD i 0 ^^^ ctrKeystream cfg c key ctr0 g.sect.toNat (j + i) := by
  induction data generalizing j g with
  | nil => rfl
  | cons b r ih =>
    have hbyte : (ctrByte cfg c g b).1 = b ^^^ ctrKeystream cfg c key ctr0 g.sect.toNat j := by
      rw [ctrByte_fst, h.byte, ctrReady_sect]
    have hsect : (ctrByte cfg c g b).2.sect = g.sect := by rw [ctrByte_snd]; exact ctrReady_sect cfg c g
    have hnext : ReadyAt cfg c key ctr0 (j + 1) (ctrReady cfg c (ctrByte cfg c g b).2) := by
      rw [ctrByte_snd]
      exact h.succ
    rw [ctrStream_cons, List.length_cons, map_range_succ, hbyte, ih hnext, hsect]
    simp only [List.getD_cons_zero, List.getD_cons_succ, Nat.add_zero, Nat.add_right_comm, Nat.add_assoc]

/-- Settles O31: the driver begins ready for byte 0, and goes on byte by byte. -/
theorem keystreamIsPeriodic : Obligations.KeystreamIsPeriodic := by
  unfold Obligations.KeystreamIsPeriodic
  intro cfg c g data hwf hnum
  simpa only [Nat.zero_add] using ctrStream_of_readyAt data (readyAt_zero hwf hnum)

end Sys2Proof.Machine

/-! ### The two counters of MGM on a block (O34, O40) -/

namespace Sys2Proof.Machine

/-- The two halves of a block (R184, R185). -/
theorem length_halves {c : Cipher} {b : Bytes} (h : b.length = bs c) :
    (b.take (halfBs c)).length = halfBs c ∧ (b.drop (halfBs c)).length = halfBs c := by
  have hhalf := halfBs_add_halfBs c
  rw [List.length_take, List.length_drop, h]
  omega

theorem incrFull_of_length {k : Nat} {b : Bytes} (h : b.length = k) :
    incrFull b = bytesOf k ((intOf b + 1) % 2 ^ (8 * k)) := by
  rw [bytesOf_mod_two_pow, incrFull, h]

theorem slice_left_half (b : Bytes) (k : Nat) : slice b 0 k = b.take k := by
  rw [slice, List.drop_zero, Nat.sub_zero]

theorem slice_right_half {b : Bytes} {k n : Nat} (h : b.length = n) : slice b k n = b.drop k :=
  List.take_of_length_le (by rw [List.length_drop, h])

/-- `incr_l` on a block: the left half is a number that goes up by one, the right half stays (R184). -/
theorem incrL_of_block {c : Cipher} {b : Bytes} (h : b.length = bs c) :
    incrL b = bytesOf (halfBs c) ((intOf (slice b 0 (halfBs c)) + 1) % 2 ^ (8 * halfBs c)) ++ slice b (halfBs c) (bs c) := by
  have hhalf : b.length / 2 = halfBs c := by rw [h, halfBs]
  rw [incrL, hhalf, slice_left_half, slice_right_half h, incrFull_of_length (length_halves h).1]

/-- `incr_r` on a block: the right half is a number that goes up by one, the left half stays (R185). -/
theorem incrR_of_block {c : Cipher} {b : Bytes} (h : b.length = bs c) :
    incrR b = slice b 0 (halfBs c) ++ bytesOf (halfBs c) ((intOf (slice b (halfBs c) (bs c)) + 1) % 2 ^ (8 * halfBs c)) := by
  have hhalf : b.length / 2 = halfBs c := by rw [h, halfBs]
  rw [incrR, hhalf, slice_left_half, slice_right_half h, incrFull_of_length (length_halves h).2]

/-- Settles O34: the fold, with `incr_l` on a block written out. -/
theorem mgmFoldStep : Obligations.MgmFoldStep := by
  unfold Obligations.MgmFoldStep
  intro cfg m x hm h
  rw [mgmFold, mgmE, incrL_of_block hm.shape.z]
  rfl

/-- The keystream block a byte meets, with `incr_r` on a block written out (R187). -/
theorem mgmReady_of_block (cfg : Config) {m : MgmCtx} (hy : m.y.length = bs m.cipher) :
    mgmReady cfg m =
      if m.mres = 0 then
        { m with ks := encBlock cfg.bc m.cipher m.key m.y,
                 y := slice m.y 0 (halfBs m.cipher) ++ bytesOf (halfBs m.cipher)
                   ((intOf (slice m.y (halfBs m.cipher) (bs m.cipher)) + 1) % 2 ^ (8 * halfBs m.cipher)) }
      else m := by
  rw [mgmReady, mgmE, incrR_of_block hy]

/-- Settles O40: a byte takes the keystream block `mgmReady` has at hand, and its ciphertext byte goes into the buffer. -/
theorem mgmDataLoop : Obligations.MgmDataLoop := by
  unfold Obligations.MgmDataLoop
  intro cfg d m b data hm _ h m1 o m2 m3
  have hready : mgmReady cfg m = m1 := mgmReady_of_block cfg hm.shape.y
  have hcipher : m1.cipher = m.cipher := hready ▸ mgmReady_cipher cfg m
  have hmres : m1.mres = m.mres := hready ▸ mgmReady_mres cfg m
  have hbyte : mgmDataByte cfg d m b = (o, m3) := by
    simp only [mgmDataByte, hready, hmres]
    rfl
  exact ⟨rfl, by rw [mgmDataBytes_cons, hbyte]⟩

end Sys2Proof.Machine

/-! ### `MGM.TAGLEN` and `OMAC.MACLEN` (O37) -/

namespace Sys2Proof.Machine

theorem mgmTaglenPhase_eq_false {m : MgmCtx} (h : m.phase = .finalized) : mgmTaglenPhase m = false :=
  Bool.eq_false_iff.mpr fun ht => (mgmTaglenPhase_iff m).mp ht h

/-- R190 (1): on a slot that is not `MGM`, `MGM.TAGLEN` answers `KeyNotSet`. -/
theorem execMgmTaglen_of_other {s : State} {f : Fields} (hs : staticOk s.nctx (.mgmTaglen f) = true)
    (hctx : f.ctx.toNat < s.nctx) (hother : ∀ m, ¬ holdsSlot s f.ctx (.mgm m)) :
    execMgmTaglen f s = .next (answered s .keyNotSet []) := by
  rw [execMgmTaglen, checked_of_staticOk _ hs, withMgm_of_other _ hctx hother]

/-- R190 (2): a finished message is refused with `BadOrder`. -/
theorem execMgmTaglen_of_finalized {s : State} {f : Fields} {m : MgmCtx} (hs : staticOk s.nctx (.mgmTaglen f) = true)
    (hm : s.slot f.ctx = .mgm m) (hphase : m.phase = .finalized) :
    execMgmTaglen f s = .next (answered s .badOrder []) := by
  rw [execMgmTaglen, checked_of_staticOk _ hs, withMgm_of_slot _ hm, mgmTaglenPhase_eq_false hphase, require_false]

/-- Before that `MGM.TAGLEN` takes a length of 1 to `BS` (R190). -/
theorem execMgmTaglen_of_phase {s : State} {f : Fields} {m : MgmCtx} (hs : staticOk s.nctx (.mgmTaglen f) = true)
    (hm : s.slot f.ctx = .mgm m) (hphase : m.phase ≠ .finalized) :
    execMgmTaglen f s =
      if 1 ≤ f.imm.toNat ∧ f.imm.toNat ≤ bs m.cipher then
        .next (answeredWith s f.ctx (.mgm { m with taglen := f.imm.toNat }) .ok [])
      else .next (answered s .invalidTagLength []) := by
  rw [execMgmTaglen, checked_of_staticOk _ hs, withMgm_of_slot _ hm, (mgmTaglenPhase_iff m).mpr hphase, require_true,
    lenOperand]
  split
  · next hlen => rw [(lenOk_iff _ _).mpr hlen, require_true, respond_setSlot_eq]
  · next hlen => rw [Bool.eq_false_iff.mpr (mt (lenOk_iff _ _).mp hlen), require_false]

/-- R249 (1): on a slot that is not `OMAC`, `OMAC.MACLEN` answers `MacKeyNotSet`. -/
theorem execOmacMaclen_of_other {s : State} {f : Fields} (hs : staticOk s.nctx (.omacMaclen f) = true)
    (hctx : f.ctx.toNat < s.nctx) (hother : ∀ o, ¬ holdsSlot s f.ctx (.omac o)) :
    execOmacMaclen f s = .next (answered s .macKeyNotSet []) := by
  rw [execOmacMaclen, checked_of_staticOk _ hs, withOmac_of_other _ hctx hother]

/-- R249 (2): a finished context is refused with `BadOrder`. -/
theorem execOmacMaclen_of_finalized {s : State} {f : Fields} {o : OmacCtx} (hs : staticOk s.nctx (.omacMaclen f) = true)
    (ho : s.slot f.ctx = .omac o) (hphase : o.phase = .finalized) :
    execOmacMaclen f s = .next (answered s .badOrder []) := by
  rw [execOmacMaclen, checked_of_staticOk _ hs, withOmac_of_slot _ ho, omacOpen_eq_false hphase, require_false]

/-- Before that `OMAC.MACLEN` takes a length of 1 to `BS` (R249). -/
theorem execOmacMaclen_of_open {s : State} {f : Fields} {o : OmacCtx} (hs : staticOk s.nctx (.omacMaclen f) = true)
    (ho : s.slot f.ctx = .omac o) (hphase : o.phase ≠ .finalized) :
    execOmacMaclen f s =
      if 1 ≤ f.imm.toNat ∧ f.imm.toNat ≤ bs o.cipher then
        .next (answeredWith s f.ctx (.omac { o with maclen := f.imm.toNat }) .ok [])
      else .next (answered s .invalidMacSize []) := by
  rw [execOmacMaclen, checked_of_staticOk _ hs, withOmac_of_slot _ ho, (omacOpen_iff o).mpr hphase, require_true,
    lenOperand]
  split
  · next hlen => rw [(lenOk_iff _ _).mpr hlen, require_true, respond_setSlot_eq]
  · next hlen => rw [Bool.eq_false_iff.mpr (mt (lenOk_iff _ _).mp hlen), require_false]

/-- Settles O37: for each of the two commands, kind, phase and range in that order. -/
theorem lengthCommandsSetTheLength : Obligations.LengthCommandsSetTheLength := by
  unfold Obligations.LengthCommandsSetTheLength
  intro s f
  refine ⟨rfl, rfl, fun hctx ha hpay => ?_⟩
  have hsT : staticOk s.nctx (.mgmTaglen f) = true := staticOk_slot_imm rfl rfl hctx ha hpay
  have hsM : staticOk s.nctx (.omacMaclen f) = true := staticOk_slot_imm rfl rfl hctx ha hpay
  refine ⟨fun hother => ?_, fun m hm hp => ?_, fun m hm hp hlen => ?_, fun m hm hp h1 hle => ?_,
    fun hother => ?_, fun o ho hp => ?_, fun o ho hp hlen => ?_, fun o ho hp h1 hle => ?_⟩
  · exact execMgmTaglen_of_other hsT hctx hother
  · exact execMgmTaglen_of_finalized hsT (slot_of_holdsSlot hm) hp
  · exact (execMgmTaglen_of_phase hsT (slot_of_holdsSlot hm) hp).trans (if_neg (by omega))
  · exact (execMgmTaglen_of_phase hsT (slot_of_holdsSlot hm) hp).trans (if_pos ⟨h1, hle⟩)
  · exact execOmacMaclen_of_other hsM hctx hother
  · exact execOmacMaclen_of_finalized hsM (slot_of_holdsSlot ho) hp
  · exact (execOmacMaclen_of_open hsM (slot_of_holdsSlot ho) hp).trans (if_neg (by omega))
  · exact (execOmacMaclen_of_open hsM (slot_of_holdsSlot ho) hp).trans (if_pos ⟨h1, hle⟩)

end Sys2Proof.Machine

/-! ### Associated data: `MGM.AAD` (O38) -/

namespace Sys2Proof.Machine

/-- R186 (2): in the other phases `MGM.AAD` is refused with `BadOrder`. -/
theorem execMgmAad_of_phase_other {s : State} {f : Fields} {m : MgmCtx} (hs : staticOk s.nctx (.mgmAad f) = true)
    (hm : s.slot f.ctx = .mgm m) (hphase : ¬ (m.phase = .ivSet ∨ m.phase = .processingAad)) :
    execMgmAad f s = .next (answered s .badOrder []) := by
  rw [execMgmAad, checked_of_staticOk _ hs, withMgm_of_slot _ hm,
    Bool.eq_false_iff.mpr (mt (mgmAadPhase_iff m).mp hphase), require_false]

/-- R186 (3): past the bound of R192 `MGM.AAD` answers `DataTooLarge`; within it, it absorbs the payload. -/
theorem execMgmAad_of_phase {s : State} {f : Fields} {m : MgmCtx} (hs : staticOk s.nctx (.mgmAad f) = true)
    (hm : s.slot f.ctx = .mgm m) (hphase : m.phase = .ivSet ∨ m.phase = .processingAad) :
    execMgmAad f s =
      if m.aLen.toNat + f.plen ≤ mgmLimit m.cipher then
        .next (answeredWith s f.ctx (.mgm (mgmAad s.cfg m f.payload)) .ok [])
      else .next (answered s .dataTooLarge []) := by
  rw [execMgmAad, checked_of_staticOk _ hs, withMgm_of_slot _ hm, (mgmAadPhase_iff m).mpr hphase, require_true]
  split
  · next hfit => rw [(mgmFits_iff ..).mpr hfit, require_true, respond_setSlot_eq]
  · next hfit => rw [Bool.eq_false_iff.mpr (mt (mgmFits_iff ..).mp hfit), require_false]

/-- A 64-bit length counter counts modulo `2^64`. -/
theorem add_ofNat_eq (n : BitVec 64) (k : Nat) : n + BitVec.ofNat 64 k = BitVec.ofNat 64 (n.toNat + k) :=
  BitVec.eq_of_toNat_eq (by simp)

/-- The loop of R186 counts nothing: the length is added once, at the end. -/
theorem mgmAad_eq (cfg : Config) (m : MgmCtx) (p : Bytes) :
    mgmAad cfg m p =
      { p.foldl (mgmAadByte cfg) (mgmOpenAad cfg m) with aLen := BitVec.ofNat 64 (m.aLen.toNat + p.length) } := by
  obtain ⟨-, -, -, -, -, -, -, haLen, -⟩ := mgmAadFold_frame cfg p (mgmOpenAad cfg m)
  rw [mgmAad, haLen, mgmOpenAad_aLen, add_ofNat_eq]

/-- The opening of R186: `Z_1` is made once, by the first command. -/
theorem mgmOpenAad_eq (cfg : Config) {m : MgmCtx} (hphase : m.phase = .ivSet ∨ m.phase = .processingAad) :
    mgmOpenAad cfg m =
      if m.phase = .ivSet then
        { m with z := encBlock cfg.bc m.cipher m.key (settop m.nonce true), phase := .processingAad }
      else m := by
  split
  · next hiv => rw [mgmOpenAad, mgmStartZ, if_pos hiv, mgmE]
  · next hiv => exact mgmOpenAad_of_phase cfg (hphase.resolve_left hiv)

/-- Settles O38: kind, phase and bound in that order, and past them the loop over the opened context. -/
theorem mgmAadAbsorbs : Obligations.MgmAadAbsorbs := by
  unfold Obligations.MgmAadAbsorbs
  intro s f
  refine ⟨rfl, fun hctx h0 => ?_⟩
  have hs : staticOk s.nctx (.mgmAad f) = true := staticOk_slot rfl rfl hctx h0
  refine ⟨fun hother => ?_, fun m hm hiv haad => ?_, fun m hm hphase hlong => ?_, fun m hm hphase hfit => ?_⟩
  · exact execMgmAad_of_other hs hctx hother
  · exact execMgmAad_of_phase_other hs (slot_of_holdsSlot hm) fun h => h.elim hiv haad
  · exact (execMgmAad_of_phase hs (slot_of_holdsSlot hm) hphase).trans (if_neg (Nat.not_le.mpr hlong))
  · intro m0 absorb
    have habsorb : mgmAadByte s.cfg = absorb := rfl
    have hopen : mgmOpenAad s.cfg m = m0 := mgmOpenAad_eq s.cfg hphase
    have hexec := (execMgmAad_of_phase hs (slot_of_holdsSlot hm) hphase).trans (if_pos hfit)
    rw [mgmAad_eq, hopen, habsorb] at hexec
    exact hexec

end Sys2Proof.Machine

/-! ### The message: `MGM.ENC` and `MGM.DEC` (O39) -/

namespace Sys2Proof.Machine

/-- The two data commands: the direction, and the command that latches it (R187, R188). -/
def IsDataCommand (d : Dir) (f : Fields) (i : Instr) : Prop := d = .enc ∧ i = .mgmEnc f ∨ d = .dec ∧ i = .mgmDec f

/-- Where a data command is accepted (R181, R187). -/
def DataOpen (m : MgmCtx) (d : Dir) : Prop := m.phase ≠ .keySet ∧ m.phase ≠ .finalized ∧ (m.dir = .none ∨ m.dir = d)

section
variable {s : State} {f : Fields} {d : Dir} {i : Instr}

/-- On a slot of the file, its `A` and `IMM` fields 0, a data command passes the static checks. -/
theorem IsDataCommand.exec (h : IsDataCommand d f i) (hctx : f.ctx.toNat < s.nctx) (h0 : noOperands f) :
    exec i s = mgmDataCommand f s d := by
  obtain ⟨rfl, rfl⟩ | ⟨rfl, rfl⟩ := h
  · exact checked_of_staticOk _ (staticOk_slot rfl rfl hctx h0)
  · exact checked_of_staticOk _ (staticOk_slot rfl rfl hctx h0)

/-- The phase check and the direction check answer the same status (R187 (2), (3)). -/
theorem mgmDataCommand_of_not_open {m : MgmCtx} (hm : s.slot f.ctx = .mgm m) (h : ¬ DataOpen m d) :
    mgmDataCommand f s d = .next (answered s .badOrder []) := by
  rw [mgmDataCommand, withMgm_of_slot _ hm]
  by_cases hphase : m.phase ≠ .keySet ∧ m.phase ≠ .finalized
  · have hdir : mgmDirOk m d = false :=
      Bool.eq_false_iff.mpr fun hd => h ⟨hphase.1, hphase.2, (mgmDirOk_iff m d).mp hd⟩
    rw [(mgmDataPhase_iff m).mpr hphase, require_true, hdir, require_false]
  · rw [Bool.eq_false_iff.mpr (mt (mgmDataPhase_iff m).mp hphase), require_false]

/-- R187 (4): past the bound of R192 a data command answers `DataTooLarge`; within it, it runs. -/
theorem mgmDataCommand_of_open {m : MgmCtx} (hm : s.slot f.ctx = .mgm m) (h : DataOpen m d) :
    mgmDataCommand f s d =
      if m.cLen.toNat + f.plen ≤ mgmLimit m.cipher then
        .next (answeredWith s f.ctx (.mgm (mgmData s.cfg m f.payload d).2) .ok (mgmData s.cfg m f.payload d).1)
      else .next (answered s .dataTooLarge []) := by
  obtain ⟨hkey, hfin, hdir⟩ := h
  rw [mgmDataCommand, withMgm_of_slot _ hm, (mgmDataPhase_iff m).mpr ⟨hkey, hfin⟩, require_true,
    (mgmDirOk_iff m d).mpr hdir, require_true]
  split
  · next hfit => rw [(mgmFits_iff ..).mpr hfit, require_true, respond_setSlot_eq]
  · next hfit => rw [Bool.eq_false_iff.mpr (mt (mgmFits_iff ..).mp hfit), require_false]

end

/-- The loop of R187 counts nothing: the length is added once, at the end. -/
theorem mgmData_eq (cfg : Config) (m : MgmCtx) (p : Bytes) (d : Dir) :
    mgmData cfg m p d =
      ((mgmDataBytes cfg d (mgmOpenData cfg m d) p).1,
        { (mgmDataBytes cfg d (mgmOpenData cfg m d) p).2 with cLen := BitVec.ofNat 64 (m.cLen.toNat + p.length) }) := by
  obtain ⟨-, -, -, -, -, -, -, hcLen, -⟩ := mgmDataBytes_frame cfg d p (mgmOpenData cfg m d)
  rw [mgmData, hcLen, mgmOpenData_cLen, add_ofNat_eq]

/-- Settles O39: kind, phase and direction, and bound in that order, and past them the loop over the opened message. -/
theorem mgmDataCommands : Obligations.MgmDataCommands := by
  unfold Obligations.MgmDataCommands
  intro s f
  refine ⟨rfl, rfl, fun d i hi hctx h0 => ?_⟩
  rw [IsDataCommand.exec hi hctx h0]
  refine ⟨fun hother => ?_, fun m hm hbad => ?_, fun m hm hkey hfin hdir hlong => ?_, fun m hm hkey hfin hdir hfit => ?_⟩
  · rw [mgmDataCommand, withMgm_of_other _ hctx hother]
  · refine mgmDataCommand_of_not_open (slot_of_holdsSlot hm) fun ⟨hkey, hfin, hdir⟩ => ?_
    rcases hbad with h | h | ⟨hn, hd⟩
    · exact hkey h
    · exact hfin h
    · exact hdir.elim hn hd
  · exact (mgmDataCommand_of_open (slot_of_holdsSlot hm) ⟨hkey, hfin, hdir⟩).trans (if_neg (Nat.not_le.mpr hlong))
  · intro E m1 m2 m3 m4 r
    have hopen : mgmOpenData s.cfg m d = { m4 with dir := d } := by
      by_cases hdata : m.phase = .processingData
      · simp only [mgmOpenData, m4, if_pos hdata]
      · by_cases hiv : m.phase = .ivSet
        · simp only [mgmOpenData, m4, m3, m2, m1, if_neg hdata, mgmStartZ, if_pos hiv, mgmFlushAad]
          split <;> rfl
        · simp only [mgmOpenData, m4, m3, m2, m1, if_neg hdata, mgmStartZ, if_neg hiv, mgmFlushAad]
          split <;> rfl
    have hexec := (mgmDataCommand_of_open (slot_of_holdsSlot hm) ⟨hkey, hfin, hdir⟩).trans (if_pos hfit)
    rw [mgmData_eq, hopen] at hexec
    exact ⟨hexec, length_mgmDataBytes ..⟩

end Sys2Proof.Machine

/-! ### The end of a message: `MGM.FINISH` and `MGM.VERIFY` (O42, O43) -/

namespace Sys2Proof.Machine

theorem mgmEndPhase_eq_false {m : MgmCtx} {d : Dir}
    (h : m.phase ≠ .processingAad ∧ m.phase ≠ .processingData ∨ m.dir = d) : mgmEndPhase m d = false := by
  refine Bool.eq_false_iff.mpr fun he => ?_
  obtain ⟨hphase, hdir⟩ := (mgmEndPhase_iff m d).mp he
  exact h.elim (fun hn => hphase.elim hn.1 hn.2) hdir

/-- R191 (1): on a slot that is not `MGM`, `MGM.FINISH` answers `KeyNotSet`. -/
theorem execMgmFinish_of_other {s : State} {f : Fields} (hs : staticOk s.nctx (.mgmFinish f) = true)
    (hctx : f.ctx.toNat < s.nctx) (hother : ∀ m, ¬ holdsSlot s f.ctx (.mgm m)) :
    execMgmFinish f s = .next (answered s .keyNotSet []) := by
  rw [execMgmFinish, checked_of_staticOk _ hs, withMgm_of_other _ hctx hother]

/-- R191 (2): where there is no message to finish, or it was deciphered, `MGM.FINISH` is refused with `BadOrder`. -/
theorem execMgmFinish_of_phase_other {s : State} {f : Fields} {m : MgmCtx} (hs : staticOk s.nctx (.mgmFinish f) = true)
    (hm : s.slot f.ctx = .mgm m) (hphase : mgmEndPhase m .dec = false) :
    execMgmFinish f s = .next (answered s .badOrder []) := by
  rw [execMgmFinish, checked_of_staticOk _ hs, withMgm_of_slot _ hm, hphase, require_false]

/-- Past both checks `MGM.FINISH` answers the leading bytes of the tag (R191). -/
theorem execMgmFinish_of_phase {s : State} {f : Fields} {m : MgmCtx} (hs : staticOk s.nctx (.mgmFinish f) = true)
    (hm : s.slot f.ctx = .mgm m) (hphase : mgmEndPhase m .dec = true) :
    execMgmFinish f s =
      .next (answeredWith s f.ctx (.mgm (mgmFinish s.cfg m)) .ok ((mgmFinish s.cfg m).tag.take m.taglen)) := by
  rw [execMgmFinish, checked_of_staticOk _ hs, withMgm_of_slot _ hm, hphase, require_true, respond_setSlot_eq]

/-- Settles O42: the kind check and the phase check one after the other, and the tag past both. -/
theorem mgmFinishAnswersTheTag : Obligations.MgmFinishAnswersTheTag := by
  unfold Obligations.MgmFinishAnswersTheTag
  intro s f
  refine ⟨rfl, fun hctx h0 hpay => ?_⟩
  have hs : staticOk s.nctx (.mgmFinish f) = true :=
    staticOk_slot_fixed rfl rfl hctx h0 (List.length_eq_zero_iff.mpr hpay)
  refine ⟨fun hother => ?_, fun m hm hbad => ?_, fun m hm hphase hdir => ?_⟩
  · exact execMgmFinish_of_other hs hctx hother
  · exact execMgmFinish_of_phase_other hs (slot_of_holdsSlot hm) (mgmEndPhase_eq_false hbad)
  · rw [slice_left_half]
    exact execMgmFinish_of_phase hs (slot_of_holdsSlot hm) ((mgmEndPhase_iff ..).mpr ⟨hphase, hdir⟩)

/-- R193 (1): on a slot that is not `MGM`, `MGM.VERIFY` answers `KeyNotSet`. -/
theorem execMgmVerify_of_other {s : State} {f : Fields} (hs : staticOk s.nctx (.mgmVerify f) = true)
    (hctx : f.ctx.toNat < s.nctx) (hother : ∀ m, ¬ holdsSlot s f.ctx (.mgm m)) :
    execMgmVerify f s = .next (answered s .keyNotSet []) := by
  rw [execMgmVerify, checked_of_staticOk _ hs, withMgm_of_other _ hctx hother]

/-- R193 (2): where there is no message to finish, or it was enciphered, `MGM.VERIFY` is refused with `BadOrder`. -/
theorem execMgmVerify_of_phase_other {s : State} {f : Fields} {m : MgmCtx} (hs : staticOk s.nctx (.mgmVerify f) = true)
    (hm : s.slot f.ctx = .mgm m) (hphase : mgmEndPhase m .enc = false) :
    execMgmVerify f s = .next (answered s .badOrder []) := by
  rw [execMgmVerify, checked_of_staticOk _ hs, withMgm_of_slot _ hm, hphase, require_false]

/-- R193 (3): a payload that is not of the tag length is an `InvalidTagLength`. -/
theorem execMgmVerify_of_bad_length {s : State} {f : Fields} {m : MgmCtx} (hs : staticOk s.nctx (.mgmVerify f) = true)
    (hm : s.slot f.ctx = .mgm m) (hphase : mgmEndPhase m .enc = true) (hlen : f.plen ≠ m.taglen) :
    execMgmVerify f s = .next (answered s .invalidTagLength []) := by
  rw [execMgmVerify, checked_of_staticOk _ hs, withMgm_of_slot _ hm, hphase, require_true,
    beq_eq_false_iff_ne.mpr hlen, require_false]

/-- Past the checks the message is finished, and only the status shows the verdict (R193). -/
theorem execMgmVerify_of_length {s : State} {f : Fields} {m : MgmCtx} (hs : staticOk s.nctx (.mgmVerify f) = true)
    (hm : s.slot f.ctx = .mgm m) (hphase : mgmEndPhase m .enc = true) (hlen : f.plen = m.taglen) :
    execMgmVerify f s = .next (answeredWith s f.ctx (.mgm (mgmFinish s.cfg m))
      (if (mgmFinish s.cfg m).tag.take m.taglen = f.payload then .ok else .authenticationFailed) []) := by
  rw [execMgmVerify, checked_of_staticOk _ hs, withMgm_of_slot _ hm, hphase, require_true, beq_iff_eq.mpr hlen,
    require_true]
  dsimp only
  split <;> rfl

/-- Settles O43: kind, phase and length in that order, and the finished message under either verdict. -/
theorem mgmVerifyGivesAVerdict : Obligations.MgmVerifyGivesAVerdict := by
  unfold Obligations.MgmVerifyGivesAVerdict
  intro s f
  refine ⟨rfl, fun hctx h0 => ?_⟩
  have hs : staticOk s.nctx (.mgmVerify f) = true := staticOk_slot rfl rfl hctx h0
  refine ⟨fun hother => ?_, fun m hm hbad => ?_, fun m hm hphase hdir hlen => ?_, fun m hm hphase hdir hlen => ?_⟩
  · exact execMgmVerify_of_other hs hctx hother
  · exact execMgmVerify_of_phase_other hs (slot_of_holdsSlot hm) (mgmEndPhase_eq_false hbad)
  · exact execMgmVerify_of_bad_length hs (slot_of_holdsSlot hm) ((mgmEndPhase_iff ..).mpr ⟨hphase, hdir⟩) hlen
  · have hexec := execMgmVerify_of_length hs (slot_of_holdsSlot hm) ((mgmEndPhase_iff ..).mpr ⟨hphase, hdir⟩) hlen
    rw [slice_left_half]
    exact ⟨fun heq => by rw [if_pos heq] at hexec; exact hexec, fun hne => by rw [if_neg hne] at hexec; exact hexec⟩

end Sys2Proof.Machine

/-! ### The phase table of MGM (O44) -/

namespace Sys2Proof.Machine

/-- What a cell of the table of R181 says of a command on the slot that holds `m`: no entry is `BadOrder` and the context kept;
an entry is the phase after success, and any other status but a failed verification keeps the context. -/
def PhaseCell (i : Instr) (s : State) (m : MgmCtx) (entry : Option MgmPhase) : Prop :=
  ∃ t st p m', exec i s = .next t ∧ t.resp = s.resp ++ [⟨st, p⟩] ∧ holdsSlot t i.fields.ctx (.mgm m') ∧
    (entry = none → st = .badOrder ∧ m' = m) ∧
    (∀ ph, entry = some ph → st ≠ .badOrder ∧ (st = .ok ∨ st = .authenticationFailed → m'.phase = ph) ∧
      (st ≠ .ok → st ≠ .authenticationFailed → m' = m))

section
variable {i : Instr} {s : State} {m : MgmCtx}

theorem PhaseCell.badOrder (hm : holdsSlot s i.fields.ctx (.mgm m)) (h : exec i s = .next (answered s .badOrder [])) :
    PhaseCell i s m none :=
  ⟨_, _, _, m, h, rfl, hm, fun _ => ⟨rfl, rfl⟩, fun _ he => absurd he (Option.some_ne_none _).symm⟩

theorem PhaseCell.refused (hm : holdsSlot s i.fields.ctx (.mgm m)) {st : Status} {ph : MgmPhase}
    (h : exec i s = .next (answered s st [])) (hst : st ≠ .badOrder ∧ st ≠ .ok ∧ st ≠ .authenticationFailed) :
    PhaseCell i s m (some ph) := by
  obtain ⟨hbad, hok, hauth⟩ := hst
  exact ⟨_, _, _, m, h, rfl, hm, fun he => absurd he (Option.some_ne_none _),
    fun _ _ => ⟨hbad, fun hd => (hd.elim hok hauth).elim, fun _ _ => rfl⟩⟩

theorem PhaseCell.done (hm : holdsSlot s i.fields.ctx (.mgm m)) {st : Status} {p : Bytes} {m' : MgmCtx}
    (h : exec i s = .next (answeredWith s i.fields.ctx (.mgm m') st p)) (hst : st = .ok ∨ st = .authenticationFailed) :
    PhaseCell i s m (some m'.phase) := by
  refine ⟨_, _, _, m', h, rfl, holdsSlot_answeredWith_same _ _ _ (holdsSlot_lt hm),
    fun he => absurd he (Option.some_ne_none _), fun ph he => ⟨?_, fun _ => Option.some.inj he, fun hok hauth => ?_⟩⟩
  · rcases hst with rfl | rfl <;> decide
  · exact absurd hst (by tauto)

end

/-- The phase after a data command (R187). -/
theorem mgmData_phase (cfg : Config) (m : MgmCtx) (p : Bytes) (d : Dir) :
    (mgmData cfg m p d).2.phase = .processingData := by
  obtain ⟨-, -, hphase, -⟩ := mgmDataBytes_frame cfg d p (mgmOpenData cfg m d)
  have hopen : (mgmOpenData cfg m d).phase = .processingData := by
    unfold mgmOpenData
    split
    · assumption
    · rfl
  rw [mgmData_eq]
  exact hphase.trans hopen

/-- The phase after associated data (R186). -/
theorem mgmAad_phase (cfg : Config) (m : MgmCtx) (p : Bytes) : (mgmAad cfg m p).phase = .processingAad := by
  obtain ⟨-, -, hphase, -⟩ := mgmAadFold_frame cfg p (mgmOpenAad cfg m)
  rw [mgmAad_eq]
  exact hphase

/-- The row of a data command: it is refused where it is not open (R181). -/
theorem phaseCell_mgmData {i : Instr} {s : State} {m : MgmCtx} {d : Dir} (hm : holdsSlot s i.fields.ctx (.mgm m))
    (hexec : exec i s = mgmDataCommand i.fields s d) {bad : Prop} [Decidable bad] (hbad : bad ↔ ¬ DataOpen m d) :
    PhaseCell i s m (if bad then none else some .processingData) := by
  have hslot := slot_of_holdsSlot hm
  split
  · next h => exact .badOrder hm (hexec.trans (mgmDataCommand_of_not_open hslot (hbad.mp h)))
  · next h =>
    have hrun := hexec.trans (mgmDataCommand_of_open hslot (not_not.mp (mt hbad.mpr h)))
    by_cases hfit : m.cLen.toNat + i.fields.plen ≤ mgmLimit m.cipher
    · rw [← mgmData_phase s.cfg m i.fields.payload d]
      exact .done hm (hrun.trans (if_pos hfit)) (.inl rfl)
    · exact .refused hm (hrun.trans (if_neg hfit)) (by decide)

theorem not_dataOpen_iff {m : MgmCtx} {d e : Dir} (hd : d = .enc ∧ e = .dec ∨ d = .dec ∧ e = .enc) :
    (m.phase = .keySet ∨ m.phase = .finalized ∨ m.dir = e) ↔ ¬ DataOpen m d := by
  have hdir : m.dir = e ↔ ¬ (m.dir = .none ∨ m.dir = d) := by
    obtain ⟨rfl, rfl⟩ | ⟨rfl, rfl⟩ := hd <;> cases m.dir <;> decide
  rw [DataOpen, hdir]
  tauto

theorem phaseCell_mgmInit {f : Fields} {s : State} {m : MgmCtx} (hm : holdsSlot s f.ctx (.mgm m))
    (hs : staticOk s.nctx (.mgmInit f) = true) : PhaseCell (.mgmInit f) s m (some .keySet) := by
  obtain ⟨c, hc⟩ := exists_cipherOf hs rfl
  have hdone := PhaseCell.done (i := .mgmInit f) hm (execMgmInit_of_staticOk hs (cipherOf_eq_some hc)) (.inl rfl)
  exact hdone

theorem phaseCell_mgmSetiv {f : Fields} {s : State} {m : MgmCtx} (hm : holdsSlot s f.ctx (.mgm m))
    (hs : staticOk s.nctx (.mgmSetiv f) = true) : PhaseCell (.mgmSetiv f) s m (some .ivSet) := by
  by_cases hlen : f.plen = bs m.cipher
  · have hdone := PhaseCell.done (i := .mgmSetiv f) hm (execMgmSetiv_of_block hs (slot_of_holdsSlot hm) hlen) (.inl rfl)
    exact hdone
  · exact .refused hm (execMgmSetiv_of_bad_length hs (slot_of_holdsSlot hm) hlen) (by decide)

theorem phaseCell_mgmTaglen {f : Fields} {s : State} {m : MgmCtx} (hm : holdsSlot s f.ctx (.mgm m))
    (hs : staticOk s.nctx (.mgmTaglen f) = true) :
    PhaseCell (.mgmTaglen f) s m (if m.phase = .finalized then none else some m.phase) := by
  split
  · next hphase => exact .badOrder hm (execMgmTaglen_of_finalized hs (slot_of_holdsSlot hm) hphase)
  · next hphase =>
    have hexec := execMgmTaglen_of_phase hs (slot_of_holdsSlot hm) hphase
    by_cases hlen : 1 ≤ f.imm.toNat ∧ f.imm.toNat ≤ bs m.cipher
    · exact .done (m' := { m with taglen := f.imm.toNat }) hm (hexec.trans (if_pos hlen)) (.inl rfl)
    · exact .refused hm (hexec.trans (if_neg hlen)) (by decide)

theorem phaseCell_mgmAad {f : Fields} {s : State} {m : MgmCtx} (hm : holdsSlot s f.ctx (.mgm m))
    (hs : staticOk s.nctx (.mgmAad f) = true) :
    PhaseCell (.mgmAad f) s m (if m.phase = .ivSet ∨ m.phase = .processingAad then some .processingAad else none) := by
  split
  · next hphase =>
    have hexec := execMgmAad_of_phase hs (slot_of_holdsSlot hm) hphase
    by_cases hfit : m.aLen.toNat + f.plen ≤ mgmLimit m.cipher
    · rw [← mgmAad_phase s.cfg m f.payload]
      exact .done hm (hexec.trans (if_pos hfit)) (.inl rfl)
    · exact .refused hm (hexec.trans (if_neg hfit)) (by decide)
  · next hphase => exact .badOrder hm (execMgmAad_of_phase_other hs (slot_of_holdsSlot hm) hphase)

theorem phaseCell_mgmFinish {f : Fields} {s : State} {m : MgmCtx} (hm : holdsSlot s f.ctx (.mgm m))
    (hs : staticOk s.nctx (.mgmFinish f) = true) :
    PhaseCell (.mgmFinish f) s m
      (if (m.phase = .processingAad ∨ m.phase = .processingData) ∧ m.dir ≠ .dec then some .finalized else none) := by
  split
  · next h =>
    exact .done (m' := mgmFinish s.cfg m) hm
      (execMgmFinish_of_phase hs (slot_of_holdsSlot hm) ((mgmEndPhase_iff ..).mpr h)) (.inl rfl)
  · next h =>
    exact .badOrder hm (execMgmFinish_of_phase_other hs (slot_of_holdsSlot hm)
      (Bool.eq_false_iff.mpr (mt (mgmEndPhase_iff ..).mp h)))

theorem phaseCell_mgmVerify {f : Fields} {s : State} {m : MgmCtx} (hm : holdsSlot s f.ctx (.mgm m))
    (hs : staticOk s.nctx (.mgmVerify f) = true) :
    PhaseCell (.mgmVerify f) s m
      (if (m.phase = .processingAad ∨ m.phase = .processingData) ∧ m.dir ≠ .enc then some .finalized else none) := by
  split
  · next h =>
    have hend := (mgmEndPhase_iff ..).mpr h
    by_cases hlen : f.plen = m.taglen
    · refine .done (m' := mgmFinish s.cfg m) hm (execMgmVerify_of_length hs (slot_of_holdsSlot hm) hend hlen) ?_
      split
      · exact .inl rfl
      · exact .inr rfl
    · exact .refused hm (execMgmVerify_of_bad_length hs (slot_of_holdsSlot hm) hend hlen) (by decide)
  · next h =>
    exact .badOrder hm (execMgmVerify_of_phase_other hs (slot_of_holdsSlot hm)
      (Bool.eq_false_iff.mpr (mt (mgmEndPhase_iff ..).mp h)))

/-- Settles O44: the table row by row. -/
theorem mgmPhaseTable : Obligations.MgmPhaseTable := by
  unfold Obligations.MgmPhaseTable
  intro s m i hm hs cell entry hcell
  change PhaseCell i s m entry
  cases i with
  | mgmInit f => exact Option.some.inj hcell ▸ phaseCell_mgmInit hm hs
  | mgmSetiv f => exact Option.some.inj hcell ▸ phaseCell_mgmSetiv hm hs
  | mgmTaglen f => exact Option.some.inj hcell ▸ phaseCell_mgmTaglen hm hs
  | mgmAad f => exact Option.some.inj hcell ▸ phaseCell_mgmAad hm hs
  | mgmEnc f =>
    exact Option.some.inj hcell ▸
      phaseCell_mgmData hm (checked_of_staticOk _ hs) (not_dataOpen_iff (.inl ⟨rfl, rfl⟩))
  | mgmDec f =>
    exact Option.some.inj hcell ▸
      phaseCell_mgmData hm (checked_of_staticOk _ hs) (not_dataOpen_iff (.inr ⟨rfl, rfl⟩))
  | mgmFinish f => exact Option.some.inj hcell ▸ phaseCell_mgmFinish hm hs
  | mgmVerify f => exact Option.some.inj hcell ▸ phaseCell_mgmVerify hm hs
  | _ => exact absurd hcell (Option.some_ne_none _).symm

end Sys2Proof.Machine

/-! ### Cutting a message, and deciphering it (O45, O46) -/

namespace Sys2Proof.Machine

/-- Two lengths within the bound of R192 add up without wrapping. -/
theorem toNat_ofNat_of_le_mgmLimit {c : Cipher} {n : Nat} (h : n ≤ mgmLimit c) : (BitVec.ofNat 64 n).toNat = n := by
  have hlt := mgmLimit_lt c
  rw [BitVec.toNat_ofNat]
  exact Nat.mod_eq_of_lt (by omega)

@[simp] theorem mgmAad_cipher (cfg : Config) (m : MgmCtx) (p : Bytes) : (mgmAad cfg m p).cipher = m.cipher := by
  obtain ⟨hc, -⟩ := mgmAadFold_frame cfg p (mgmOpenAad cfg m)
  rw [mgmAad_eq]
  exact hc.trans (mgmOpenAad_cipher cfg m)

@[simp] theorem mgmData_cipher (cfg : Config) (m : MgmCtx) (p : Bytes) (d : Dir) :
    (mgmData cfg m p d).2.cipher = m.cipher := by
  obtain ⟨hc, -⟩ := mgmDataBytes_frame cfg d p (mgmOpenData cfg m d)
  rw [mgmData_eq]
  exact hc.trans (mgmOpenData_cipher cfg m d)

theorem mgmAad_aLen (cfg : Config) (m : MgmCtx) (p : Bytes) :
    (mgmAad cfg m p).aLen = BitVec.ofNat 64 (m.aLen.toNat + p.length) := by rw [mgmAad_eq]

theorem mgmData_cLen (cfg : Config) (m : MgmCtx) (p : Bytes) (d : Dir) :
    (mgmData cfg m p d).2.cLen = BitVec.ofNat 64 (m.cLen.toNat + p.length) := by rw [mgmData_eq]

/-- A length counter after two pieces is the one after both together. -/
theorem ofNat_add_length (n : BitVec 64) (p q : Bytes) :
    BitVec.ofNat 64 ((BitVec.ofNat 64 (n.toNat + p.length)).toNat + q.length) =
      BitVec.ofNat 64 (n.toNat + (p ++ q).length) := by
  rw [← add_ofNat_eq, ← add_ofNat_eq, ← add_ofNat_eq, List.length_append, BitVec.ofNat_add, BitVec.add_assoc]

/-- Two pieces of associated data are absorbed as the bytes together (R54). -/
theorem mgmAad_append (cfg : Config) (m : MgmCtx) (p q : Bytes) :
    mgmAad cfg m (p ++ q) = mgmAad cfg (mgmAad cfg m p) q := by
  rw [mgmAad_eq cfg (mgmAad cfg m p) q, mgmOpenAad_of_phase cfg (mgmAad_phase cfg m p), mgmAad_aLen, ofNat_add_length,
    mgmAad_eq cfg m p, mgmAadFold_aLen_comm, mgmAad_eq, List.foldl_append]

/-- A direction once latched, and a message once opened, stay (R187). -/
theorem mgmOpenData_of_data (cfg : Config) {m : MgmCtx} {d : Dir} (hphase : m.phase = .processingData) (hdir : m.dir = d) :
    mgmOpenData cfg m d = m := by
  subst hdir
  rw [mgmOpenData, if_pos hphase]

@[simp] theorem mgmOpenData_dir (cfg : Config) (m : MgmCtx) (d : Dir) : (mgmOpenData cfg m d).dir = d := by
  unfold mgmOpenData
  split <;> rfl

theorem mgmData_dir (cfg : Config) (m : MgmCtx) (p : Bytes) (d : Dir) : (mgmData cfg m p d).2.dir = d := by
  obtain ⟨-, -, -, hdir, -⟩ := mgmDataBytes_frame cfg d p (mgmOpenData cfg m d)
  rw [mgmData_eq]
  exact hdir.trans (mgmOpenData_dir cfg m d)

/-- Two pieces of a message are processed as the bytes together (R54). -/
theorem mgmData_append (cfg : Config) (m : MgmCtx) (p q : Bytes) (d : Dir) :
    mgmData cfg m (p ++ q) d =
      ((mgmData cfg m p d).1 ++ (mgmData cfg (mgmData cfg m p d).2 q d).1, (mgmData cfg (mgmData cfg m p d).2 q d).2) := by
  have hrest := mgmDataBytes_cLen_comm cfg d (mgmDataBytes cfg d (mgmOpenData cfg m d) p).2
    (BitVec.ofNat 64 (m.cLen.toNat + p.length)) q
  rw [mgmData_eq cfg (mgmData cfg m p d).2 q d, mgmOpenData_of_data cfg (mgmData_phase cfg m p d) (mgmData_dir cfg m p d),
    mgmData_cLen, ofNat_add_length, mgmData_eq cfg m p d, hrest, mgmData_eq cfg m (p ++ q) d, mgmDataBytes_append]

theorem dataOpen_mgmData (cfg : Config) (m : MgmCtx) (p : Bytes) (d : Dir) : DataOpen (mgmData cfg m p d).2 d := by
  rw [DataOpen, mgmData_phase, mgmData_dir]
  exact ⟨by decide, by decide, .inr rfl⟩

section
variable {s : State} {n : BitVec 4} {m : MgmCtx}

/-- `MGM.AAD` on a slot known to take it. -/
theorem exec_mgmAad_onSlot (hm : holdsSlot s n (.mgm m)) (hphase : m.phase = .ivSet ∨ m.phase = .processingAad) {p : Bytes}
    (hfit : m.aLen.toNat + p.length ≤ mgmLimit m.cipher) :
    exec (.mgmAad (onSlot n p)) s = .next (answeredWith s n (.mgm (mgmAad s.cfg m p)) .ok []) :=
  (execMgmAad_of_phase (staticOk_onSlot rfl rfl rfl (holdsSlot_lt hm)) (slot_of_holdsSlot (i := n) hm) hphase).trans
    (if_pos hfit)

/-- A data command on a slot known to take it. -/
theorem exec_mgmData_onSlot {d : Dir} {i : Instr} {p : Bytes} (hi : IsDataCommand d (onSlot n p) i)
    (hm : holdsSlot s n (.mgm m)) (hopen : DataOpen m d) (hfit : m.cLen.toNat + p.length ≤ mgmLimit m.cipher) :
    exec i s = .next (answeredWith s n (.mgm (mgmData s.cfg m p d).2) .ok (mgmData s.cfg m p d).1) := by
  rw [hi.exec (holdsSlot_lt hm) ⟨rfl, rfl⟩]
  exact (mgmDataCommand_of_open (slot_of_holdsSlot (i := n) hm) hopen).trans (if_pos hfit)

/-- What is left of the bound after the first piece is enough for the second. -/
theorem fits_of_append {c : Cipher} {k : BitVec 64} {p q : Bytes} (h : k.toNat + (p ++ q).length ≤ mgmLimit c) :
    k.toNat + p.length ≤ mgmLimit c ∧ (BitVec.ofNat 64 (k.toNat + p.length)).toNat + q.length ≤ mgmLimit c := by
  rw [List.length_append] at h
  have hp : k.toNat + p.length ≤ mgmLimit c := by omega
  rw [toNat_ofNat_of_le_mgmLimit hp]
  omega

theorem mgmAad_chunking {p q : Bytes} (hm : holdsSlot s n (.mgm m))
    (hphase : m.phase = .ivSet ∨ m.phase = .processingAad) (hfit : m.aLen.toNat + (p ++ q).length ≤ mgmLimit m.cipher) :
    ∃ m1 m2,
      let s1 := answeredWith s n (.mgm m1) .ok []
      exec (.mgmAad (onSlot n p)) s = .next s1 ∧
      exec (.mgmAad (onSlot n q)) s1 = .next (answeredWith s1 n (.mgm m2) .ok []) ∧
      exec (.mgmAad (onSlot n (p ++ q))) s = .next (answeredWith s n (.mgm m2) .ok []) := by
  obtain ⟨hfitp, hfitq⟩ := fits_of_append hfit
  have hm1 := holdsSlot_answeredWith_same (.mgm (mgmAad s.cfg m p)) .ok [] (holdsSlot_lt hm)
  have hboth := exec_mgmAad_onSlot hm hphase hfit
  rw [mgmAad_append] at hboth
  exact ⟨_, _, exec_mgmAad_onSlot hm hphase hfitp,
    exec_mgmAad_onSlot hm1 (.inr (mgmAad_phase ..)) (by rwa [mgmAad_aLen, mgmAad_cipher]), hboth⟩

theorem mgmData_chunking {p q : Bytes} {d : Dir} {i : Fields → Instr}
    (hi : ∀ r, IsDataCommand d (onSlot n r) (i (onSlot n r))) (hm : holdsSlot s n (.mgm m)) (hopen : DataOpen m d)
    (hfit : m.cLen.toNat + (p ++ q).length ≤ mgmLimit m.cipher) :
    ∃ m1 m2 o1 o2,
      let s1 := answeredWith s n (.mgm m1) .ok o1
      exec (i (onSlot n p)) s = .next s1 ∧
      exec (i (onSlot n q)) s1 = .next (answeredWith s1 n (.mgm m2) .ok o2) ∧
      exec (i (onSlot n (p ++ q))) s = .next (answeredWith s n (.mgm m2) .ok (o1 ++ o2)) ∧
      o1.length = p.length ∧ o2.length = q.length := by
  obtain ⟨hfitp, hfitq⟩ := fits_of_append hfit
  have hm1 := holdsSlot_answeredWith_same (.mgm (mgmData s.cfg m p d).2) .ok (mgmData s.cfg m p d).1 (holdsSlot_lt hm)
  have hboth := exec_mgmData_onSlot (hi (p ++ q)) hm hopen hfit
  rw [mgmData_append] at hboth
  exact ⟨_, _, _, _, exec_mgmData_onSlot (hi p) hm hopen hfitp,
    exec_mgmData_onSlot (hi q) hm1 (dataOpen_mgmData ..) (by rwa [mgmData_cLen, mgmData_cipher]), hboth,
    length_mgmData .., length_mgmData ..⟩

end

/-- Settles O45: for associated data and for a message, in either direction, two pieces are as the bytes together. -/
theorem mgmChunkingInvariance : Obligations.MgmChunkingInvariance := by
  unfold Obligations.MgmChunkingInvariance
  refine ⟨fun s n m p q hm hphase hfit => mgmAad_chunking hm hphase hfit,
    fun s n m p q d i hm hi hkey hfin hdir hfit => mgmData_chunking (fun r => ?_) hm ⟨hkey, hfin, hdir⟩ hfit⟩
  obtain ⟨rfl, rfl⟩ | ⟨rfl, rfl⟩ := hi
  · exact .inl ⟨rfl, rfl⟩
  · exact .inr ⟨rfl, rfl⟩

/-- The direction is latched and has no other effect on the opening of a message. -/
theorem mgmOpenData_dir_comm (cfg : Config) (m : MgmCtx) (d e : Dir) :
    mgmOpenData cfg m e = { mgmOpenData cfg m d with dir := e } := by
  unfold mgmOpenData
  split <;> rfl

/-- Deciphering what was enciphered gives the message back, and the same context but for the direction (R188). -/
theorem mgmData_dec_enc (cfg : Config) (m : MgmCtx) (p : Bytes) :
    mgmData cfg m (mgmData cfg m p .enc).1 .dec = (p, { (mgmData cfg m p .enc).2 with dir := .dec }) := by
  have hcomm := mgmDataBytes_comm cfg .dec .dec (mgmOpenData cfg m .enc) (mgmOpenData cfg m .enc).cLen
    (mgmDataBytes cfg .enc (mgmOpenData cfg m .enc) p).1
  rw [mgmDataBytes_dec_enc] at hcomm
  rw [mgmData_eq cfg m p .enc, mgmData_eq, mgmOpenData_dir_comm cfg m .enc .dec, length_mgmDataBytes]
  exact congrArg (fun r : Bytes × MgmCtx => (r.1, { r.2 with cLen := BitVec.ofNat 64 (m.cLen.toNat + p.length) })) hcomm

/-- Settles O46: both commands run on the same context, the second over the output of the first. -/
theorem mgmDecUndoesEnc : Obligations.MgmDecUndoesEnc := by
  unfold Obligations.MgmDecUndoesEnc
  intro s n m p hm hkey hfin hdir hfit
  have henc := exec_mgmData_onSlot (.inl ⟨rfl, rfl⟩) hm ⟨hkey, hfin, .inl hdir⟩ hfit
  have hdec := exec_mgmData_onSlot (p := (mgmData s.cfg m p .enc).1) (.inr ⟨rfl, rfl⟩) hm ⟨hkey, hfin, .inl hdir⟩
    (by rwa [length_mgmData])
  rw [mgmData_dec_enc] at hdec
  exact ⟨_, _, henc, mgmData_dir .., hdec⟩

end Sys2Proof.Machine

/-! ### OMAC: the mesh step, the update, and cutting a message (O51, O52, O54) -/

namespace Sys2Proof.Machine

theorem omacMeshDue_iff (o : OmacCtx) :
    omacMeshDue o = true ↔ o.acpkm = true ∧ o.n.toNat ≠ 0 ∧ o.n.toNat ≤ o.num.toNat := by
  simp [omacMeshDue, BitVec.toNat_eq, and_assoc]

/-- Where the mesh step is due it takes the next key material of the master (R251). -/
theorem omacMeshCheck_of_due (cfg : Config) {o : OmacCtx} {g : CtrGen} (hg : o.master = some g) (hn : o.n.toNat ≠ 0)
    (hle : o.n.toNat ≤ o.num.toNat) :
    omacMeshCheck cfg o =
      { o with
        key := slice (masterKeys cfg o.cipher g).1 0 keyLen,
        k1 := slice (masterKeys cfg o.cipher g).1 keyLen (keyLen + bs o.cipher),
        k2 := dbl o.cipher (slice (masterKeys cfg o.cipher g).1 keyLen (keyLen + bs o.cipher)), num := 0,
        master := some (masterKeys cfg o.cipher g).2 } := by
  have hdue : omacMeshDue o = true :=
    (omacMeshDue_iff o).mpr ⟨by rw [OmacCtx.acpkm, hg]; rfl, hn, hle⟩
  simp only [omacMeshCheck, hg, hdue, if_true]

/-- Elsewhere it does nothing (R251). -/
theorem omacMeshCheck_of_not_due (cfg : Config) {o : OmacCtx} (h : omacMeshDue o = false) : omacMeshCheck cfg o = o := by
  unfold omacMeshCheck
  cases o.master with
  | none => rfl
  | some g => simp only [h, Bool.false_eq_true, if_false]

/-- Settles O51: the two cases of the mesh step. -/
theorem omacMeshStep : Obligations.OmacMeshStep := by
  unfold Obligations.OmacMeshStep
  refine fun cfg o => ⟨fun g hg hn hle => omacMeshCheck_of_due cfg hg hn hle, fun h => ?_⟩
  refine omacMeshCheck_of_not_due cfg (Bool.eq_false_iff.mpr fun hdue => ?_)
  obtain ⟨hacpkm, hn, hle⟩ := (omacMeshDue_iff o).mp hdue
  rcases h with h | h | h
  · exact Bool.false_ne_true (h.symm.trans hacpkm)
  · exact hn h
  · omega

/-- R250 (1): on a slot that is not `OMAC`, `OMAC.UPDATE` answers `MacKeyNotSet`. -/
theorem execOmacUpdate_of_other {s : State} {f : Fields} (hs : staticOk s.nctx (.omacUpdate f) = true)
    (hctx : f.ctx.toNat < s.nctx) (hother : ∀ o, ¬ holdsSlot s f.ctx (.omac o)) :
    execOmacUpdate f s = .next (answered s .macKeyNotSet []) := by
  rw [execOmacUpdate, checked_of_staticOk _ hs, withOmac_of_other _ hctx hother]

/-- R250 (2): a finished context is refused with `BadOrder`. -/
theorem execOmacUpdate_of_finalized {s : State} {f : Fields} {o : OmacCtx} (hs : staticOk s.nctx (.omacUpdate f) = true)
    (ho : s.slot f.ctx = .omac o) (hphase : o.phase = .finalized) :
    execOmacUpdate f s = .next (answered s .badOrder []) := by
  rw [execOmacUpdate, checked_of_staticOk _ hs, withOmac_of_slot _ ho, omacOpen_eq_false hphase, require_false]

/-- Past both checks `OMAC.UPDATE` absorbs the payload (R250). -/
theorem execOmacUpdate_of_open {s : State} {f : Fields} {o : OmacCtx} (hs : staticOk s.nctx (.omacUpdate f) = true)
    (ho : s.slot f.ctx = .omac o) (hphase : o.phase ≠ .finalized) :
    execOmacUpdate f s = .next (answeredWith s f.ctx (.omac (omacUpdate s.cfg o f.payload)) .ok []) := by
  rw [execOmacUpdate, checked_of_staticOk _ hs, withOmac_of_slot _ ho, (omacOpen_iff o).mpr hphase, require_true,
    respond_setSlot_eq]

/-- Settles O52: the kind check and the phase check one after the other, and the byte loop past both. -/
theorem omacUpdateAbsorbs : Obligations.OmacUpdateAbsorbs := by
  unfold Obligations.OmacUpdateAbsorbs
  intro s f
  refine ⟨rfl, fun hctx h0 => ?_⟩
  have hs : staticOk s.nctx (.omacUpdate f) = true := staticOk_slot rfl rfl hctx h0
  refine ⟨fun hother => ?_, fun o ho hphase => ?_, fun o ho hphase => ?_⟩
  · exact execOmacUpdate_of_other hs hctx hother
  · exact execOmacUpdate_of_finalized hs (slot_of_holdsSlot ho) hphase
  · intro absorb
    have habsorb : omacByte s.cfg = absorb := by
      funext q b
      simp only [omacByte, omacChain, omacE, absorb]
    rw [← habsorb]
    exact execOmacUpdate_of_open hs (slot_of_holdsSlot ho) hphase

/-- `OMAC.UPDATE` on a slot known to take it. -/
theorem exec_omacUpdate_onSlot {s : State} {n : BitVec 4} {o : OmacCtx} (ho : holdsSlot s n (.omac o))
    (hphase : o.phase ≠ .finalized) (p : Bytes) :
    exec (.omacUpdate (onSlot n p)) s = .next (answeredWith s n (.omac (omacUpdate s.cfg o p)) .ok []) :=
  execOmacUpdate_of_open (staticOk_onSlot rfl rfl rfl (holdsSlot_lt ho)) (slot_of_holdsSlot (i := n) ho) hphase

theorem omacUpdate_phase (cfg : Config) (o : OmacCtx) (p : Bytes) : (omacUpdate cfg o p).phase = o.phase := by
  obtain ⟨-, hphase, -⟩ := omacUpdate_frame cfg p o
  exact hphase

/-- Settles O54: two updates are one over the bytes together. -/
theorem omacChunkingInvariance : Obligations.OmacChunkingInvariance := by
  unfold Obligations.OmacChunkingInvariance
  intro s n o p q ho hphase
  have ho1 := holdsSlot_answeredWith_same (.omac (omacUpdate s.cfg o p)) .ok [] (holdsSlot_lt ho)
  have hboth := exec_omacUpdate_onSlot ho hphase (p ++ q)
  rw [omacUpdate_append] at hboth
  exact ⟨_, _, exec_omacUpdate_onSlot ho hphase p, exec_omacUpdate_onSlot ho1 (by rwa [omacUpdate_phase]) q, hboth⟩

end Sys2Proof.Machine

/-! ### Byte strings block by block -/

namespace Sys2Proof.Machine

/-- A byte string is short, or one block and then a byte string. -/
theorem blocks_induction {n : Nat} (hn : 0 < n) {P : Bytes → Prop} (short : ∀ p, p.length < n → P p)
    (block : ∀ b p, b.length = n → P p → P (b ++ p)) (p : Bytes) : P p := by
  induction hk : p.length using Nat.strong_induction_on generalizing p with
  | _ k ih =>
    rcases Nat.lt_or_ge p.length n with hlt | hge
    · exact short p hlt
    · have hdrop : (p.drop n).length < k := by rw [List.length_drop]; omega
      have hstep := block (p.take n) (p.drop n) (List.length_take_of_le hge) (ih _ hdrop _ rfl)
      rwa [List.take_append_drop] at hstep

theorem slice_append_right (a b : Bytes) (i j : Nat) : slice (a ++ b) (a.length + i) (a.length + j) = slice b i j := by
  rw [slice, slice, List.drop_append, List.drop_eq_nil_of_le (Nat.le_add_right ..), List.nil_append]
  congr 1
  · omega
  · congr 1
    omega

theorem slice_append_left {a : Bytes} {n : Nat} (b : Bytes) (h : a.length = n) : slice (a ++ b) 0 n = a := by
  rw [slice_left_half, ← h, List.take_left]

theorem blocksOf_nil {n : Nat} (hn : 0 < n) : blocksOf n [] = [] := by
  have hcount : (0 + n - 1) / n = 0 := Nat.div_eq_of_lt (by omega)
  rw [blocksOf, List.length_nil, hcount]
  rfl

/-- At most one block is one block, zero-padded (R194). -/
theorem blocksOf_short {n : Nat} {p : Bytes} (h0 : p ≠ []) (hle : p.length ≤ n) : blocksOf n p = [fit n p] := by
  have hpos := List.length_pos_iff.mpr h0
  have hcount : (p.length + n - 1) / n = 1 := Nat.div_eq_of_lt_le (by omega) (by omega)
  have hone : slice p (0 * n) ((0 + 1) * n) = p := by
    rw [Nat.zero_mul, Nat.zero_add, Nat.one_mul, slice_left_half, List.take_of_length_le hle]
  rw [blocksOf, hcount, List.range_one, List.map_singleton, hone]

/-- One block in front is one block more (R194). -/
theorem blocksOf_append {n : Nat} {b : Bytes} (p : Bytes) (hn : 0 < n) (hb : b.length = n) :
    blocksOf n (b ++ p) = b :: blocksOf n p := by
  have hcount : ((b ++ p).length + n - 1) / n = (p.length + n - 1) / n + 1 := by
    rw [List.length_append, hb, show n + p.length + n - 1 = p.length + n - 1 + n by omega, Nat.add_div_right _ hn]
  have hfirst : fit n (slice (b ++ p) (0 * n) ((0 + 1) * n)) = b := by
    rw [Nat.zero_mul, Nat.zero_add, Nat.one_mul, slice_append_left p hb, fit_of_length hb]
  have hrest : ∀ i, slice (b ++ p) ((i + 1) * n) ((i + 1 + 1) * n) = slice p (i * n) ((i + 1) * n) := fun i =>
    calc slice (b ++ p) ((i + 1) * n) ((i + 1 + 1) * n)
        = slice (b ++ p) (b.length + i * n) (b.length + (i + 1) * n) := by rw [hb]; congr 1 <;> ring
      _ = slice p (i * n) ((i + 1) * n) := slice_append_right ..
  rw [blocksOf, hcount, map_range_succ, hfirst]
  simp only [hrest, blocksOf]

/-- A string filled with zero bytes (R12). -/
theorem fit_of_le {n : Nat} {q : Bytes} (h : q.length ≤ n) : fit n q = q ++ zeros (n - q.length) := by
  rw [fit, List.take_append, List.take_of_length_le h, take_zeros, Nat.min_eq_left (Nat.sub_le ..)]

/-- A byte written at the end of what waits in a buffer. -/
theorem set_fit {n : Nat} {q : Bytes} (b : Byte) (h : q.length < n) : (fit n q).set q.length b = fit n (q ++ [b]) := by
  obtain ⟨k, rfl⟩ := Nat.exists_eq_add_of_lt h
  have hone : (q ++ [b]).length = q.length + 1 := List.length_append
  rw [fit_of_le h.le, fit_of_le (by rw [hone]; omega), hone, List.set_append_right _ _ le_rfl, Nat.sub_self,
    show q.length + k + 1 - q.length = k + 1 by omega, show q.length + k + 1 - (q.length + 1) = k by omega, zeros_succ,
    List.set_cons_zero, List.append_assoc, List.singleton_append]

theorem fit_nil (n : Nat) : fit n [] = zeros n := by
  rw [fit, List.nil_append, take_zeros, Nat.min_self]

/-- Xoring byte by byte is taking each byte with the one at its place. -/
theorem xorB_eq_map_range {p k : Bytes} (h : p.length ≤ k.length) :
    xorB p k = (List.range p.length).map fun j => p.getD j 0 ^^^ k.getD j 0 := by
  refine List.ext_getElem (by simp [h]) fun j hj _ => ?_
  have hjp : j < p.length := by rw [length_xorB] at hj; omega
  have hjk : j < k.length := by omega
  simp [xorB, List.getD_eq_getElem?_getD, List.getElem?_eq_getElem hjp, List.getElem?_eq_getElem hjk]

end Sys2Proof.Machine

/-! ### The MGM authenticator over blocks (O47, O48) -/

namespace Sys2Proof.Machine

/-- One fold of the authenticator, as the pair of `sum` and `Z` (R180). -/
def authStep (cfg : Config) (c : Cipher) (key : Bytes) (a : Bytes × Bytes) (x : Bytes) : Bytes × Bytes :=
  (xorB a.1 (gfMul c (encBlock cfg.bc c key a.2) x), incrL a.2)

/-- The authenticator of a context: `sum` and `Z`. -/
def MgmCtx.auth (m : MgmCtx) : Bytes × Bytes := (m.sum, m.z)

/-- The fold of the engine is one such step (R180). -/
theorem auth_mgmFold (cfg : Config) (m : MgmCtx) (x : Bytes) :
    (mgmFold cfg m x).auth = authStep cfg m.cipher m.key m.auth x := rfl

/-- The sum over a list of blocks, block `i` with `Z` moved `i` times (R194). -/
theorem foldl_authStep_fst (cfg : Config) (c : Cipher) (key : Bytes) (blocks : List Bytes) (sum z : Bytes) :
    (blocks.foldl (authStep cfg c key) (sum, z)).1 = (List.range blocks.length).foldl
      (fun acc i => xorB acc (gfMul c (encBlock cfg.bc c key (incrL^[i] z)) (blocks.getD i []))) sum := by
  induction blocks generalizing sum z with
  | nil => rfl
  | cons x rest ih =>
    rw [List.foldl_cons, List.length_cons, List.range_succ_eq_map, List.foldl_cons, List.foldl_map]
    exact ih _ _

/-- Associated data `q` waiting in the buffer of a context; a full buffer is folded (R186). -/
def aadWait (cfg : Config) (m : MgmCtx) (q : Bytes) : MgmCtx :=
  if q.length = bs m.cipher then { mgmFold cfg m q with ares := 0, abuf := zeros (bs m.cipher) }
  else { m with abuf := fit (bs m.cipher) q, ares := q.length }

/-- With nothing waiting the context is as it is. -/
theorem aadWait_nil (cfg : Config) {m : MgmCtx} (habuf : m.abuf = zeros (bs m.cipher)) (hares : m.ares = 0) :
    aadWait cfg m [] = m := by
  have hne : ¬ ([] : Bytes).length = bs m.cipher := (bs_pos m.cipher).ne
  rw [aadWait, if_neg hne, fit_nil, ← habuf, List.length_nil, ← hares]

/-- A full buffer leaves the folded context with nothing waiting. -/
theorem aadWait_full (cfg : Config) {m : MgmCtx} {q : Bytes} (h : q.length = bs m.cipher) :
    aadWait cfg m q = aadWait cfg (mgmFold cfg m q) [] := by
  have hne : ¬ ([] : Bytes).length = bs (mgmFold cfg m q).cipher := (bs_pos m.cipher).ne
  rw [aadWait, if_pos h, aadWait, if_neg hne, fit_nil]
  rfl

/-- A byte joins what waits (R186). -/
theorem mgmAadByte_aadWait (cfg : Config) {m : MgmCtx} {q : Bytes} (b : Byte) (h : q.length < bs m.cipher) :
    mgmAadByte cfg (aadWait cfg m q) b = aadWait cfg m (q ++ [b]) := by
  have hlen : (q ++ [b]).length = q.length + 1 := List.length_append
  rw [aadWait, if_neg h.ne, aadWait, hlen, mgmAadByte]
  dsimp only
  rw [set_fit b h]
  split
  · next hfull => rw [fit_of_length (hlen.trans hfull)]; rfl
  · rfl

/-- Bytes within one block join what waits. -/
theorem foldl_mgmAadByte_aadWait (cfg : Config) (m : MgmCtx) (p q : Bytes) (h : q.length + p.length ≤ bs m.cipher) :
    p.foldl (mgmAadByte cfg) (aadWait cfg m q) = aadWait cfg m (q ++ p) := by
  induction p generalizing q with
  | nil => rw [List.append_nil]; rfl
  | cons b r ih =>
    rw [List.length_cons] at h
    have hlen : (q ++ [b]).length = q.length + 1 := List.length_append
    rw [List.foldl_cons, mgmAadByte_aadWait cfg b (by omega), ih _ (by omega), List.append_assoc, List.singleton_append]

/-- Absorbing associated data and folding what is left is folding its blocks (R186, R187, R194). -/
theorem auth_flushAad_foldl (cfg : Config) (c : Cipher) (key p : Bytes) (m : MgmCtx) (hc : m.cipher = c) (hk : m.key = key) :
    (mgmFlushAad cfg (p.foldl (mgmAadByte cfg) (aadWait cfg m []))).auth =
      (blocksOf (bs c) p).foldl (authStep cfg c key) m.auth := by
  induction p using blocks_induction (bs_pos c) generalizing m with
  | short p hlt =>
    subst hc hk
    rw [foldl_mgmAadByte_aadWait cfg m p [] (by rw [List.length_nil]; omega), List.nil_append, aadWait, if_neg hlt.ne,
      mgmFlushAad]
    by_cases h0 : p = []
    · subst h0
      rw [blocksOf_nil (bs_pos _)]
      rfl
    · rw [if_pos (List.length_pos_iff.mpr h0), blocksOf_short h0 hlt.le]
      rfl
  | block b p hb ih =>
    have hfolded := ih (mgmFold cfg m b) hc hk
    subst hc hk
    rw [List.foldl_append, foldl_mgmAadByte_aadWait cfg m b [] (by rw [hb, List.length_nil, Nat.zero_add]),
      List.nil_append, aadWait_full cfg hb, hfolded, blocksOf_append p (bs_pos _) hb]
    rfl

/-! #### The message -/

/-- Ciphertext `q` waiting in the buffer of a context; a full buffer is folded (R187). -/
def dataWait (cfg : Config) (m : MgmCtx) (q : Bytes) : MgmCtx :=
  if q.length = bs m.cipher then { mgmFold cfg m q with mres := 0, cbuf := zeros (bs m.cipher) }
  else { m with cbuf := fit (bs m.cipher) q, mres := q.length }

/-- The context with a new keystream block (R187). -/
def nextKeystream (cfg : Config) (m : MgmCtx) : MgmCtx := { m with ks := mgmE cfg m m.y, y := incrR m.y }

/-- The ciphertext among what went in and what came out (R187, R188). -/
def ciphertextOf (d : Dir) (input output : Bytes) : Bytes := if d = .enc then output else input

theorem ciphertextOf_cons (d : Dir) (b o : Byte) (p out : Bytes) :
    ciphertextOf d (b :: p) (o :: out) = (if d = .enc then o else b) :: ciphertextOf d p out := by
  unfold ciphertextOf
  split <;> rfl

theorem ciphertextOf_append (d : Dir) (b o p out : Bytes) :
    ciphertextOf d (b ++ p) (o ++ out) = ciphertextOf d b o ++ ciphertextOf d p out := by
  unfold ciphertextOf
  split <;> rfl

theorem length_ciphertextOf {d : Dir} {p out : Bytes} (h : out.length = p.length) : (ciphertextOf d p out).length = p.length := by
  unfold ciphertextOf
  split
  · exact h
  · rfl

theorem dataWait_nil (cfg : Config) {m : MgmCtx} (hcbuf : m.cbuf = zeros (bs m.cipher)) (hmres : m.mres = 0) :
    dataWait cfg m [] = m := by
  have hne : ¬ ([] : Bytes).length = bs m.cipher := (bs_pos m.cipher).ne
  rw [dataWait, if_neg hne, fit_nil, ← hcbuf, List.length_nil, ← hmres]

theorem dataWait_full (cfg : Config) {m : MgmCtx} {q : Bytes} (h : q.length = bs m.cipher) :
    dataWait cfg m q = dataWait cfg (mgmFold cfg m q) [] := by
  have hne : ¬ ([] : Bytes).length = bs (mgmFold cfg m q).cipher := (bs_pos m.cipher).ne
  rw [dataWait, if_pos h, dataWait, if_neg hne, fit_nil]
  rfl

theorem mgmReady_of_idle (cfg : Config) {m : MgmCtx} (h : m.mres = 0) : mgmReady cfg m = nextKeystream cfg m := if_pos h

theorem mgmReady_of_use (cfg : Config) {m : MgmCtx} (h : m.mres ≠ 0) : mgmReady cfg m = m := if_neg h

theorem dataWait_mres (cfg : Config) {m : MgmCtx} {q : Bytes} (h : q.length < bs m.cipher) :
    (dataWait cfg m q).mres = q.length := by
  rw [dataWait, if_neg h.ne]

/-- A keystream block in use stays; with nothing waiting a new one is made (R187). -/
theorem mgmReady_dataWait (cfg : Config) {m : MgmCtx} {q : Bytes} (h : q.length < bs m.cipher) :
    mgmReady cfg (dataWait cfg m q) = dataWait cfg (if q = [] then nextKeystream cfg m else m) q := by
  have hmres := dataWait_mres cfg h
  by_cases h0 : q = []
  · subst h0
    have hne : ¬ ([] : Bytes).length = bs (nextKeystream cfg m).cipher := h.ne
    rw [mgmReady_of_idle cfg hmres, if_pos rfl, dataWait, dataWait, if_neg h.ne, if_neg hne]
    rfl
  · rw [if_neg h0, mgmReady_of_use cfg (fun he => h0 (List.length_eq_zero_iff.mp (hmres.symm.trans he)))]

/-- A byte of the message is xored with its byte of the keystream block, and its ciphertext byte joins what waits (R187). -/
theorem mgmDataByte_dataWait (cfg : Config) (d : Dir) {m m1 : MgmCtx} {q : Bytes} (b : Byte) (h : q.length < bs m.cipher)
    (hm1 : (if q = [] then nextKeystream cfg m else m) = m1) :
    mgmDataByte cfg d (dataWait cfg m q) b =
      (b ^^^ m1.ks.getD q.length 0, dataWait cfg m1 (q ++ [if d = .enc then b ^^^ m1.ks.getD q.length 0 else b])) := by
  have hc1 : m1.cipher = m.cipher := by rw [← hm1]; split <;> rfl
  have hcipher : (dataWait cfg m q).cipher = m1.cipher := by rw [hc1, dataWait, if_neg h.ne]
  have hlen : ∀ x : Byte, (q ++ [x]).length = q.length + 1 := fun _ => List.length_append
  have hlt1 : q.length < bs m1.cipher := hc1 ▸ h
  rw [mgmDataByte, mgmReady_dataWait cfg h, hm1, hcipher, dataWait, if_neg hlt1.ne, dataWait, hlen]
  dsimp only
  rw [set_fit _ hlt1]
  split
  · next hfull => rw [fit_of_length ((hlen _).trans hfull)]; rfl
  · rfl

/-- Bytes within one block, once it is in use (R187). -/
theorem mgmDataBytes_within (cfg : Config) (d : Dir) (m : MgmCtx) (p q : Bytes) (h0 : q ≠ [])
    (h : q.length + p.length ≤ bs m.cipher) :
    mgmDataBytes cfg d (dataWait cfg m q) p =
      ((List.range p.length).map fun j => p.getD j 0 ^^^ m.ks.getD (q.length + j) 0,
        dataWait cfg m (q ++ ciphertextOf d p
          ((List.range p.length).map fun j => p.getD j 0 ^^^ m.ks.getD (q.length + j) 0))) := by
  induction p generalizing q with
  | nil =>
    have hnil : ciphertextOf d [] [] = [] := ite_self _
    rw [List.length_nil, List.range_zero, List.map_nil, hnil, List.append_nil]
    rfl
  | cons b r ih =>
    rw [List.length_cons] at h
    have hlen : ∀ x : Byte, (q ++ [x]).length = q.length + 1 := fun _ => List.length_append
    have hne : ∀ x : Byte, q ++ [x] ≠ [] := fun x => List.append_ne_nil_of_right_ne_nil _ (List.cons_ne_nil x [])
    rw [mgmDataBytes_cons, mgmDataByte_dataWait cfg d b (by omega) (if_neg h0), ih _ (hne _) (by rw [hlen]; omega), hlen,
      List.length_cons, map_range_succ, ciphertextOf_cons]
    simp only [List.getD_cons_zero, List.getD_cons_succ, Nat.add_zero, Nat.add_assoc, Nat.add_comm 1,
      List.append_assoc, List.singleton_append]

/-- Bytes that begin a block, up to a whole one: the keystream block is made, and used from its first byte (R187). -/
theorem mgmDataBytes_of_block (cfg : Config) (d : Dir) (m : MgmCtx) {p : Bytes} (h0 : p ≠ []) (h : p.length ≤ bs m.cipher) :
    mgmDataBytes cfg d (dataWait cfg m []) p =
      (xorB p (mgmE cfg m m.y), dataWait cfg (nextKeystream cfg m) (ciphertextOf d p (xorB p (mgmE cfg m m.y)))) := by
  obtain ⟨b, r, rfl⟩ := List.exists_cons_of_ne_nil h0
  have hks : (nextKeystream cfg m).ks = mgmE cfg m m.y := rfl
  have hlen : (b :: r).length = r.length + 1 := rfl
  rw [xorB_eq_map_range (by rw [length_mgmE]; exact h), mgmDataBytes_cons,
    mgmDataByte_dataWait (q := []) cfg d b (bs_pos _) (if_pos rfl), List.nil_append,
    mgmDataBytes_within cfg d (nextKeystream cfg m) r _ (List.cons_ne_nil _ _)
      (by rw [List.length_singleton, Nat.add_comm]; exact h),
    hlen, map_range_succ, ciphertextOf_cons, List.length_singleton, List.length_nil, hks]
  simp only [List.getD_cons_zero, List.getD_cons_succ, Nat.add_comm 1, List.singleton_append]

/-- The keystream of MGM that begins at the counter block `y`, on a message (R194). -/
def mgmXor (cfg : Config) (c : Cipher) (key y p : Bytes) : Bytes :=
  (List.range p.length).map fun j =>
    p.getD j 0 ^^^ (encBlock cfg.bc c key (incrR^[j / bs c] y)).getD (j % bs c) 0

@[simp] theorem length_mgmXor (cfg : Config) (c : Cipher) (key y p : Bytes) : (mgmXor cfg c key y p).length = p.length := by
  rw [mgmXor, List.length_map, List.length_range]

/-- Within the first block the counter has not moved. -/
theorem mgmXor_short (cfg : Config) (c : Cipher) (key y : Bytes) {p : Bytes} (h : p.length ≤ bs c) :
    mgmXor cfg c key y p = xorB p (encBlock cfg.bc c key y) := by
  rw [xorB_eq_map_range (by rw [length_encBlock]; exact h), mgmXor]
  refine List.map_congr_left fun j hj => ?_
  have hlt : j < bs c := by rw [List.mem_range] at hj; omega
  rw [Nat.div_eq_of_lt hlt, Nat.mod_eq_of_lt hlt]
  rfl

/-- After one block the counter has moved once. -/
theorem mgmXor_append (cfg : Config) (c : Cipher) (key y p : Bytes) {b : Bytes} (hb : b.length = bs c) :
    mgmXor cfg c key y (b ++ p) = xorB b (encBlock cfg.bc c key y) ++ mgmXor cfg c key (incrR y) p := by
  rw [← mgmXor_short cfg c key y hb.le, mgmXor, mgmXor, mgmXor, List.length_append, List.range_add, List.map_append,
    List.map_map]
  congr 1
  · refine List.map_congr_left fun j hj => ?_
    rw [List.getD_append _ _ _ _ (List.mem_range.mp hj)]
  · refine List.map_congr_left fun j _ => ?_
    have hdiv : (bs c + j) / bs c = j / bs c + 1 := by rw [Nat.add_div_left _ (bs_pos c)]
    rw [Function.comp_apply, List.getD_append_right _ _ _ _ (Nat.le_add_right ..), Nat.add_sub_cancel_left, hb, hdiv,
      Nat.add_mod_left]
    rfl

theorem getElem_mgmXor {cfg : Config} {c : Cipher} {key y p : Bytes} {j : Nat} (h : j < (mgmXor cfg c key y p).length) :
    (mgmXor cfg c key y p)[j] = p.getD j 0 ^^^ (encBlock cfg.bc c key (incrR^[j / bs c] y)).getD (j % bs c) 0 := by
  simp only [mgmXor, List.getElem_map, List.getElem_range]

/-- Xoring the keystream twice gives the message back (R188). -/
theorem mgmXor_mgmXor (cfg : Config) (c : Cipher) (key y p : Bytes) :
    mgmXor cfg c key y (mgmXor cfg c key y p) = p := by
  refine List.ext_getElem (by rw [length_mgmXor, length_mgmXor]) fun j hj hjp => ?_
  have hj1 : j < (mgmXor cfg c key y p).length := by rwa [length_mgmXor]
  rw [getElem_mgmXor, List.getD_eq_getElem _ _ hj1, getElem_mgmXor, List.getD_eq_getElem _ _ hjp, BitVec.xor_assoc,
    BitVec.xor_self, BitVec.xor_zero]

/-- The data loop over a whole message: what comes out, and what its ciphertext is folded to (R187, R194). -/
theorem mgmDataBytes_whole (cfg : Config) (d : Dir) (c : Cipher) (key p : Bytes) (m : MgmCtx) (hc : m.cipher = c)
    (hk : m.key = key) :
    (mgmDataBytes cfg d (dataWait cfg m []) p).1 = mgmXor cfg c key m.y p ∧
    (mgmFlushData cfg (mgmDataBytes cfg d (dataWait cfg m []) p).2).auth =
      (blocksOf (bs c) (ciphertextOf d p (mgmXor cfg c key m.y p))).foldl (authStep cfg c key) m.auth := by
  induction p using blocks_induction (bs_pos c) generalizing m with
  | short p hlt =>
    subst hc hk
    by_cases h0 : p = []
    · subst h0
      have hnil : ciphertextOf d [] (mgmXor cfg m.cipher m.key m.y []) = [] := ite_self _
      rw [hnil, blocksOf_nil (bs_pos _), dataWait, if_neg hlt.ne]
      exact ⟨rfl, rfl⟩
    · rw [mgmDataBytes_of_block cfg d m h0 hlt.le, mgmXor_short _ _ _ _ hlt.le]
      refine ⟨rfl, ?_⟩
      have hx : (ciphertextOf d p (xorB p (encBlock cfg.bc m.cipher m.key m.y))).length = p.length :=
        length_ciphertextOf (by rw [length_xorB, length_encBlock]; omega)
      have hne : ciphertextOf d p (xorB p (encBlock cfg.bc m.cipher m.key m.y)) ≠ [] := fun he => by
        rw [he] at hx
        exact h0 (List.length_eq_zero_iff.mp hx.symm)
      have hpart : ¬ (ciphertextOf d p (xorB p (encBlock cfg.bc m.cipher m.key m.y))).length =
          bs (nextKeystream cfg m).cipher := fun he => hlt.ne (hx.symm.trans he)
      rw [blocksOf_short hne (by omega), mgmE, dataWait, if_neg hpart, mgmFlushData,
        if_pos (List.length_pos_iff.mpr hne)]
      rfl
  | block b p hb ih =>
    have hfolded := ih (mgmFold cfg (nextKeystream cfg m) (ciphertextOf d b (xorB b (mgmE cfg m m.y)))) hc hk
    subst hc hk
    have h0 : b ≠ [] := fun he => (bs_pos m.cipher).ne (by rw [← hb, he]; rfl)
    have hx : (ciphertextOf d b (xorB b (encBlock cfg.bc m.cipher m.key m.y))).length = bs m.cipher := by
      rw [length_ciphertextOf (by rw [length_xorB, length_encBlock]; omega), hb]
    obtain ⟨hout, hauth⟩ := hfolded
    rw [mgmDataBytes_append, mgmDataBytes_of_block cfg d m h0 hb.le, mgmE,
      dataWait_full cfg (m := nextKeystream cfg m) hx]
    rw [mgmXor_append _ _ _ _ _ hb, ciphertextOf_append, blocksOf_append _ (bs_pos _) hx]
    exact ⟨congrArg _ hout, hauth⟩

end Sys2Proof.Machine

/-! ### Sequences of commands, piece by piece -/

namespace Sys2Proof.Machine

theorem runCommands_append {a b : List Instr} {s t : State} (h : runCommands a s = some t) :
    runCommands (a ++ b) s = runCommands b t := by
  induction a generalizing s with
  | nil =>
    obtain rfl : s = t := by injection h
    rfl
  | cons i rest ih =>
    obtain ⟨u, hu⟩ := exists_exec i s
    rw [runCommands_cons _ hu] at h
    rw [List.cons_append, runCommands_cons _ hu, ih h]

/-- A run whose commands each answer: the slot `n` holds `x` at its end, the parameters are the same, and these are the
responses given. -/
def RunsTo (cmds : List Instr) (s : State) (n : BitVec 4) (x : Slot) (rs : List Response) : Prop :=
  ∃ t, runCommands cmds s = some t ∧ holdsSlot t n x ∧ t.cfg = s.cfg ∧ t.resp = s.resp ++ rs

section
variable {s : State} {n : BitVec 4} {x y : Slot}

theorem RunsTo.nil (h : holdsSlot s n x) : RunsTo [] s n x [] := ⟨s, rfl, h, rfl, (List.append_nil _).symm⟩

/-- One command that writes the slot, and a run from there. -/
theorem RunsTo.cons {i : Instr} {rest : List Instr} {st : Status} {p : Bytes} {rs : List Response}
    (h : exec i s = .next (answeredWith s n y st p)) (hrest : RunsTo rest (answeredWith s n y st p) n x rs) :
    RunsTo (i :: rest) s n x (⟨st, p⟩ :: rs) := by
  obtain ⟨t, hrun, hx, hcfg, hresp⟩ := hrest
  refine ⟨t, (runCommands_cons rest h).trans hrun, hx, hcfg, ?_⟩
  rw [hresp, answeredWith_resp, List.append_assoc, List.singleton_append]

/-- A run, and one from where it ends. -/
theorem RunsTo.append {a b : List Instr} {rs qs : List Response} (ha : RunsTo a s n y rs)
    (hb : ∀ t, holdsSlot t n y → t.cfg = s.cfg → RunsTo b t n x qs) : RunsTo (a ++ b) s n x (rs ++ qs) := by
  obtain ⟨t, hrun, hy, hcfg, hresp⟩ := ha
  obtain ⟨u, hrun', hx, hcfg', hresp'⟩ := hb t hy hcfg
  refine ⟨u, (runCommands_append hrun).trans hrun', hx, hcfg'.trans hcfg, ?_⟩
  rw [hresp', hresp, List.append_assoc]

/-- One command at the end of a run. -/
theorem RunsTo.concat {a : List Instr} {i : Instr} {rs : List Response} {st : Status} {p : Bytes} (ha : RunsTo a s n y rs)
    (hi : ∀ t, holdsSlot t n y → t.cfg = s.cfg → exec i t = .next (answeredWith t n x st p)) :
    RunsTo (a ++ [i]) s n x (rs ++ [⟨st, p⟩]) :=
  ha.append fun t hy hcfg =>
    .cons (hi t hy hcfg) (.nil (holdsSlot_answeredWith_same _ _ _ (holdsSlot_lt hy)))

end

end Sys2Proof.Machine

/-! ### An MGM session in pieces (O47, O48) -/

namespace Sys2Proof.Machine

/-- Associated data in pieces, one after the other. -/
def mgmAadPieces (cfg : Config) (m : MgmCtx) (ads : List Bytes) : MgmCtx := ads.foldl (mgmAad cfg) m

/-- A message in pieces, one after the other: the bytes out, piece by piece, and the context after them. -/
def mgmDataPieces (cfg : Config) (d : Dir) : MgmCtx → List Bytes → List Bytes × MgmCtx
  | m, [] => ([], m)
  | m, p :: ps =>
    ((mgmData cfg m p d).1 :: (mgmDataPieces cfg d (mgmData cfg m p d).2 ps).1,
      (mgmDataPieces cfg d (mgmData cfg m p d).2 ps).2)

/-- Pieces of associated data are absorbed as the bytes together (R54). -/
theorem mgmAadPieces_eq (cfg : Config) (m : MgmCtx) {ads : List Bytes} (h : ads ≠ []) :
    mgmAadPieces cfg m ads = mgmAad cfg m ads.flatten := by
  induction ads generalizing m with
  | nil => exact absurd rfl h
  | cons a rest ih =>
    by_cases hr : rest = []
    · subst hr
      rw [List.flatten_cons, List.flatten_nil, List.append_nil]
      rfl
    · rw [List.flatten_cons, mgmAad_append, ← ih (mgmAad cfg m a) hr]
      rfl

/-- Pieces of a message are processed as the bytes together (R54). -/
theorem mgmDataPieces_eq (cfg : Config) (d : Dir) (m : MgmCtx) {ps : List Bytes} (h : ps ≠ []) :
    (mgmDataPieces cfg d m ps).1.flatten = (mgmData cfg m ps.flatten d).1 ∧
    (mgmDataPieces cfg d m ps).2 = (mgmData cfg m ps.flatten d).2 := by
  induction ps generalizing m with
  | nil => exact absurd rfl h
  | cons p rest ih =>
    by_cases hr : rest = []
    · subst hr
      rw [List.flatten_cons, List.flatten_nil, List.append_nil]
      exact ⟨List.append_nil _, rfl⟩
    · obtain ⟨hout, hctx⟩ := ih (mgmData cfg m p d).2 hr
      rw [List.flatten_cons, mgmData_append]
      exact ⟨by rw [← hout]; rfl, hctx⟩

theorem map_length_mgmDataPieces (cfg : Config) (d : Dir) (m : MgmCtx) (ps : List Bytes) :
    (mgmDataPieces cfg d m ps).1.map List.length = ps.map List.length := by
  induction ps generalizing m with
  | nil => rfl
  | cons p rest ih => rw [mgmDataPieces, List.map_cons, List.map_cons, length_mgmData, ih]

/-- The commands that absorb associated data in pieces (R186). -/
theorem runsTo_mgmAad {s : State} {n : BitVec 4} {m : MgmCtx} (ads : List Bytes) (hm : holdsSlot s n (.mgm m))
    (hphase : m.phase = .ivSet ∨ m.phase = .processingAad) (hfit : m.aLen.toNat + ads.flatten.length ≤ mgmLimit m.cipher) :
    RunsTo (ads.map fun a => .mgmAad (onSlot n a)) s n (.mgm (mgmAadPieces s.cfg m ads))
      (List.replicate ads.length ⟨.ok, []⟩) := by
  induction ads generalizing s m with
  | nil => exact .nil hm
  | cons a rest ih =>
    obtain ⟨hfita, hfitr⟩ := fits_of_append (p := a) (q := rest.flatten) hfit
    have hm1 := holdsSlot_answeredWith_same (.mgm (mgmAad s.cfg m a)) .ok [] (holdsSlot_lt hm)
    exact .cons (exec_mgmAad_onSlot hm hphase hfita)
      (ih hm1 (.inr (mgmAad_phase ..)) (by rwa [mgmAad_aLen, mgmAad_cipher]))

/-- The commands that process a message in pieces (R187, R188). -/
theorem runsTo_mgmData {s : State} {n : BitVec 4} {m : MgmCtx} {d : Dir} {i : Fields → Instr} (ps : List Bytes)
    (hi : ∀ f, IsDataCommand d f (i f)) (hm : holdsSlot s n (.mgm m)) (hopen : DataOpen m d)
    (hfit : m.cLen.toNat + ps.flatten.length ≤ mgmLimit m.cipher) :
    RunsTo (ps.map fun p => i (onSlot n p)) s n (.mgm (mgmDataPieces s.cfg d m ps).2)
      ((mgmDataPieces s.cfg d m ps).1.map fun o => ⟨.ok, o⟩) := by
  induction ps generalizing s m with
  | nil => exact .nil hm
  | cons p rest ih =>
    obtain ⟨hfitp, hfitr⟩ := fits_of_append (p := p) (q := rest.flatten) hfit
    have hm1 := holdsSlot_answeredWith_same (.mgm (mgmData s.cfg m p d).2) .ok (mgmData s.cfg m p d).1 (holdsSlot_lt hm)
    exact .cons (exec_mgmData_onSlot (hi _) hm hopen hfitp)
      (ih hm1 (dataOpen_mgmData ..) (by rwa [mgmData_cLen, mgmData_cipher]))

/-! #### The whole message at once -/

/-- A message that has not begun (R183). -/
structure MgmFresh (m : MgmCtx) : Prop where
  phase : m.phase = .ivSet
  dir   : m.dir = .none
  sum   : m.sum = zeros (bs m.cipher)
  abuf  : m.abuf = zeros (bs m.cipher)
  cbuf  : m.cbuf = zeros (bs m.cipher)
  ares  : m.ares = 0
  mres  : m.mres = 0
  aLen  : m.aLen = 0
  cLen  : m.cLen = 0
  nonce : settop m.nonce false = m.nonce

theorem mgmFlushAad_of_empty (cfg : Config) {m : MgmCtx} (h : m.ares = 0) : mgmFlushAad cfg m = m :=
  if_neg (by omega)

/-- The tag: the two buffers flushed, the length block folded, and the sum enciphered (R189). -/
theorem mgmFinish_tag (cfg : Config) (m : MgmCtx) :
    (mgmFinish cfg m).tag = encBlock cfg.bc m.cipher m.key
      (authStep cfg m.cipher m.key (mgmFlushData cfg (mgmFlushAad cfg m)).auth (mgmLengthBlock m)).1 := by
  rw [mgmFinish_eq]
  dsimp only
  rw [mgmFold_sum, mgmE, mgmFlushData_cipher, mgmFlushData_key, mgmFlushAad_cipher, mgmFlushAad_key]
  rfl

/-- The counter block of the keystream does not matter to the authenticator. -/
theorem auth_mgmFlushAad_y (cfg : Config) (m : MgmCtx) (y : Bytes) :
    (mgmFlushAad cfg { m with y := y }).auth = (mgmFlushAad cfg m).auth := by
  unfold mgmFlushAad
  dsimp only
  split <;> rfl

/-- Nor do the length counters, until the length block. -/
theorem auth_mgmFlushAad_aLen (cfg : Config) (m : MgmCtx) (k : BitVec 64) :
    (mgmFlushAad cfg { m with aLen := k }).auth = (mgmFlushAad cfg m).auth := by
  unfold mgmFlushAad
  dsimp only
  split <;> rfl

theorem auth_mgmFlushData_cLen (cfg : Config) (m : MgmCtx) (k : BitVec 64) :
    (mgmFlushData cfg { m with cLen := k }).auth = (mgmFlushData cfg m).auth := by
  unfold mgmFlushData
  dsimp only
  split <;> rfl

theorem mgmStartZ_of_phase (cfg : Config) {m : MgmCtx} (h : m.phase ≠ .ivSet) : mgmStartZ cfg m = m := if_neg h

/-- The message opened after associated data (R187): the counter block is `Y_1`, and what waits is folded. -/
theorem mgmOpenData_of_aad (cfg : Config) {m : MgmCtx} (d : Dir) (h : m.phase = .processingAad) :
    (mgmOpenData cfg m d).auth = (mgmFlushAad cfg m).auth ∧
    (mgmOpenData cfg m d).y = encBlock cfg.bc m.cipher m.key (settop m.nonce false) ∧ (mgmOpenData cfg m d).ares = 0 := by
  have hdata : m.phase ≠ .processingData := by rw [h]; decide
  have hiv : m.phase ≠ .ivSet := by rw [h]; decide
  rw [mgmOpenData, if_neg hdata, mgmStartZ_of_phase cfg hiv]
  exact ⟨auth_mgmFlushAad_y cfg m _, mgmFlushAad_y .., mgmFlushAad_ares ..⟩

/-- A message opened with no associated data is opened as after an empty piece of it. -/
theorem mgmData_aad_nil (cfg : Config) {m : MgmCtx} (p : Bytes) (d : Dir) (h : m.phase = .ivSet) :
    mgmData cfg (mgmAad cfg m []) p d = mgmData cfg m p d := by
  have haad : mgmAad cfg m [] = { mgmStartZ cfg m with phase := .processingAad } := by
    rw [mgmAad_eq, List.foldl_nil, List.length_nil, Nat.add_zero, BitVec.ofNat_toNat, BitVec.setWidth_eq, mgmOpenAad,
      ← mgmStartZ_aLen cfg m]
  have hdata : m.phase ≠ .processingData := by rw [h]; decide
  have hopen : mgmOpenData cfg (mgmAad cfg m []) d = mgmOpenData cfg m d := by
    have haad_data : MgmPhase.processingAad ≠ .processingData := by decide
    have haad_iv : MgmPhase.processingAad ≠ .ivSet := by decide
    rw [mgmOpenData, mgmOpenData, if_neg hdata, haad, if_neg haad_data, mgmStartZ_of_phase cfg haad_iv]
    simp only [mgmFlushAad, mgmE]
    split <;> rfl
  have hcLen : (mgmAad cfg m []).cLen = m.cLen := by rw [haad, ← mgmStartZ_cLen cfg m]
  rw [mgmData_eq, mgmData_eq, hopen, hcLen]

/-- Finishing after an empty piece of the message gives the tag of finishing at once. -/
theorem mgmFinish_tag_data_nil (cfg : Config) {m : MgmCtx} (d : Dir) (h : m.phase = .processingAad) (hmres : m.mres = 0) :
    (mgmFinish cfg (mgmData cfg m [] d).2).tag = (mgmFinish cfg m).tag := by
  obtain ⟨hauth, -, hares⟩ := mgmOpenData_of_aad cfg d h
  have hnil : (mgmData cfg m [] d).2 = mgmOpenData cfg m d := by
    rw [mgmData_eq, mgmDataBytes_nil, List.length_nil, Nat.add_zero, BitVec.ofNat_toNat, BitVec.setWidth_eq,
      ← mgmOpenData_cLen cfg m d]
  have hflush : ∀ q : MgmCtx, q.mres = 0 → mgmFlushData cfg q = q := fun q hq => if_neg (by omega)
  have hlen : mgmLengthBlock (mgmOpenData cfg m d) = mgmLengthBlock m := by
    simp only [mgmLengthBlock, mgmOpenData_cipher, mgmOpenData_aLen, mgmOpenData_cLen]
  rw [hnil, mgmFinish_tag, mgmFinish_tag, mgmFlushAad_of_empty cfg hares, hflush _ ((mgmOpenData_mres ..).trans hmres),
    hflush _ ((mgmFlushAad_mres ..).trans hmres), hauth, hlen, mgmOpenData_cipher, mgmOpenData_key]

@[simp] theorem mgmData_key (cfg : Config) (m : MgmCtx) (p : Bytes) (d : Dir) : (mgmData cfg m p d).2.key = m.key := by
  obtain ⟨-, hk, -⟩ := mgmDataBytes_frame cfg d p (mgmOpenData cfg m d)
  rw [mgmData_eq]
  exact hk.trans (mgmOpenData_key cfg m d)

@[simp] theorem mgmData_taglen (cfg : Config) (m : MgmCtx) (p : Bytes) (d : Dir) :
    (mgmData cfg m p d).2.taglen = m.taglen := by
  obtain ⟨-, -, -, -, ht, -⟩ := mgmDataBytes_frame cfg d p (mgmOpenData cfg m d)
  rw [mgmData_eq]
  exact ht.trans (mgmOpenData_taglen cfg m d)

@[simp] theorem mgmData_aLen (cfg : Config) (m : MgmCtx) (p : Bytes) (d : Dir) : (mgmData cfg m p d).2.aLen = m.aLen := by
  obtain ⟨-, -, -, -, -, -, haLen, -⟩ := mgmDataBytes_frame cfg d p (mgmOpenData cfg m d)
  rw [mgmData_eq]
  exact haLen.trans (mgmOpenData_aLen cfg m d)

/-- Opening the message leaves no associated data waiting (R187). -/
theorem mgmData_ares_of_aad (cfg : Config) {m : MgmCtx} (p : Bytes) (d : Dir) (h : m.phase = .processingAad) :
    (mgmData cfg m p d).2.ares = 0 := by
  obtain ⟨-, -, hares⟩ := mgmOpenData_of_aad cfg d h
  obtain ⟨-, -, -, -, -, -, -, -, har, -⟩ := mgmDataBytes_frame cfg d p (mgmOpenData cfg m d)
  rw [mgmData_eq]
  exact har.trans hares

section
variable {cfg : Config} {m : MgmCtx}

/-- The fields of a message after its associated data (R186). -/
theorem MgmFresh.aad_frame (h : MgmFresh m) (a : Bytes) :
    let q := mgmAad cfg m a
    q.cipher = m.cipher ∧ q.key = m.key ∧ q.dir = .none ∧ q.taglen = m.taglen ∧ q.nonce = m.nonce ∧ q.cLen = 0 ∧
      q.mres = 0 ∧ q.cbuf = zeros (bs m.cipher) := by
  intro q
  obtain ⟨hc, hk, -, hd, ht, hn, -, -, hcl, hm, hcb, -⟩ := mgmAadFold_frame cfg a (mgmOpenAad cfg m)
  have hq : q = { a.foldl (mgmAadByte cfg) (mgmOpenAad cfg m) with aLen := BitVec.ofNat 64 (m.aLen.toNat + a.length) } :=
    mgmAad_eq cfg m a
  rw [hq]
  exact ⟨hc.trans (mgmOpenAad_cipher ..), hk.trans (mgmOpenAad_key ..), hd.trans ((mgmOpenAad_dir ..).trans h.dir),
    ht.trans (mgmOpenAad_taglen ..), hn.trans (mgmOpenAad_nonce ..), hcl.trans ((mgmOpenAad_cLen ..).trans h.cLen),
    hm.trans ((mgmOpenAad_mres ..).trans h.mres), hcb.trans ((mgmOpenAad_cbuf ..).trans h.cbuf)⟩

/-- Associated data is folded block by block, from `Z_1` on (R194). -/
theorem MgmFresh.aad_auth (h : MgmFresh m) (a : Bytes) :
    (mgmFlushAad cfg (mgmAad cfg m a)).auth = (blocksOf (bs m.cipher) a).foldl (authStep cfg m.cipher m.key)
      (zeros (bs m.cipher), encBlock cfg.bc m.cipher m.key (settop m.nonce true)) := by
  have hopen := mgmOpenAad_eq cfg (.inl h.phase)
  rw [if_pos h.phase] at hopen
  have hwait : aadWait cfg (mgmOpenAad cfg m) [] = mgmOpenAad cfg m :=
    aadWait_nil cfg (by rw [mgmOpenAad_abuf, mgmOpenAad_cipher, h.abuf]) ((mgmOpenAad_ares ..).trans h.ares)
  have hflush := auth_flushAad_foldl cfg m.cipher m.key a (mgmOpenAad cfg m) (mgmOpenAad_cipher ..) (mgmOpenAad_key ..)
  have hstart : (mgmOpenAad cfg m).auth = (zeros (bs m.cipher), encBlock cfg.bc m.cipher m.key (settop m.nonce true)) := by
    rw [hopen, MgmCtx.auth, h.sum]
  rw [hwait, hstart] at hflush
  rw [← hflush, mgmAad_eq, auth_mgmFlushAad_aLen]

/-- The data loop after the associated data: the ciphertext, and the authenticator over both (R194). -/
theorem MgmFresh.data (h : MgmFresh m) (d : Dir) (a p : Bytes) :
    let x := mgmCiphertext cfg m.cipher m.key m.nonce p
    let r := mgmData cfg (mgmAad cfg m a) p d
    r.1 = x ∧ (mgmFlushData cfg r.2).auth =
      (blocksOf (bs m.cipher) a ++ blocksOf (bs m.cipher) (ciphertextOf d p x)).foldl (authStep cfg m.cipher m.key)
        (zeros (bs m.cipher), encBlock cfg.bc m.cipher m.key (settop m.nonce true)) := by
  intro x r
  obtain ⟨hc, hk, -, -, hn, -, hmres, hcbuf⟩ := h.aad_frame (cfg := cfg) a
  obtain ⟨hauth, hy, -⟩ := mgmOpenData_of_aad cfg d (mgmAad_phase cfg m a)
  have hcipher := (mgmOpenData_cipher cfg (mgmAad cfg m a) d).trans hc
  have hkey := (mgmOpenData_key cfg (mgmAad cfg m a) d).trans hk
  have hwait : dataWait cfg (mgmOpenData cfg (mgmAad cfg m a) d) [] = mgmOpenData cfg (mgmAad cfg m a) d :=
    dataWait_nil cfg (by rw [hcipher, mgmOpenData_cbuf, hcbuf]) ((mgmOpenData_mres ..).trans hmres)
  obtain ⟨hout, hfold⟩ := mgmDataBytes_whole cfg d m.cipher m.key p _ hcipher hkey
  rw [hwait, hy, hc, hk, hn, h.nonce] at hout hfold
  have hr : r = _ := mgmData_eq cfg (mgmAad cfg m a) p d
  rw [hr]
  refine ⟨hout, ?_⟩
  rw [auth_mgmFlushData_cLen, hfold, hauth, h.aad_auth, List.foldl_append]
  rfl

theorem toNat_ofNat_cipherCode (c : Cipher) : (BitVec.ofNat 4 (cipherCode c)).toNat = cipherCode c := by
  cases c <;> rfl

theorem zero_toNat_add (k : Nat) : (0 : BitVec 64).toNat + k = k := Nat.zero_add k

/-- The tag of a message of the unit is the tag of the closed form (R194). -/
theorem MgmFresh.tag (h : MgmFresh m) (d : Dir) {a p : Bytes} (ha : a.length ≤ mgmLimit m.cipher)
    (hp : p.length ≤ mgmLimit m.cipher) :
    let x := mgmCiphertext cfg m.cipher m.key m.nonce p
    (mgmFinish cfg (mgmData cfg (mgmAad cfg m a) p d).2).tag =
      mgmTag cfg m.cipher m.key m.nonce a (ciphertextOf d p x) := by
  intro x
  obtain ⟨-, hauth⟩ := h.data (cfg := cfg) d a p
  obtain ⟨hc, hk, -, -, -, hcl, -, -⟩ := h.aad_frame (cfg := cfg) a
  have hcipher := (mgmData_cipher cfg (mgmAad cfg m a) p d).trans hc
  have hkey := (mgmData_key cfg (mgmAad cfg m a) p d).trans hk
  have hxlen : (ciphertextOf d p x).length = p.length := length_ciphertextOf (length_mgmXor ..)
  have haLen : (mgmData cfg (mgmAad cfg m a) p d).2.aLen.toNat = a.length := by
    rw [mgmData_aLen, mgmAad_aLen, h.aLen, zero_toNat_add, toNat_ofNat_of_le_mgmLimit ha]
  have hcLen : (mgmData cfg (mgmAad cfg m a) p d).2.cLen.toNat = p.length := by
    rw [mgmData_cLen, hcl, zero_toNat_add, toNat_ofNat_of_le_mgmLimit hp]
  have hares : (mgmData cfg (mgmAad cfg m a) p d).2.ares = 0 := mgmData_ares_of_aad cfg p d (mgmAad_phase cfg m a)
  rw [mgmFinish_tag, mgmFlushAad_of_empty cfg hares, mgmLengthBlock, hauth, hcipher, hkey, haLen, hcLen, mgmTag,
    ← foldl_authStep_fst, List.foldl_concat, hxlen]

/-- In pieces or not: what comes out, and what the tag will be (R54, R194). -/
theorem MgmFresh.pieces (h : MgmFresh m) (d : Dir) {ads ps : List Bytes} (hne : ads ≠ [] ∨ ps ≠ []) :
    let r := mgmDataPieces cfg d (mgmAadPieces cfg m ads) ps
    let whole := mgmData cfg (mgmAad cfg m ads.flatten) ps.flatten d
    r.1.flatten = whole.1 ∧ (mgmFinish cfg r.2).tag = (mgmFinish cfg whole.2).tag := by
  intro r whole
  by_cases hps : ps = []
  · subst hps
    have hads := mgmAadPieces_eq cfg m (hne.resolve_right (not_not_intro rfl))
    obtain ⟨-, -, -, -, -, -, hmres, -⟩ := h.aad_frame (cfg := cfg) ads.flatten
    have hout : whole.1 = [] := List.length_eq_zero_iff.mp (length_mgmData ..)
    refine ⟨hout.symm, ?_⟩
    rw [show r.2 = mgmAadPieces cfg m ads from rfl, hads]
    exact (mgmFinish_tag_data_nil cfg d (mgmAad_phase cfg m _) hmres).symm
  · obtain ⟨hout, hctx⟩ := mgmDataPieces_eq cfg d (mgmAadPieces cfg m ads) hps
    have hwhole : mgmData cfg (mgmAadPieces cfg m ads) ps.flatten d = whole := by
      by_cases hads : ads = []
      · subst hads
        exact (mgmData_aad_nil cfg ps.flatten d h.phase).symm
      · rw [mgmAadPieces_eq cfg m hads]
    rw [hwhole] at hout hctx
    exact ⟨hout, congrArg (fun q => (mgmFinish cfg q).tag) hctx⟩

/-- Where a message in pieces stands: it can be ended on its own side, under the tag length it began with. -/
theorem MgmFresh.pieces_frame (h : MgmFresh m) {d e : Dir} (hde : d ≠ e) (he : e ≠ .none) {ads ps : List Bytes}
    (hne : ads ≠ [] ∨ ps ≠ []) :
    let q := mgmAadPieces cfg m ads
    let r := mgmDataPieces cfg d q ps
    (q.dir = .none ∧ q.phase ≠ .keySet ∧ q.phase ≠ .finalized ∧ q.cipher = m.cipher ∧ q.cLen = 0) ∧
      mgmEndPhase r.2 e = true ∧ r.2.taglen = m.taglen := by
  intro q r
  have hq : (ads ≠ [] → q.phase = .processingAad) ∧ q.dir = .none ∧ q.phase ≠ .keySet ∧ q.phase ≠ .finalized ∧
      q.cipher = m.cipher ∧ q.cLen = 0 ∧ q.taglen = m.taglen := by
    by_cases hads : ads = []
    · subst hads
      have hm : q = m := rfl
      rw [hm, h.phase]
      exact ⟨fun hn => absurd rfl hn, h.dir, by decide, by decide, rfl, h.cLen, rfl⟩
    · have hm : q = mgmAad cfg m ads.flatten := mgmAadPieces_eq cfg m hads
      obtain ⟨hc, -, hd, ht, -, hcl, -, -⟩ := h.aad_frame (cfg := cfg) ads.flatten
      rw [hm, mgmAad_phase]
      exact ⟨fun _ => rfl, hd, by decide, by decide, hc, hcl, ht⟩
  obtain ⟨hphase, hdir, hkey, hfin, hc, hcl, ht⟩ := hq
  refine ⟨⟨hdir, hkey, hfin, hc, hcl⟩, ?_⟩
  by_cases hps : ps = []
  · subst hps
    have hr : r.2 = q := rfl
    rw [mgmEndPhase_iff, hr, hdir]
    exact ⟨⟨.inl (hphase (hne.resolve_right (not_not_intro rfl))), he.symm⟩, ht⟩
  · have hr : r.2 = (mgmData cfg q ps.flatten d).2 := (mgmDataPieces_eq cfg d q hps).2
    rw [mgmEndPhase_iff, hr, mgmData_phase, mgmData_dir, mgmData_taglen]
    exact ⟨⟨.inr rfl, hde⟩, ht⟩

end

/-- The commands of a message in pieces, from a slot whose message has not begun: what they answer, and the context left
for `MGM.FINISH` or `MGM.VERIFY` (R194). -/
theorem MgmFresh.run {s : State} {n : BitVec 4} {m : MgmCtx} {d e : Dir} {i : Fields → Instr} {ads ps : List Bytes}
    (h : MgmFresh m) (hm : holdsSlot s n (.mgm m)) (hi : ∀ f, IsDataCommand d f (i f)) (hde : d ≠ e) (he : e ≠ .none)
    (hne : ads ≠ [] ∨ ps ≠ []) (ha : ads.flatten.length ≤ mgmLimit m.cipher)
    (hp : ps.flatten.length ≤ mgmLimit m.cipher) :
    ∃ (m' : MgmCtx) (outs : List Bytes),
      RunsTo (ads.map (fun a => .mgmAad (onSlot n a)) ++ ps.map fun p => i (onSlot n p)) s n (.mgm m')
        (List.replicate ads.length ⟨.ok, []⟩ ++ outs.map fun o => ⟨.ok, o⟩) ∧
      outs.flatten = mgmCiphertext s.cfg m.cipher m.key m.nonce ps.flatten ∧
      outs.map List.length = ps.map List.length ∧
      mgmEndPhase m' e = true ∧ m'.taglen = m.taglen ∧
      (mgmFinish s.cfg m').tag = mgmTag s.cfg m.cipher m.key m.nonce ads.flatten (ciphertextOf d ps.flatten outs.flatten) := by
  obtain ⟨⟨hdir, hkey, hfin, hc, hcl⟩, hend, ht⟩ := h.pieces_frame (cfg := s.cfg) hde he hne
  obtain ⟨hout, htag⟩ := h.pieces (cfg := s.cfg) d hne
  obtain ⟨hx, -⟩ := h.data (cfg := s.cfg) d ads.flatten ps.flatten
  have haad := runsTo_mgmAad ads hm (.inl h.phase) (by rw [h.aLen, zero_toNat_add]; exact ha)
  refine ⟨_, _, haad.append fun t hq hcfg => ?_, hout.trans hx, map_length_mgmDataPieces .., hend, ht, ?_⟩
  · rw [← hcfg] at hq hdir hkey hfin hc hcl ⊢
    exact runsTo_mgmData ps hi hq ⟨hkey, hfin, .inl hdir⟩ (by rw [hcl, zero_toNat_add, hc]; exact hp)
  · rw [htag, hout, hx]
    exact h.tag d ha hp

/-! #### The two statements -/

/-- A nonce just set begins a message (R183). -/
theorem mgmFresh_setiv (m : MgmCtx) (nonce : Bytes) : MgmFresh
    { cipher := m.cipher, key := m.key, taglen := m.taglen, nonce := settop nonce false, phase := .ivSet,
      dir := .none, z := zeros (bs m.cipher), y := zeros (bs m.cipher), sum := zeros (bs m.cipher), aLen := 0,
      cLen := 0, ares := 0, mres := 0, abuf := zeros (bs m.cipher), cbuf := zeros (bs m.cipher),
      ks := zeros (bs m.cipher), tag := zeros (bs m.cipher) } :=
  ⟨rfl, rfl, rfl, rfl, rfl, rfl, rfl, rfl, rfl, settop_settop ..⟩

/-- A well-formed context whose nonce is set and whose direction and sum are as the nonce left them has not begun. -/
theorem MgmWf.fresh {m : MgmCtx} (h : MgmWf m) (hphase : m.phase = .ivSet) (hdir : m.dir = .none)
    (hsum : m.sum = zeros (bs m.cipher)) : MgmFresh m := by
  have haad : m.phase ≠ .processingAad := by rw [hphase]; decide
  have hdata : m.phase ≠ .processingData := by rw [hphase]; decide
  have hares : m.ares = 0 := Nat.eq_zero_of_not_pos (mt h.aresWhen haad)
  have hmres : m.mres = 0 := Nat.eq_zero_of_not_pos (mt h.mresWhen hdata)
  have habuf := h.abuf
  have hcbuf := h.cbuf
  rw [hares, List.drop_zero, Nat.sub_zero] at habuf
  rw [hmres, List.drop_zero, Nat.sub_zero] at hcbuf
  exact ⟨hphase, hdir, hsum, habuf, hcbuf, hares, hmres, h.aLenZero (.inr hphase), h.cLenZero (.inr (.inl hphase)), h.nonce⟩

theorem exec_mgmFinish_onSlot {s : State} {cfg : Config} {n : BitVec 4} {m : MgmCtx} (hcfg : s.cfg = cfg)
    (hm : holdsSlot s n (.mgm m)) (hend : mgmEndPhase m .dec = true) :
    exec (.mgmFinish (onSlot n [])) s =
      .next (answeredWith s n (.mgm (mgmFinish cfg m)) .ok ((mgmFinish cfg m).tag.take m.taglen)) := by
  subst hcfg
  exact execMgmFinish_of_phase (staticOk_slot_fixed rfl rfl (holdsSlot_lt hm) ⟨rfl, rfl⟩ rfl)
    (slot_of_holdsSlot (i := n) hm) hend

theorem exec_mgmVerify_onSlot {s : State} {cfg : Config} {n : BitVec 4} {m : MgmCtx} {p : Bytes} (hcfg : s.cfg = cfg)
    (hm : holdsSlot s n (.mgm m)) (hend : mgmEndPhase m .enc = true) (hlen : p.length = m.taglen) :
    exec (.mgmVerify (onSlot n p)) s = .next (answeredWith s n (.mgm (mgmFinish cfg m))
      (if (mgmFinish cfg m).tag.take m.taglen = p then .ok else .authenticationFailed) []) := by
  subst hcfg
  exact execMgmVerify_of_length (staticOk_onSlot rfl rfl rfl (holdsSlot_lt hm)) (slot_of_holdsSlot (i := n) hm) hend hlen

/-- The three commands that begin a session: key, tag length, nonce (R182, R190, R183). -/
theorem runsTo_mgmSetup {s : State} {n : BitVec 4} {c : Cipher} {key nonce : Bytes} {taglen : BitVec 8}
    (hn : n.toNat < s.nctx) (hkey : key.length = 32) (hnonce : nonce.length = bs c) (h1 : 1 ≤ taglen.toNat)
    (hle : taglen.toNat ≤ bs c) :
    ∃ m, RunsTo [.mgmInit { ctx := n, a := BitVec.ofNat 4 (cipherCode c), imm := 0, payload := key },
        .mgmTaglen { ctx := n, a := 0, imm := taglen, payload := [] }, .mgmSetiv (onSlot n nonce)] s n (.mgm m)
        (List.replicate 3 ⟨.ok, []⟩) ∧
      MgmFresh m ∧ m.cipher = c ∧ m.key = key ∧ m.nonce = settop nonce false ∧ m.taglen = taglen.toNat := by
  have hcode := toNat_ofNat_cipherCode c
  have hinit := execMgmInit_of_staticOk (s := s) (f := ⟨n, BitVec.ofNat 4 (cipherCode c), 0, key⟩)
    (staticOk_create rfl rfl ⟨hn, hcode, rfl, hkey⟩) hcode
  rw [keyOperand_of_length hkey] at hinit
  have hrun1 := RunsTo.cons (i := .mgmInit ⟨n, BitVec.ofNat 4 (cipherCode c), 0, key⟩) hinit
    (.nil (holdsSlot_answeredWith_same _ _ _ hn))
  have hrun2 := hrun1.concat (i := .mgmTaglen ⟨n, 0, taglen, []⟩) fun t hm _ =>
    (execMgmTaglen_of_phase (f := ⟨n, 0, taglen, []⟩) (staticOk_slot_imm rfl rfl (holdsSlot_lt hm) rfl rfl)
      (slot_of_holdsSlot (i := n) hm) (show MgmPhase.keySet ≠ .finalized by decide)).trans (if_pos ⟨h1, hle⟩)
  have hrun3 := hrun2.concat (i := .mgmSetiv (onSlot n nonce)) fun t hm _ =>
    execMgmSetiv_of_block (f := onSlot n nonce) (staticOk_onSlot rfl rfl rfl (holdsSlot_lt hm))
      (slot_of_holdsSlot (i := n) hm) hnonce
  exact ⟨_, hrun3, mgmFresh_setiv _ nonce, rfl, rfl, rfl, rfl⟩

/-- Settles O47: the three commands that begin, the message in pieces, and the tag. -/
theorem mgmClosedForm : Obligations.MgmClosedForm := by
  unfold Obligations.MgmClosedForm
  intro s n c key nonce taglen ads ps hn hkey hnonce h1 hle hne ha hp session nn x
  obtain ⟨m, hsetup, hfresh, rfl, rfl, hnn, ht⟩ := runsTo_mgmSetup (s := s) hn hkey hnonce h1 hle
  obtain ⟨u, hrun, hu, hcfg, hresp⟩ := hsetup
  obtain ⟨m', outs, hmsg, hout, hlens, hend, ht', htag⟩ :=
    hfresh.run (d := .enc) (e := .dec) hu (fun _ => .inl ⟨rfl, rfl⟩) (by decide) (by decide) hne ha hp
  obtain ⟨t, hrun', -, -, hresp'⟩ := hmsg.concat (i := .mgmFinish (onSlot n [])) fun t hm hcfg' =>
    exec_mgmFinish_onSlot hcfg' hm hend
  have hx : ciphertextOf .enc ps.flatten outs.flatten = outs.flatten := if_pos rfl
  rw [htag, hx, ht', ht, hout, hcfg, hnn] at hresp'
  rw [hcfg, hnn] at hout
  refine ⟨t, outs, ?_, hout, hlens, ?_⟩
  · rw [← hrun', ← runCommands_append hrun]
    simp only [session, List.append_assoc]
  · rw [hresp', hresp, List.replicate_add]
    simp only [List.append_assoc]
    rfl

/-- Settles O48: both sides run the message of the closed form, and xoring the keystream twice gives the message back. -/
theorem mgmRoundTrip : Obligations.MgmRoundTrip := by
  unfold Obligations.MgmRoundTrip
  intro s u n k m r ads ads' ps cs hcfg hm hr hwm hwr hpm hpr hdm hdr hsm hsr hc hk hnn ht hads hne hne' ha hp
  obtain ⟨m', outs, hmsg, hout, -, hend, htl, htag⟩ := (hwm.fresh hpm hdm hsm).run (d := .enc) (e := .dec) hm
    (fun _ => .inl ⟨rfl, rfl⟩) (by decide) (by decide) hne ha hp
  obtain ⟨t, hrun, -, -, hresp⟩ := hmsg.concat (i := .mgmFinish (onSlot n [])) fun t hm hcfg' =>
    exec_mgmFinish_onSlot hcfg' hm hend
  have hx : ciphertextOf .enc ps.flatten outs.flatten = outs.flatten := if_pos rfl
  refine ⟨t, outs, (mgmFinish s.cfg m').tag.take m'.taglen, hrun, ?_, fun hcs tag' htag' => ?_⟩
  · rw [hresp]
    simp only [List.append_assoc]
  · have hcslen : cs.flatten.length ≤ mgmLimit r.cipher := by
      rw [hcs, hout, hc]
      exact (length_mgmXor ..).trans_le hp
    obtain ⟨r', plain, hmsg', hout', -, hend', htl', htag''⟩ := (hwr.fresh hpr hdr hsr).run (d := .dec) (e := .enc) hr
      (fun _ => .inr ⟨rfl, rfl⟩) (by decide) (by decide) hne' (by rw [← hads, hc]; exact ha) hcslen
    have hx' : ciphertextOf .dec cs.flatten plain.flatten = cs.flatten := if_neg (by decide)
    have hsame : (mgmFinish u.cfg r').tag = (mgmFinish s.cfg m').tag := by
      rw [htag, htag'', hx, hx', hcs, hads, hcfg, hc, hk, hnn]
    have htaglen : r'.taglen = m'.taglen := by rw [htl', ht, htl]
    have hlen : tag'.length = r'.taglen := by
      rw [htag', htaglen, List.length_take, htag, mgmTag, length_encBlock, htl]
      exact Nat.min_eq_left hwm.taglen.2
    obtain ⟨v, hrun', -, -, hresp'⟩ := hmsg'.concat (i := .mgmVerify (onSlot k tag')) fun t hm hcfg' =>
      exec_mgmVerify_onSlot hcfg' hm hend' hlen
    refine ⟨v, plain, hrun', ?_, ?_⟩
    · rw [hout', hcs, hout, ← hcfg, hc, hk, hnn]
      exact mgmXor_mgmXor ..
    · rw [hresp', hsame, htaglen]
      simp only [List.append_assoc, eq_comm]

end Sys2Proof.Machine

/-! ### An OMAC message block by block (O55, O56) -/

namespace Sys2Proof.Machine

/-- A byte string is at most one block, or one block with more behind it. -/
theorem blocks_induction_last {n : Nat} (hn : 0 < n) {P : Bytes → Prop} (last : ∀ p, p.length ≤ n → P p)
    (block : ∀ b p, b.length = n → p ≠ [] → P p → P (b ++ p)) (p : Bytes) : P p := by
  induction p using blocks_induction hn with
  | short p hlt => exact last p hlt.le
  | block b p hb ih =>
    by_cases h0 : p = []
    · subst h0
      exact last _ (by rw [List.append_nil, hb])
    · exact block b p hb h0 ih

/-- The whitened last block of a message (R252). -/
def whitened (c : Cipher) (k1 last : Bytes) : Bytes :=
  if last.length = bs c then xorB last k1 else xorB (last ++ 0x80#8 :: zeros (bs c - last.length - 1)) (dbl c k1)

/-- The OMAC of a message that goes on from the chaining value `ch` (R255). -/
def omacFrom (cfg : Config) (c : Cipher) (km : Nat → Bytes × Bytes) (ch msg : Bytes) : Bytes :=
  let q := max 1 ((msg.length + bs c - 1) / bs c)
  let chain := (List.range (q - 1)).foldl
    (fun ch i => encBlock cfg.bc c (km i).1 (xorB ch (slice msg (i * bs c) ((i + 1) * bs c)))) ch
  encBlock cfg.bc c (km (q - 1)).1 (xorB chain (whitened c (km (q - 1)).2 (msg.drop ((q - 1) * bs c))))

theorem omacOf_eq_omacFrom (cfg : Config) (c : Cipher) (km : Nat → Bytes × Bytes) (msg : Bytes) :
    omacOf cfg c km msg = omacFrom cfg c km (zeros (bs c)) msg := rfl

/-- At most one block: it is whitened and enciphered. -/
theorem omacFrom_of_le (cfg : Config) (c : Cipher) (km : Nat → Bytes × Bytes) (ch : Bytes) {p : Bytes}
    (h : p.length ≤ bs c) :
    omacFrom cfg c km ch p = encBlock cfg.bc c (km 0).1 (xorB ch (whitened c (km 0).2 p)) := by
  have hpos := bs_pos c
  have hq : max 1 ((p.length + bs c - 1) / bs c) = 1 := by
    have hle : (p.length + bs c - 1) / bs c ≤ 1 := Nat.lt_succ_iff.mp (Nat.div_lt_of_lt_mul (by omega))
    omega
  simp only [omacFrom, hq, Nat.sub_self, List.range_zero, List.foldl_nil, Nat.zero_mul, List.drop_zero]

/-- One block with more behind it: it is chained. -/
theorem omacFrom_append (cfg : Config) (c : Cipher) (km : Nat → Bytes × Bytes) (ch : Bytes) {b p : Bytes}
    (hb : b.length = bs c) (h0 : p ≠ []) :
    omacFrom cfg c km ch (b ++ p) =
      omacFrom cfg c (fun j => km (j + 1)) (encBlock cfg.bc c (km 0).1 (xorB ch b)) p := by
  have hpos := bs_pos c
  have hp := List.length_pos_iff.mpr h0
  obtain ⟨k, hk⟩ : ∃ k, (p.length + bs c - 1) / bs c = k + 1 :=
    Nat.exists_eq_add_one.mpr (Nat.div_pos (by omega) hpos)
  have hq : ((b ++ p).length + bs c - 1) / bs c = k + 2 := by
    rw [List.length_append, hb, show bs c + p.length + bs c - 1 = p.length + bs c - 1 + bs c by omega,
      Nat.add_div_right _ hpos, hk]
  have hmaxq : max 1 (k + 2) - 1 = k + 1 := by omega
  have hmaxk : max 1 (k + 1) - 1 = k := by omega
  have hfirst : slice (b ++ p) (0 * bs c) ((0 + 1) * bs c) = b := by
    rw [Nat.zero_mul, Nat.zero_add, Nat.one_mul, slice_append_left p hb]
  have hrest : ∀ i, slice (b ++ p) ((i + 1) * bs c) ((i + 1 + 1) * bs c) = slice p (i * bs c) ((i + 1) * bs c) := fun i =>
    calc slice (b ++ p) ((i + 1) * bs c) ((i + 1 + 1) * bs c)
        = slice (b ++ p) (b.length + i * bs c) (b.length + (i + 1) * bs c) := by rw [hb]; congr 1 <;> ring
      _ = slice p (i * bs c) ((i + 1) * bs c) := slice_append_right ..
  have hlast : (b ++ p).drop ((k + 1) * bs c) = p.drop (k * bs c) := by
    rw [Nat.succ_mul, Nat.add_comm, ← hb, List.drop_append, List.drop_eq_nil_of_le (Nat.le_add_right ..),
      List.nil_append, Nat.add_sub_cancel_left]
  simp only [omacFrom, hq, hk, hmaxq, hmaxk, hlast, List.range_succ_eq_map, List.foldl_cons, List.foldl_map, hfirst,
    Nat.succ_eq_add_one, hrest]

/-- The part `q` of a block waiting in a context (R250). -/
def omacWait (o : OmacCtx) (q : Bytes) : OmacCtx := { o with lbuf := fit (bs o.cipher) q, nlast := q.length }

/-- A byte joins what waits while there is room. -/
theorem omacByte_omacWait (cfg : Config) {o : OmacCtx} {q : Bytes} (b : Byte) (h : q.length < bs o.cipher) :
    omacByte cfg (omacWait o q) b = omacWait o (q ++ [b]) := by
  have hlen : (q ++ [b]).length = q.length + 1 := List.length_append
  have hne : ¬ (omacWait o q).nlast = bs (omacWait o q).cipher := h.ne
  rw [omacByte, if_neg hne, omacWait, omacWait, hlen]
  dsimp only
  rw [set_fit b h]

/-- Bytes within one block join what waits. -/
theorem omacUpdate_omacWait (cfg : Config) (o : OmacCtx) (p q : Bytes) (h : q.length + p.length ≤ bs o.cipher) :
    omacUpdate cfg (omacWait o q) p = omacWait o (q ++ p) := by
  induction p generalizing q with
  | nil => rw [List.append_nil]; rfl
  | cons b r ih =>
    rw [List.length_cons] at h
    have hlen : (q ++ [b]).length = q.length + 1 := List.length_append
    rw [omacUpdate, List.foldl_cons, omacByte_omacWait cfg b (by omega)]
    exact (ih _ (by omega)).trans (by rw [List.append_assoc, List.singleton_append])

/-- With nothing waiting the context is as it is. -/
theorem omacWait_nil {o : OmacCtx} (hlbuf : o.lbuf = zeros (bs o.cipher)) (hnlast : o.nlast = 0) : omacWait o [] = o := by
  rw [omacWait, fit_nil, ← hlbuf, List.length_nil, ← hnlast]

/-- A chained block leaves nothing waiting (R250). -/
theorem omacWait_omacChain (cfg : Config) (o : OmacCtx) : omacWait (omacChain cfg o) [] = omacChain cfg o := by
  obtain ⟨hc, -, -, -, -, -, hnlast, hlbuf⟩ := omacChain_frame cfg o
  exact omacWait_nil (hlbuf.trans (by rw [hc])) hnlast

/-- A whole block with more behind it is chained before the rest (R250). -/
theorem omacUpdate_block (cfg : Config) (o : OmacCtx) {b p : Bytes} (hb : b.length = bs o.cipher) (h0 : p ≠ []) :
    omacUpdate cfg (omacWait o []) (b ++ p) = omacUpdate cfg (omacWait (omacChain cfg (omacWait o b)) []) p := by
  obtain ⟨x, r, rfl⟩ := List.exists_cons_of_ne_nil h0
  obtain ⟨hc, -, -, -, -, -, hnlast, -⟩ := omacChain_frame cfg (omacWait o b)
  have hfull : (omacWait o b).nlast = bs (omacWait o b).cipher := hb
  have hempty : ¬ (omacChain cfg (omacWait o b)).nlast = bs (omacChain cfg (omacWait o b)).cipher := by
    rw [hnlast, hc]
    exact (bs_pos _).ne
  have hbyte : omacByte cfg (omacWait o b) x = omacByte cfg (omacChain cfg (omacWait o b)) x := by
    rw [omacByte, omacByte, if_pos hfull, if_neg hempty]
  rw [omacUpdate_append, omacUpdate_omacWait cfg o b [] (by rw [hb, List.length_nil, Nat.zero_add]), List.nil_append,
    omacWait_omacChain, omacUpdate, omacUpdate, List.foldl_cons, List.foldl_cons, hbyte]

/-- A context whose key and whitening subkeys are the given key material (R240). -/
structure HasMaterial (c : Cipher) (mat : Bytes × Bytes) (o : OmacCtx) : Prop where
  cipher : o.cipher = c
  keyIs  : o.key = mat.1
  k1     : o.k1 = mat.2
  k2     : o.k2 = dbl c mat.2

/-- Contexts that take their key material from `km`: where `R i` holds of a context, the mesh step leaves the material of
block `i`, and after that block is chained `R (i + 1)` holds. -/
structure OmacSupply (cfg : Config) (c : Cipher) (km : Nat → Bytes × Bytes) (R : Nat → OmacCtx → Prop) : Prop where
  wait     : ∀ i o q, R i o → R i (omacWait o q)
  material : ∀ i o, R i o → HasMaterial c (km i) (omacMeshCheck cfg o)
  chain    : ∀ i o, R i o → R (i + 1) (omacChain cfg o)

/-- A context whose message has not begun (R244, R247). -/
structure OmacFresh (o : OmacCtx) : Prop where
  phase : o.phase = .keySet
  chain : o.chain = zeros (bs o.cipher)
  lbuf  : o.lbuf = zeros (bs o.cipher)
  nlast : o.nlast = 0

section
variable {cfg : Config} {c : Cipher} {km : Nat → Bytes × Bytes} {R : Nat → OmacCtx → Prop}

theorem OmacSupply.cipher (hR : OmacSupply cfg c km R) {i : Nat} {o : OmacCtx} (h : R i o) : o.cipher = c := by
  obtain ⟨hc, -⟩ := omacMeshCheck_frame cfg o
  exact hc.symm.trans (hR.material i o h).cipher

/-- The last block: the MAC (R252). -/
theorem OmacSupply.final (hR : OmacSupply cfg c km R) {i : Nat} {o : OmacCtx} (h : R i o) {p : Bytes} (hp : p.length ≤ bs c) :
    (omacFinal cfg (omacWait o p)).mac = encBlock cfg.bc c (km i).1 (xorB o.chain (whitened c (km i).2 p)) := by
  have hmat := hR.material i _ (hR.wait i o p h)
  obtain ⟨hc, -, hchain, hlbuf, hnlast, -⟩ := omacMeshCheck_frame cfg (omacWait o p)
  have hlast : omacLast (omacMeshCheck cfg (omacWait o p)) = whitened c (km i).2 p := by
    have hpc : o.cipher = c := hR.cipher h
    have htake : (fit (bs c) p).take p.length = p := by rw [fit_of_le hp, List.take_left]
    rw [omacLast, hnlast, hlbuf, hc, hmat.k1, hmat.k2, whitened]
    simp only [omacWait, hpc, htake]
    split
    · next hfull => rw [fit_of_length hfull]
    · rfl
  rw [omacFinal]
  dsimp only
  rw [omacE, hlast, hchain, hmat.cipher, hmat.keyIs]
  rfl

/-- A block before the last: it is chained under its material (R250). -/
theorem OmacSupply.chain_block (hR : OmacSupply cfg c km R) {i : Nat} {o : OmacCtx} (h : R i o) {b : Bytes}
    (hb : b.length = bs c) :
    (omacChain cfg (omacWait o b)).chain = encBlock cfg.bc c (km i).1 (xorB o.chain b) := by
  have hmat := hR.material i _ (hR.wait i o b h)
  obtain ⟨hc, -, hchain, hlbuf, -⟩ := omacMeshCheck_frame cfg (omacWait o b)
  have hfit : (omacWait o b).lbuf = b := fit_of_length (hb.trans (congrArg bs (hR.cipher h).symm))
  rw [omacChain]
  dsimp only
  rw [omacE, hchain, hlbuf, hfit, hmat.cipher, hmat.keyIs]
  rfl

/-- A whole message from block `i` on: the closed form (R255). -/
theorem OmacSupply.mac (hR : OmacSupply cfg c km R) (p : Bytes) {i : Nat} {o : OmacCtx} (h : R i o) :
    (omacFinal cfg (omacUpdate cfg (omacWait o []) p)).mac = omacFrom cfg c (fun j => km (i + j)) o.chain p := by
  induction p using blocks_induction_last (bs_pos c) generalizing i o with
  | last p hle =>
    have hpc := hR.cipher h
    rw [omacUpdate_omacWait cfg o p [] (by rw [List.length_nil, Nat.zero_add, hpc]; exact hle), List.nil_append,
      hR.final h hle, omacFrom_of_le _ _ _ _ hle, Nat.add_zero]
  | block b p hb h0 ih =>
    have hpc := hR.cipher h
    have hnext := ih (hR.chain i _ (hR.wait i o b h))
    rw [omacUpdate_block cfg o (hb.trans (congrArg bs hpc.symm)) h0, hnext, hR.chain_block h hb,
      omacFrom_append _ _ _ _ hb h0]
    simp only [Nat.add_zero, Nat.add_assoc, Nat.add_comm 1]

end

/-! #### The commands -/

theorem exec_omacFinal_onSlot {s : State} {cfg : Config} {n : BitVec 4} {o : OmacCtx} (hcfg : s.cfg = cfg)
    (ho : holdsSlot s n (.omac o)) (hphase : o.phase ≠ .finalized) :
    exec (.omacFinal (onSlot n [])) s =
      .next (answeredWith s n (.omac (omacFinal cfg o)) .ok ((omacFinal cfg o).mac.take o.maclen)) := by
  subst hcfg
  rw [← slice_left_half]
  exact execOmacFinal_of_open (staticOk_slot_fixed rfl rfl (holdsSlot_lt ho) ⟨rfl, rfl⟩ rfl)
    (slot_of_holdsSlot (i := n) ho) hphase

/-- The commands that absorb a message in pieces (R250). -/
theorem runsTo_omacUpdate {s : State} {n : BitVec 4} {o : OmacCtx} (ps : List Bytes) (ho : holdsSlot s n (.omac o))
    (hphase : o.phase ≠ .finalized) :
    RunsTo (ps.map fun p => .omacUpdate (onSlot n p)) s n (.omac (omacUpdate s.cfg o ps.flatten))
      (List.replicate ps.length ⟨.ok, []⟩) := by
  induction ps generalizing s o with
  | nil => exact .nil ho
  | cons p rest ih =>
    have ho1 := holdsSlot_answeredWith_same (.omac (omacUpdate s.cfg o p)) .ok [] (holdsSlot_lt ho)
    rw [List.flatten_cons, omacUpdate_append]
    exact .cons (exec_omacUpdate_onSlot ho hphase p) (ih ho1 (by rw [omacUpdate_phase]; exact hphase))

/-- A message in pieces and its MAC, from a new context (R255). -/
theorem OmacSupply.run {s : State} {n : BitVec 4} {c : Cipher} {km : Nat → Bytes × Bytes} {R : Nat → OmacCtx → Prop}
    {o : OmacCtx} (hR : OmacSupply s.cfg c km R) (h : R 0 o) (ho : holdsSlot s n (.omac o)) (hnew : OmacFresh o)
    (ps : List Bytes) :
    ∃ x, RunsTo (ps.map (fun p => .omacUpdate (onSlot n p)) ++ [.omacFinal (onSlot n [])]) s n x
      (List.replicate ps.length ⟨.ok, []⟩ ++ [⟨.ok, (omacOf s.cfg c km ps.flatten).take o.maclen⟩]) := by
  have hopen : o.phase ≠ .finalized := by rw [hnew.phase]; decide
  obtain ⟨-, hphase', -, hmaclen, -⟩ := omacUpdate_frame s.cfg ps.flatten o
  have hmac := hR.mac ps.flatten h
  rw [omacWait_nil hnew.lbuf hnew.nlast, hnew.chain, hR.cipher h] at hmac
  simp only [Nat.zero_add, ← omacOf_eq_omacFrom] at hmac
  have hrun := (runsTo_omacUpdate ps ho hopen).concat (i := .omacFinal (onSlot n [])) fun t ht hcfg =>
    exec_omacFinal_onSlot hcfg ht (by rw [omacUpdate_phase]; exact hopen)
  rw [hmac, hmaclen] at hrun
  exact ⟨_, hrun⟩

end Sys2Proof.Machine

/-! ### Plain OMAC (O55) -/

namespace Sys2Proof.Machine

/-- Plain OMAC has the same key material for every block (R244). -/
theorem omacSupply_plain (cfg : Config) (c : Cipher) (mat : Bytes × Bytes) :
    OmacSupply cfg c (fun _ => mat) fun _ o => HasMaterial c mat o ∧ o.acpkm = false where
  wait _ _ _ h := ⟨⟨h.1.cipher, h.1.keyIs, h.1.k1, h.1.k2⟩, h.2⟩
  material _ _ h := by
    rw [omacMeshCheck_plain cfg h.2]
    exact h.1
  chain _ _ h := by
    rw [omacChain, omacMeshCheck_plain cfg h.2]
    exact ⟨⟨h.1.cipher, h.1.keyIs, h.1.k1, h.1.k2⟩, h.2⟩

/-- The two commands that begin a session of plain OMAC: key and MAC length (R244, R249). -/
theorem runsTo_omacSetup {s : State} {n : BitVec 4} {c : Cipher} {key : Bytes} {maclen : BitVec 8} (hn : n.toNat < s.nctx)
    (hkey : key.length = 32) (h1 : 1 ≤ maclen.toNat) (hle : maclen.toNat ≤ bs c) :
    ∃ o, RunsTo [.omacInit { ctx := n, a := BitVec.ofNat 4 (cipherCode c), imm := 0, payload := key },
        .omacMaclen { ctx := n, a := 0, imm := maclen, payload := [] }] s n (.omac o) (List.replicate 2 ⟨.ok, []⟩) ∧
      OmacFresh o ∧ HasMaterial c (plainMaterial s.cfg c key) o ∧ o.acpkm = false ∧ o.maclen = maclen.toNat := by
  have hcode := toNat_ofNat_cipherCode c
  have hinit := execOmacInit_of_staticOk (s := s) (f := ⟨n, BitVec.ofNat 4 (cipherCode c), 0, key⟩)
    (staticOk_create rfl rfl ⟨hn, hcode, rfl, hkey⟩) hcode
  rw [keyOperand_of_length hkey] at hinit
  have hrun1 := RunsTo.cons (i := .omacInit ⟨n, BitVec.ofNat 4 (cipherCode c), 0, key⟩) hinit
    (.nil (holdsSlot_answeredWith_same _ _ _ hn))
  have hrun2 := hrun1.concat (i := .omacMaclen ⟨n, 0, maclen, []⟩) fun t ho _ =>
    (execOmacMaclen_of_open (f := ⟨n, 0, maclen, []⟩) (staticOk_slot_imm rfl rfl (holdsSlot_lt ho) rfl rfl)
      (slot_of_holdsSlot (i := n) ho) (show OmacPhase.keySet ≠ .finalized by decide)).trans (if_pos ⟨h1, hle⟩)
  exact ⟨_, hrun2, ⟨rfl, rfl, rfl, rfl⟩, ⟨rfl, rfl, rfl, rfl⟩, rfl, rfl⟩

/-- Settles O55: the two commands that begin, and a message whose every block has the same key material. -/
theorem omacClosedFormPlain : Obligations.OmacClosedFormPlain := by
  unfold Obligations.OmacClosedFormPlain
  intro s n c key maclen ps hn hkey h1 hle
  obtain ⟨o, ⟨u, hrun, hu, hcfg, hresp⟩, hnew, hmat, hplain, hlen⟩ := runsTo_omacSetup (s := s) hn hkey h1 hle
  have hsupply := omacSupply_plain u.cfg c (plainMaterial s.cfg c key)
  obtain ⟨x, t, hrun', -, -, hresp'⟩ := hsupply.run ⟨hmat, hplain⟩ hu hnew ps
  refine ⟨t, ?_, ?_⟩
  · rw [← hrun', ← runCommands_append hrun]
    simp only [List.append_assoc]
  · rw [hresp', hresp, hcfg, hlen, List.replicate_add]
    simp only [List.append_assoc]

end Sys2Proof.Machine

/-! ### OMAC with ACPKM (O56) -/

namespace Sys2Proof.Machine

/-- The length of the key material of one section (R247). -/
def materialLen (c : Cipher) : Nat := keyLen + bs c

/-- The master after the key material of `e` sections (R247, R251). -/
def masterAt (cfg : Config) (c : Cipher) (g : CtrGen) (e : Nat) : CtrGen :=
  (ctrStream cfg c g (zeros (e * materialLen c))).2

/-- Byte `e * (32 + BS)` up to byte `(e + 1) * (32 + BS)` of the keystream of a master (R255). -/
def materialAt (cfg : Config) (c : Cipher) (g : CtrGen) (e : Nat) : Bytes :=
  (List.range (materialLen c)).map fun j => ctrKeystream cfg c g.key g.ctr g.sect.toNat (e * materialLen c + j)

theorem length_materialAt (cfg : Config) (c : Cipher) (g : CtrGen) (e : Nat) :
    (materialAt cfg c g e).length = keyLen + bs c := by
  rw [materialAt, List.length_map, List.length_range]
  rfl

/-- What the driver makes of zero bytes is its keystream (R150 (c)). -/
theorem ctrStream_zeros (cfg : Config) (c : Cipher) {g : CtrGen} (k : Nat) (hwf : GenWf c g) (hnum : g.num = 0) :
    (ctrStream cfg c g (zeros k)).1 = (List.range k).map (ctrKeystream cfg c g.key g.ctr g.sect.toNat) := by
  have hzero : ∀ j, (zeros k).getD j 0 = 0 := fun j => by
    rw [zeros, List.getD_eq_getElem?_getD, List.getElem?_replicate]
    split <;> rfl
  have h := keystreamIsPeriodic cfg c g (zeros k) hwf hnum
  rw [h, length_zeros]
  refine List.map_congr_left fun j _ => ?_
  rw [hzero]
  exact BitVec.zero_xor

/-- The next key material of a master is the next piece of its keystream (R251). -/
theorem masterKeys_masterAt (cfg : Config) (c : Cipher) {g : CtrGen} (e : Nat) (hwf : GenWf c g) (hnum : g.num = 0) :
    masterKeys cfg c (masterAt cfg c g e) = (materialAt cfg c g e, masterAt cfg c g (e + 1)) := by
  have hsplit : zeros ((e + 1) * materialLen c) = zeros (e * materialLen c) ++ zeros (materialLen c) := by
    rw [zeros, zeros, zeros, ← List.replicate_add, Nat.succ_mul]
  have hrun := ctrStream_append cfg c g (zeros (e * materialLen c)) (zeros (materialLen c))
  rw [← hsplit] at hrun
  have hout := congrArg (fun r => r.1.drop (e * materialLen c)) hrun
  have hlen : (ctrStream cfg c g (zeros (e * materialLen c))).1.length = e * materialLen c := by
    rw [length_ctrStream, length_zeros]
  dsimp only at hout
  rw [ctrStream_zeros cfg c _ hwf hnum, List.drop_left' hlen, Nat.succ_mul, List.range_add, List.map_append,
    List.drop_left' (by rw [List.length_map, List.length_range]), List.map_map] at hout
  refine Prod.ext hout.symm ?_
  dsimp only
  rw [masterAt, masterAt, hrun]
  rfl

/-- The key material of section `e`, as a key and a subkey (R255). -/
def sectionPair (cfg : Config) (c : Cipher) (g : CtrGen) (e : Nat) : Bytes × Bytes :=
  ((materialAt cfg c g e).take keyLen, (materialAt cfg c g e).drop keyLen)

theorem sectionMaterial_eq (cfg : Config) (c : Cipher) (key : Bytes) (n i : Nat) (t : BitVec 32) :
    sectionMaterial cfg c key n t.toNat i =
      sectionPair cfg c (masterInit c key t.toNat) (if n = 0 then 0 else i * bs c / n) := by
  have hsect : (masterInit c key t.toNat).sect.toNat = t.toNat := by rw [masterInit_toNat]
  rw [sectionPair, materialAt, hsect]
  rfl

/-- A context before block `i`, in section `e`: it has the section's key material, the master has moved past it, and `num`
counts the bytes of the section before block `i` (R247, R251). -/
structure InSection (cfg : Config) (c : Cipher) (g : CtrGen) (sec : BitVec 32) (i e : Nat) (o : OmacCtx) : Prop where
  mat    : HasMaterial c (sectionPair cfg c g e) o
  n      : o.n = sec
  master : o.master = some (masterAt cfg c g (e + 1))
  never  : sec.toNat = 0 → e = 0
  count  : sec.toNat ≠ 0 → e * sec.toNat + o.num.toNat = i * bs c ∧ o.num.toNat ≤ sec.toNat

section
variable {cfg : Config} {c : Cipher} {g : CtrGen} {sec : BitVec 32} {i e : Nat} {o : OmacCtx}

theorem InSection.due_iff (h : InSection cfg c g sec i e o) :
    omacMeshDue o = true ↔ sec.toNat ≠ 0 ∧ sec.toNat ≤ o.num.toNat := by
  have hacpkm : o.acpkm = true := by rw [OmacCtx.acpkm, h.master]; rfl
  rw [omacMeshDue_iff, h.n]
  exact and_iff_right hacpkm

/-- After the mesh step the context is in the section of block `i`, and there is room in it for the block (R251). -/
theorem InSection.meshCheck (h : InSection cfg c g sec i e o) (hwf : GenWf c g) (hnum : g.num = 0) :
    ∃ e', InSection cfg c g sec i e' (omacMeshCheck cfg o) ∧
      (sec.toNat ≠ 0 → (omacMeshCheck cfg o).num.toNat < sec.toNat) := by
  by_cases hdue : omacMeshDue o = true
  · obtain ⟨hne, hle⟩ := h.due_iff.mp hdue
    obtain ⟨hcount, hmax⟩ := h.count hne
    have hc : o.cipher = c := h.mat.cipher
    have hlen := length_materialAt cfg c g (e + 1)
    rw [omacMeshCheck_of_due cfg h.master (by rw [h.n]; exact hne) (by rw [h.n]; exact hle), hc,
      masterKeys_masterAt cfg c (e + 1) hwf hnum, slice_left_half, slice_right_half hlen]
    refine ⟨e + 1, ⟨⟨rfl, rfl, rfl, rfl⟩, h.n, rfl, fun h0 => absurd h0 hne, fun _ => ⟨?_, Nat.zero_le _⟩⟩,
      fun _ => Nat.pos_of_ne_zero hne⟩
    change (e + 1) * sec.toNat + 0 = i * bs c
    rw [← hcount, Nat.succ_mul]
    omega
  · rw [omacMeshCheck_of_not_due cfg (Bool.eq_false_iff.mpr hdue)]
    exact ⟨e, h, fun hne => Nat.lt_of_not_le fun hle => hdue (h.due_iff.mpr ⟨hne, hle⟩)⟩

/-- The section of block `i` is `i * BS / N` (R255). -/
theorem InSection.section_eq (h : InSection cfg c g sec i e o) (hroom : sec.toNat ≠ 0 → o.num.toNat < sec.toNat) :
    e = if sec.toNat = 0 then 0 else i * bs c / sec.toNat := by
  split
  · next h0 => exact h.never h0
  · next hne =>
    obtain ⟨hcount, -⟩ := h.count hne
    have hlt := hroom hne
    rw [← hcount]
    exact (Nat.div_eq_of_lt_le (by omega) (by rw [Nat.succ_mul]; omega)).symm

/-- Chaining a block counts it, within the section (R250). -/
theorem InSection.chained (h : InSection cfg c g sec i e o) (hroom : sec.toNat ≠ 0 → o.num.toNat < sec.toNat)
    (hsec : sec.toNat % bs c = 0) (x l : Bytes) (k : Nat) :
    InSection cfg c g sec (i + 1) e
      { o with chain := x, lbuf := l, nlast := k, num := o.num + BitVec.ofNat 64 (bs c) } := by
  refine ⟨⟨h.mat.cipher, h.mat.keyIs, h.mat.k1, h.mat.k2⟩, h.n, h.master, h.never, fun hne => ?_⟩
  obtain ⟨hcount, -⟩ := h.count hne
  have hlt := hroom hne
  have hpos := bs_pos c
  have hblocks : (o.num.toNat + bs c) ≤ sec.toNat := by
    obtain ⟨k, hk⟩ := Nat.dvd_of_mod_eq_zero hsec
    have hdvd : bs c ∣ e * sec.toNat + o.num.toNat := hcount ▸ Nat.dvd_mul_left (bs c) i
    obtain ⟨l, hl⟩ := (Nat.dvd_add_right ((Dvd.intro k hk.symm).mul_left e)).mp hdvd
    rw [hk, hl] at hlt ⊢
    exact Nat.mul_le_mul_left _ (Nat.lt_of_mul_lt_mul_left hlt)
  have hnum : (o.num + BitVec.ofNat 64 (bs c)).toNat = o.num.toNat + bs c := by
    have := sec.isLt
    rw [BitVec.toNat_add, BitVec.toNat_ofNat]
    omega
  change e * sec.toNat + (o.num + BitVec.ofNat 64 (bs c)).toNat = _ ∧ (o.num + BitVec.ofNat 64 (bs c)).toNat ≤ _
  rw [hnum, Nat.succ_mul]
  omega

end

/-- OMAC with ACPKM has the key material of each block's section (R255). -/
theorem omacSupply_acpkm (cfg : Config) (c : Cipher) {key : Bytes} {sec t : BitVec 32} (hkey : key.length = 32)
    (hsec : sec.toNat % bs c = 0) (ht : t.toNat % bs c = 0) :
    OmacSupply cfg c (sectionMaterial cfg c key sec.toNat t.toNat)
      fun i o => ∃ e, InSection cfg c (masterInit c key t.toNat) sec i e o := by
  have hwf : GenWf c (masterInit c key t.toNat) := genWf_masterInit c hkey (by rwa [BitVec.ofNat_toNat, BitVec.setWidth_eq])
  refine ⟨fun i o q ⟨e, h⟩ => ⟨e, ⟨h.mat.cipher, h.mat.keyIs, h.mat.k1, h.mat.k2⟩, h.n, h.master, h.never, h.count⟩,
    fun i o ⟨e, h⟩ => ?_, fun i o ⟨e, h⟩ => ?_⟩
  · obtain ⟨e', h', hroom⟩ := h.meshCheck hwf rfl
    rw [sectionMaterial_eq, ← h'.section_eq hroom]
    exact h'.mat
  · obtain ⟨e', h', hroom⟩ := h.meshCheck hwf rfl
    have hc : o.cipher = c := h.mat.cipher
    rw [omacChain, hc]
    exact ⟨e', h'.chained hroom hsec _ _ _⟩

/-- The command that begins a session of OMAC with ACPKM (R247). -/
theorem runsTo_omacInita {s : State} {n : BitVec 4} {c : Cipher} {key : Bytes} {sec t : BitVec 32} (hn : n.toNat < s.nctx)
    (hkey : key.length = 32) (hsec : sec.toNat % bs c = 0) (ht : t.toNat % bs c = 0) :
    ∃ o, RunsTo
        [.omacInita ⟨n, BitVec.ofNat 4 (cipherCode c), 0, key ++ bytesOf 4 sec.toNat ++ bytesOf 4 t.toNat⟩] s n (.omac o)
        [⟨.ok, []⟩] ∧
      OmacFresh o ∧ InSection s.cfg c (masterInit c key t.toNat) sec 0 0 o ∧ o.maclen = bs c := by
  have hcode := toNat_ofNat_cipherCode c
  have hN := initaN_append (r := bytesOf 4 t.toNat) sec hkey
  have hT := initaT_append t hkey (length_bytesOf 4 sec.toNat)
  have hpay : (key ++ bytesOf 4 sec.toNat ++ bytesOf 4 t.toNat).length = 40 := by
    rw [List.length_append, List.length_append, length_bytesOf, length_bytesOf, hkey]
  have hs : staticOk s.nctx (.omacInita ⟨n, BitVec.ofNat 4 (cipherCode c), 0,
      key ++ bytesOf 4 sec.toNat ++ bytesOf 4 t.toNat⟩) = true :=
    staticOk_create rfl ((sectionsOk_omacInita_iff hcode).mpr ⟨by rw [hN]; exact hsec, by rw [hT]; exact ht⟩)
      ⟨hn, hcode, rfl, hpay⟩
  have hinit := execOmacInita_of_staticOk hs hcode
  rw [keyOperand_of_inita hkey (List.append_assoc ..), hN, hT, BitVec.ofNat_toNat, BitVec.setWidth_eq] at hinit
  have hrun := RunsTo.cons (i := .omacInita _) hinit (.nil (holdsSlot_answeredWith_same _ _ _ hn))
  have hmaster : masterAt s.cfg c (masterInit c key t.toNat) 0 = masterInit c key t.toNat := by
    rw [masterAt, Nat.zero_mul]
    rfl
  have hkeys := masterKeys_masterAt s.cfg c 0
    (genWf_masterInit c hkey (by rwa [BitVec.ofNat_toNat, BitVec.setWidth_eq]) : GenWf c (masterInit c key t.toNat)) rfl
  rw [hmaster] at hkeys
  rw [hkeys, slice_left_half, slice_right_half (length_materialAt ..)] at hrun
  exact ⟨_, hrun, ⟨rfl, rfl, rfl, rfl⟩,
    ⟨⟨rfl, rfl, rfl, rfl⟩, rfl, rfl, fun _ => rfl, fun _ => ⟨by rw [Nat.zero_mul, Nat.zero_mul]; rfl, Nat.zero_le _⟩⟩,
    rfl⟩

theorem length_omacOf (cfg : Config) (c : Cipher) (km : Nat → Bytes × Bytes) (msg : Bytes) :
    (omacOf cfg c km msg).length = bs c := by
  rw [omacOf, length_encBlock]

/-- Settles O56: the command that begins, and a message whose every block has the key material of its section. -/
theorem omacClosedFormAcpkm : Obligations.OmacClosedFormAcpkm := by
  unfold Obligations.OmacClosedFormAcpkm
  intro s n c key sec t ps hn hkey hsec ht
  obtain ⟨o, ⟨u, hrun, hu, hcfg, hresp⟩, hnew, hin, hlen⟩ := runsTo_omacInita (s := s) hn hkey hsec ht
  have hsupply := omacSupply_acpkm u.cfg c hkey hsec ht
  rw [← hcfg] at hin
  obtain ⟨x, v, hrun', -, -, hresp'⟩ := hsupply.run ⟨0, hin⟩ hu hnew ps
  have htake := List.take_of_length_le
    (length_omacOf s.cfg c (sectionMaterial s.cfg c key sec.toNat t.toNat) ps.flatten).le
  refine ⟨v, ?_, ?_⟩
  · rw [← hrun', ← runCommands_append hrun, List.append_assoc]
  · rw [hresp', hresp, hcfg, hlen, htake, List.replicate_add]
    simp only [List.append_assoc]
    rfl

end Sys2Proof.Machine

/-! ### Blocks as polynomials over GF(2) (O22, O23, O24) -/

namespace Sys2Proof.Machine

section
open Polynomial

/-- The polynomial over GF(2) whose coefficient of `x^j` is bit `j` of a number, for the low `n` bits (R121). -/
noncomputable def bitsPoly (n v : Nat) : (ZMod 2)[X] := ∑ j ∈ Finset.range n, if v.testBit j then X ^ j else 0

theorem coeff_bitsPoly (n v k : Nat) : (bitsPoly n v).coeff k = if k < n ∧ v.testBit k = true then 1 else 0 := by
  have hterm : ∀ j, (if v.testBit j then X ^ j else 0 : (ZMod 2)[X]).coeff k =
      if k = j then (if v.testBit k then 1 else 0) else 0 := fun j => by
    by_cases hj : k = j
    · subst hj
      by_cases hb : v.testBit k = true <;> simp [hb]
    · by_cases hb : v.testBit j = true <;> simp [hb, hj, coeff_X_pow]
  rw [bitsPoly, finsetSum_coeff, Finset.sum_congr rfl fun j _ => hterm j, Finset.sum_ite_eq, ite_and]
  simp only [Finset.mem_range]

theorem degree_bitsPoly_lt (n v : Nat) : (bitsPoly n v).degree < n :=
  (degree_lt_iff_coeff_zero _ _).mpr fun k hk => by
    rw [coeff_bitsPoly, if_neg]
    exact fun h => absurd h.1 (Nat.not_lt.mpr hk)

/-- An indicator in GF(2) says whether its condition holds. -/
theorem ite_one_zero_inj {p q : Prop} [Decidable p] [Decidable q]
    (h : (if p then 1 else 0 : ZMod 2) = if q then 1 else 0) : p ↔ q := by
  by_cases hp : p
  · by_contra hn
    rw [if_pos hp, if_neg (fun hq => hn ⟨fun _ => hq, fun _ => hp⟩)] at h
    exact one_ne_zero h
  · by_contra hn
    rw [if_neg hp, if_pos (by_contra fun hq => hn ⟨fun h => absurd h hp, fun h => absurd h hq⟩)] at h
    exact zero_ne_one h

/-- A number below `2^n` is known by its polynomial. -/
theorem bitsPoly_injective {n v w : Nat} (hv : v < 2 ^ n) (hw : w < 2 ^ n) (h : bitsPoly n v = bitsPoly n w) : v = w := by
  refine Nat.eq_of_testBit_eq fun k => ?_
  rcases Nat.lt_or_ge k n with hk | hk
  · have hcoeff := congrArg (fun f => f.coeff k) h
    simp only [coeff_bitsPoly, hk, true_and] at hcoeff
    exact Bool.eq_iff_iff.mpr (ite_one_zero_inj hcoeff)
  · have hpow : 2 ^ n ≤ 2 ^ k := Nat.pow_le_pow_right (by decide) hk
    rw [Nat.testBit_lt_two_pow (hv.trans_le hpow), Nat.testBit_lt_two_pow (hw.trans_le hpow)]

theorem bitsPoly_zero_right (n : Nat) : bitsPoly n 0 = 0 := by
  ext k
  rw [coeff_bitsPoly, if_neg (by simp), coeff_zero]

/-- Only the low bits count. -/
theorem bitsPoly_mod (n v : Nat) : bitsPoly n (v % 2 ^ n) = bitsPoly n v := by
  ext k
  simp only [coeff_bitsPoly, Nat.testBit_mod_two_pow, Bool.and_eq_true, decide_eq_true_eq]
  congr 1
  exact propext ⟨fun h => ⟨h.1, h.2.2⟩, fun h => ⟨h.1, h.1, h.2⟩⟩

/-- More bits than a number has change nothing. -/
theorem bitsPoly_of_lt {m n v : Nat} (hmn : m ≤ n) (hv : v < 2 ^ m) : bitsPoly n v = bitsPoly m v := by
  ext k
  rw [coeff_bitsPoly, coeff_bitsPoly]
  congr 1
  refine propext ⟨fun h => ⟨?_, h.2⟩, fun h => ⟨by omega, h.2⟩⟩
  by_contra hk
  have hpow : 2 ^ m ≤ 2 ^ k := Nat.pow_le_pow_right (by decide) (Nat.not_lt.mp hk)
  rw [Nat.testBit_lt_two_pow (hv.trans_le hpow)] at h
  exact Bool.false_ne_true h.2

/-- Exclusive or is addition (R121). -/
theorem bitsPoly_xor (n v w : Nat) : bitsPoly n (v ^^^ w) = bitsPoly n v + bitsPoly n w := by
  have hadd : (1 : ZMod 2) + 1 = 0 := by decide
  ext k
  rw [coeff_add, coeff_bitsPoly, coeff_bitsPoly, coeff_bitsPoly, Nat.testBit_xor]
  by_cases hk : k < n <;> cases v.testBit k <;> cases w.testBit k <;> simp [hk, hadd]

/-- The lowest bit, and `x` times the others. -/
theorem bitsPoly_succ (n v : Nat) : bitsPoly (n + 1) v = (if v % 2 = 1 then 1 else 0) + X * bitsPoly n (v / 2) := by
  ext k
  cases k with
  | zero =>
    rw [coeff_add, mul_coeff_zero, coeff_X_zero, zero_mul, add_zero, coeff_bitsPoly, Nat.testBit_zero]
    by_cases h : v % 2 = 1 <;> simp [h]
  | succ k =>
    have hone : (if v % 2 = 1 then 1 else 0 : (ZMod 2)[X]).coeff (k + 1) = 0 := by
      by_cases h : v % 2 = 1 <;> simp [h, coeff_one]
    rw [coeff_add, hone, zero_add, coeff_X_mul, coeff_bitsPoly, coeff_bitsPoly, Nat.testBit_succ]
    simp only [Nat.add_lt_add_iff_right]

/-- Times `x`: shifted by one bit, and the bit that falls out is `x^n`. -/
theorem X_mul_bitsPoly (m v : Nat) :
    X * bitsPoly (m + 1) v = bitsPoly (m + 1) (2 * v) + if v.testBit m = true then X ^ (m + 1) else 0 := by
  have hlow : bitsPoly (m + 1) (2 * v) = X * bitsPoly m v := by
    rw [bitsPoly_succ, if_neg (by omega), zero_add, Nat.mul_div_cancel_left _ (by decide)]
  have htop : bitsPoly (m + 1) v = bitsPoly m v + if v.testBit m = true then X ^ m else 0 := by
    rw [bitsPoly, Finset.sum_range_succ]
    rfl
  rw [hlow, htop, mul_add, mul_ite, mul_zero, pow_succ']

/-! #### The modulus -/

/-- The modulus of the field of a cipher: `x^n` and the reduction constant (R120). -/
noncomputable def fieldModulus (c : Cipher) : (ZMod 2)[X] := X ^ (8 * bs c) + bitsPoly (8 * bs c) (reduction c)

theorem fieldModulus_monic (c : Cipher) : (fieldModulus c).Monic := monic_X_pow_add (degree_bitsPoly_lt ..)

theorem degree_fieldModulus (c : Cipher) : (fieldModulus c).degree = (8 * bs c : Nat) := by
  rw [fieldModulus, degree_add_eq_left_of_degree_lt, degree_X_pow]
  rw [degree_X_pow]
  exact degree_bitsPoly_lt ..

/-- `p64` and `p128` (R120). -/
theorem fieldModulus_magma : fieldModulus .magma = X ^ 64 + X ^ 4 + X ^ 3 + X + 1 := by
  have hred : bitsPoly 64 0x1B = X ^ 4 + X ^ 3 + X + 1 := by
    rw [bitsPoly_of_lt (m := 5) (by decide) (by decide)]
    simp [bitsPoly, Finset.sum_range_succ, Nat.testBit_eq_decide_div_mod_eq]
    ring
  have hn : 8 * bs .magma = 64 := rfl
  have hr : reduction .magma = 0x1B := rfl
  rw [fieldModulus, hn, hr, hred]
  ring

theorem fieldModulus_grasshopper : fieldModulus .grasshopper = X ^ 128 + X ^ 7 + X ^ 2 + X + 1 := by
  have hred : bitsPoly 128 0x87 = X ^ 7 + X ^ 2 + X + 1 := by
    rw [bitsPoly_of_lt (m := 8) (by decide) (by decide)]
    simp [bitsPoly, Finset.sum_range_succ, Nat.testBit_eq_decide_div_mod_eq]
    ring
  have hn : 8 * bs .grasshopper = 128 := rfl
  have hr : reduction .grasshopper = 0x87 := rfl
  rw [fieldModulus, hn, hr, hred]
  ring

/-! #### The field -/

/-- The element of the field that a number stands for. -/
noncomputable def fieldOf (c : Cipher) (v : Nat) : AdjoinRoot (fieldModulus c) :=
  AdjoinRoot.mk (fieldModulus c) (bitsPoly (8 * bs c) v)

theorem fieldOf_xor (c : Cipher) (v w : Nat) : fieldOf c (v ^^^ w) = fieldOf c v + fieldOf c w := by
  rw [fieldOf, bitsPoly_xor, map_add]
  rfl

theorem fieldOf_zero (c : Cipher) : fieldOf c 0 = 0 := by
  rw [fieldOf, bitsPoly_zero_right, map_zero]

theorem fieldOf_mod (c : Cipher) (v : Nat) : fieldOf c (v % 2 ^ (8 * bs c)) = fieldOf c v := by
  rw [fieldOf, bitsPoly_mod]
  rfl

/-- A number below `2^n` is known by its element. -/
theorem fieldOf_injective {c : Cipher} {v w : Nat} (hv : v < 2 ^ (8 * bs c)) (hw : w < 2 ^ (8 * bs c))
    (h : fieldOf c v = fieldOf c w) : v = w := by
  have hdeg : ∀ u, (bitsPoly (8 * bs c) u).degree < (fieldModulus c).degree := fun u => by
    rw [degree_fieldModulus]
    exact degree_bitsPoly_lt ..
  have hmonic := fieldModulus_monic c
  have hmod := modByMonic_eq_of_dvd_sub hmonic (AdjoinRoot.mk_eq_mk.mp h)
  rw [(modByMonic_eq_self_iff hmonic).mpr (hdeg v), (modByMonic_eq_self_iff hmonic).mpr (hdeg w)] at hmod
  exact bitsPoly_injective hv hw hmod

/-- `x^n` is the reduction constant (R120). -/
theorem root_pow_eq (c : Cipher) : AdjoinRoot.root (fieldModulus c) ^ (8 * bs c) = fieldOf c (reduction c) := by
  have hself : AdjoinRoot.root (fieldModulus c) ^ (8 * bs c) + fieldOf c (reduction c) = 0 := by
    rw [fieldOf, ← AdjoinRoot.mk_X, ← map_pow, ← map_add]
    exact AdjoinRoot.mk_self
  have htwice : fieldOf c (reduction c) + fieldOf c (reduction c) = 0 := by
    rw [← fieldOf_xor, Nat.xor_self, fieldOf_zero]
  exact (eq_neg_of_add_eq_zero_left hself).trans (neg_eq_of_add_eq_zero_left htwice)

/-- The shift with its reduction is multiplication by `x` (R122, R241). -/
theorem fieldOf_shiftReduce (c : Cipher) {v : Nat} (hv : v < 2 ^ (8 * bs c)) :
    fieldOf c (shiftReduce (8 * bs c) (reduction c) v) = AdjoinRoot.root (fieldModulus c) * fieldOf c v := by
  obtain ⟨m, hm⟩ : ∃ m, 8 * bs c = m + 1 := Nat.exists_eq_add_one.mpr (by have := bs_pos c; omega)
  have hpow : 2 ^ (8 * bs c) = 2 * 2 ^ m := by rw [hm, pow_succ']
  have hshift : AdjoinRoot.root (fieldModulus c) * fieldOf c v =
      fieldOf c (2 * v) + if v.testBit m = true then fieldOf c (reduction c) else 0 := by
    rw [← root_pow_eq, fieldOf, ← AdjoinRoot.mk_X, ← map_mul, fieldOf, hm, X_mul_bitsPoly, map_add]
    congr 1
    split
    · rw [map_pow]
    · rw [map_zero]
  rw [hshift, shiftReduce]
  split
  · next hlt => rw [Nat.testBit_lt_two_pow (by omega)]; simp
  · next hge =>
    rw [Nat.testBit_of_two_pow_le_and_two_pow_add_one_gt (by omega) (by rw [← hm]; exact hv), if_pos rfl, fieldOf_xor,
      fieldOf_mod]

theorem shiftReduce_lt (c : Cipher) (v : Nat) : shiftReduce (8 * bs c) (reduction c) v < 2 ^ (8 * bs c) := by
  have hred : reduction c < 2 ^ (8 * bs c) := by cases c <;> decide
  unfold shiftReduce
  split
  · assumption
  · exact Nat.xor_lt_two_pow (Nat.mod_lt _ (Nat.two_pow_pos _)) hred

/-- The loop of R122: to `r` is added the product of `x` and the bits of `y` still to do. -/
theorem fieldOf_gfLoop (c : Cipher) (todo : Nat) {x : Nat} (y r : Nat) (hx : x < 2 ^ (8 * bs c)) :
    fieldOf c (gfLoop (8 * bs c) (reduction c) todo x y r) =
      fieldOf c r + fieldOf c x * AdjoinRoot.mk (fieldModulus c) (bitsPoly todo y) := by
  induction todo generalizing x y r with
  | zero =>
    rw [gfLoop, bitsPoly, Finset.range_zero, Finset.sum_empty, map_zero, mul_zero, add_zero]
  | succ k ih =>
    rw [gfLoop, ih _ _ (shiftReduce_lt c x), fieldOf_shiftReduce c hx, bitsPoly_succ, map_add, map_mul, AdjoinRoot.mk_X]
    by_cases hbit : y % 2 = 1
    · rw [if_pos hbit, if_pos hbit, fieldOf_xor, map_one]
      ring
    · rw [if_neg hbit, if_neg hbit, map_zero]
      ring

/-- The element of the field that a block stands for (R121). -/
noncomputable def blockOf (c : Cipher) (b : Bytes) : AdjoinRoot (fieldModulus c) := fieldOf c (intOf b)

theorem intOf_lt_two_pow {c : Cipher} {b : Bytes} (h : b.length = bs c) : intOf b < 2 ^ (8 * bs c) := by
  rw [Nat.pow_mul, ← h]
  exact intOf_lt b

theorem blockOf_bytesOf (c : Cipher) (v : Nat) : blockOf c (bytesOf (bs c) v) = fieldOf c v := by
  have hpow : 256 ^ bs c = 2 ^ (8 * bs c) := (Nat.pow_mul 2 8 (bs c)).symm
  rw [blockOf, intOf_bytesOf, hpow, fieldOf_mod]

/-- A block is known by its element. -/
theorem blockOf_injective {c : Cipher} {a b : Bytes} (ha : a.length = bs c) (hb : b.length = bs c)
    (h : blockOf c a = blockOf c b) : a = b :=
  intOf_injective (ha.trans hb.symm) (fieldOf_injective (intOf_lt_two_pow ha) (intOf_lt_two_pow hb) h)

/-- The product of blocks is the product of the field (R122). -/
theorem blockOf_gfMul {c : Cipher} {a : Bytes} (b : Bytes) (ha : a.length = bs c) :
    blockOf c (gfMul c a b) = blockOf c a * blockOf c b := by
  rw [gfMul, blockOf_bytesOf, fieldOf_gfLoop c _ _ _ (intOf_lt_two_pow ha), fieldOf_zero, zero_add]
  rfl

/-- Settles O22: the product of blocks is the product of the field, whose elements are polynomials modulo `p64` or `p128`. -/
theorem gfMulIsTheFieldProduct : Obligations.GfMulIsTheFieldProduct := by
  unfold Obligations.GfMulIsTheFieldProduct
  intro c a b ha hb X' poly modulus
  have hmodulus : modulus = fieldModulus c := by
    cases c with
    | magma => simp only [fieldModulus_magma, modulus, X']
    | grasshopper => simp only [fieldModulus_grasshopper, modulus, X']
  have hmonic := fieldModulus_monic c
  have hprod : AdjoinRoot.mk (fieldModulus c) (poly (gfMul c a b)) = AdjoinRoot.mk (fieldModulus c) (poly a * poly b) :=
    (blockOf_gfMul b ha).trans (map_mul ..).symm
  have hdeg : (poly (gfMul c a b)).degree < (fieldModulus c).degree := by
    rw [degree_fieldModulus]
    exact degree_bitsPoly_lt ..
  rw [hmodulus, ← modByMonic_eq_of_dvd_sub hmonic (AdjoinRoot.mk_eq_mk.mp hprod),
    (modByMonic_eq_self_iff hmonic).mpr hdeg]

/-! #### Laws of the product -/

/-- The bits of a number in two parts. -/
theorem mul_two_pow_add_xor {m a b x y : Nat} (hx : x < 2 ^ m) (hy : y < 2 ^ m) :
    (a * 2 ^ m + x) ^^^ (b * 2 ^ m + y) = (a ^^^ b) * 2 ^ m + (x ^^^ y) := by
  refine Nat.eq_of_testBit_eq fun j => ?_
  rw [Nat.testBit_xor, Nat.mul_comm a, Nat.mul_comm b, Nat.mul_comm (a ^^^ b), Nat.testBit_two_pow_mul_add _ hx,
    Nat.testBit_two_pow_mul_add _ hy, Nat.testBit_two_pow_mul_add _ (Nat.xor_lt_two_pow hx hy)]
  split
  · exact (Nat.testBit_xor ..).symm
  · exact (Nat.testBit_xor ..).symm

/-- Xoring blocks is xoring their numbers. -/
theorem intOf_xorB {a b : Bytes} (h : a.length = b.length) : intOf (xorB a b) = intOf a ^^^ intOf b := by
  induction a generalizing b with
  | nil =>
    obtain rfl : b = [] := List.length_eq_zero_iff.mp h.symm
    rfl
  | cons x r ih =>
    obtain ⟨y, q, rfl⟩ := List.exists_cons_of_length_eq_add_one h.symm
    have hlen : r.length = q.length := Nat.succ.inj h
    have hpow : ∀ k, 256 ^ k = 2 ^ (8 * k) := fun k => (Nat.pow_mul 2 8 k).symm
    have hcons : xorB (x :: r) (y :: q) = (x ^^^ y) :: xorB r q := rfl
    have hr := intOf_lt r
    have hq := intOf_lt q
    rw [hpow] at hr hq
    rw [hcons, intOf_cons, intOf_cons, intOf_cons, ih hlen, length_xorB, ← hlen, Nat.min_self, hpow,
      mul_two_pow_add_xor hr (hlen ▸ hq), BitVec.toNat_xor]

theorem blockOf_xorB {c : Cipher} {a b : Bytes} (ha : a.length = bs c) (hb : b.length = bs c) :
    blockOf c (xorB a b) = blockOf c a + blockOf c b := by
  rw [blockOf, intOf_xorB (ha.trans hb.symm), fieldOf_xor]
  rfl

theorem intOf_zeros_append (k : Nat) (b : Byte) : intOf (zeros k ++ [b]) = b.toNat := by
  rw [intOf_append, intOf_zeros, Nat.zero_mul, Nat.zero_add, intOf_cons]
  simp

theorem blockOf_zeros (c : Cipher) (k : Nat) : blockOf c (zeros k) = 0 := by
  rw [blockOf, intOf_zeros, fieldOf_zero]

/-- The number 1 is the one of the field, and 2 is `x`. -/
theorem fieldOf_one (c : Cipher) : fieldOf c 1 = 1 := by
  have hone : bitsPoly (8 * bs c) 1 = 1 := by
    rw [bitsPoly_of_lt (m := 1) (by have := bs_pos c; omega) (by decide)]
    simp [bitsPoly]
  rw [fieldOf, hone, map_one]

theorem fieldOf_two (c : Cipher) : fieldOf c 2 = AdjoinRoot.root (fieldModulus c) := by
  have htwo : bitsPoly (8 * bs c) 2 = X := by
    rw [bitsPoly_of_lt (m := 2) (by have := bs_pos c; omega) (by decide)]
    simp [bitsPoly, Finset.sum_range_succ, Nat.testBit_eq_decide_div_mod_eq]
  rw [fieldOf, htwo, AdjoinRoot.mk_X]

/-- Settles O23: the laws of the field, read back on blocks. -/
theorem gfMulLaws : Obligations.GfMulLaws := by
  unfold Obligations.GfMulLaws
  intro c x y z hx hy hz
  have hxy : (xorB y z).length = bs c := by rw [length_xorB, hy, hz, Nat.min_self]
  have hone : blockOf c (zeros (bs c - 1) ++ [1]) = 1 := by
    rw [blockOf, intOf_zeros_append]
    exact fieldOf_one c
  refine ⟨blockOf_injective (length_gfMul ..) (length_gfMul ..) ?_, blockOf_injective (length_gfMul ..) (length_gfMul ..) ?_,
    blockOf_injective (length_gfMul ..) (by rw [length_xorB, length_gfMul, length_gfMul, Nat.min_self]) ?_,
    blockOf_injective (length_gfMul ..) (length_zeros _) ?_, blockOf_injective (length_gfMul ..) hx ?_⟩
  · rw [blockOf_gfMul _ hx, blockOf_gfMul _ hy, mul_comm]
  · rw [blockOf_gfMul _ (length_gfMul ..), blockOf_gfMul _ hx, blockOf_gfMul _ hx, blockOf_gfMul _ hy, mul_assoc]
  · rw [blockOf_gfMul _ hx, blockOf_xorB hy hz, blockOf_xorB (length_gfMul ..) (length_gfMul ..), blockOf_gfMul _ hx,
      blockOf_gfMul _ hx, mul_add]
  · rw [blockOf_gfMul _ hx, blockOf_zeros, mul_zero]
  · rw [blockOf_gfMul _ hx, hone, mul_one]

/-! #### Doubling -/

/-- Doubling is the shift with its reduction (R241). -/
theorem dbl_eq_shiftReduce {c : Cipher} {x : Bytes} (hx : x.length = bs c) :
    dbl c x = bytesOf (bs c) (shiftReduce (8 * bs c) (reduction c) (intOf x)) := by
  obtain ⟨m, hm⟩ : ∃ m, 8 * bs c = m + 1 := Nat.exists_eq_add_one.mpr (by have := bs_pos c; omega)
  have hlt := intOf_lt_two_pow hx
  have hpow : 2 ^ (8 * bs c) = 2 * 2 ^ m := by rw [hm, pow_succ']
  rw [dbl, shiftReduce, Nat.mul_comm (intOf x) 2, show 8 * bs c - 1 = m by omega]
  by_cases hsmall : 2 * intOf x < 2 ^ (8 * bs c)
  · have htop : intOf x / 2 ^ m = 0 := Nat.div_eq_of_lt (by omega)
    rw [if_pos hsmall, htop, if_neg (by decide), Nat.xor_zero, Nat.mod_eq_of_lt hsmall]
  · have htop : intOf x / 2 ^ m = 1 := Nat.div_eq_of_lt_le (by omega) (by omega)
    rw [if_neg hsmall, htop, if_pos (by decide)]

/-- The block of a number xored is the blocks xored. -/
theorem bytesOf_xor {k v w : Nat} (hw : w < 2 ^ (8 * k)) :
    bytesOf k (v % 2 ^ (8 * k) ^^^ w) = xorB (bytesOf k v) (bytesOf k w) := by
  have hpow : 256 ^ k = 2 ^ (8 * k) := (Nat.pow_mul 2 8 k).symm
  have hv : v % 2 ^ (8 * k) < 2 ^ (8 * k) := Nat.mod_lt _ (Nat.two_pow_pos _)
  refine intOf_injective (by rw [length_xorB, length_bytesOf, length_bytesOf, length_bytesOf, Nat.min_self]) ?_
  rw [intOf_xorB (by rw [length_bytesOf, length_bytesOf]), intOf_bytesOf, intOf_bytesOf, intOf_bytesOf, hpow,
    Nat.mod_eq_of_lt (Nat.xor_lt_two_pow hv hw), Nat.mod_eq_of_lt hw]

/-- The reduction constant as a block (R241). -/
theorem bytesOf_reduction (c : Cipher) :
    bytesOf (bs c) (reduction c) = zeros (bs c - 1) ++ [if c = .magma then 0x1B else 0x87] := by
  cases c <;> rfl

/-- Settles O24: the rule is the shift with its reduction, which is multiplication by `x`. -/
theorem doublingIsMultiplicationByX : Obligations.DoublingIsMultiplicationByX := by
  unfold Obligations.DoublingIsMultiplicationByX
  intro c x hx
  have hred : reduction c < 2 ^ (8 * bs c) := by cases c <;> decide
  have htwo : blockOf c (zeros (bs c - 1) ++ [2]) = AdjoinRoot.root (fieldModulus c) := by
    rw [blockOf, intOf_zeros_append]
    exact fieldOf_two c
  refine ⟨fun htop => ?_, fun htop => ?_, blockOf_injective (length_dbl ..) (length_gfMul ..) ?_⟩
  · rw [Nat.testBit_eq_decide_div_mod_eq, decide_eq_false_iff_not] at htop
    rw [dbl, if_neg htop, Nat.xor_zero, bytesOf_mod_two_pow]
  · rw [Nat.testBit_eq_decide_div_mod_eq, decide_eq_true_eq] at htop
    rw [dbl, if_pos htop, bytesOf_xor hred, bytesOf_reduction]
  · rw [blockOf_gfMul _ hx, htwo, dbl_eq_shiftReduce hx, blockOf_bytesOf, fieldOf_shiftReduce c (intOf_lt_two_pow hx),
      mul_comm]
    rfl

end

end Sys2Proof.Machine

/-! ### The standardized ciphers undo themselves (O20) -/

namespace Sys2Proof.Machine

/-! #### Magma -/

theorem xor_xor_cancel_left (g a : BitVec 32) : g ^^^ (g ^^^ a) = a := by
  rw [← BitVec.xor_assoc, BitVec.xor_self, BitVec.zero_xor]

theorem magmaRound_mk (a b rk : BitVec 32) : magmaRound (a, b) rk = (b, magmaG rk b ^^^ a) := by
  rw [magmaRound]

/-- A round on the two words swapped undoes the round (G1). -/
theorem magmaRound_swap (s : BitVec 32 × BitVec 32) (rk : BitVec 32) :
    magmaRound (magmaRound s rk).swap rk = s.swap := by
  obtain ⟨a, b⟩ := s
  rw [magmaRound_mk, Prod.swap_prod_mk, magmaRound_mk, xor_xor_cancel_left, Prod.swap_prod_mk]

/-- The rounds under the keys in reverse, on the two words swapped, undo the rounds (G1). -/
theorem magmaRound_reverse (rks : List (BitVec 32)) (s : BitVec 32 × BitVec 32) :
    rks.reverse.foldl magmaRound (rks.foldl magmaRound s).swap = s.swap := by
  induction rks generalizing s with
  | nil => rfl
  | cons rk rest ih =>
    have hrest := ih (magmaRound s rk)
    rw [List.reverse_cons, List.foldl_concat, List.foldl_cons, hrest, magmaRound_swap]

/-- The two words of a block, and the block of two words. -/
def magmaWordsOf (x : Bytes) : BitVec 32 × BitVec 32 :=
  (BitVec.ofNat 32 (intOf (slice x 0 4)), BitVec.ofNat 32 (intOf (slice x 4 8)))

theorem magmaCrypt_eq (rks : List (BitVec 32)) (x : Bytes) :
    magmaCrypt rks x =
      bytesOf 4 (rks.foldl magmaRound (magmaWordsOf x)).2.toNat ++ bytesOf 4 (rks.foldl magmaRound (magmaWordsOf x)).1.toNat := by
  rw [magmaCrypt, magmaWordsOf]

theorem length_magmaCrypt (rks : List (BitVec 32)) (x : Bytes) : (magmaCrypt rks x).length = 8 := by
  rw [magmaCrypt_eq, List.length_append, length_bytesOf, length_bytesOf]

theorem ofNat_intOf_bytesOf (v : BitVec 32) : BitVec.ofNat 32 (intOf (bytesOf 4 v.toNat)) = v := by
  rw [intOf_bytesOf_toNat, BitVec.ofNat_toNat, BitVec.setWidth_eq]

theorem magmaWordsOf_append (v w : BitVec 32) : magmaWordsOf (bytesOf 4 v.toNat ++ bytesOf 4 w.toNat) = (v, w) := by
  have hleft : slice (bytesOf 4 v.toNat ++ bytesOf 4 w.toNat) 0 4 = bytesOf 4 v.toNat :=
    slice_append_left _ (length_bytesOf ..)
  have hright := slice_append_right (bytesOf 4 v.toNat) (bytesOf 4 w.toNat) 0 4
  rw [length_bytesOf, slice_zero_length (length_bytesOf ..)] at hright
  rw [magmaWordsOf, hleft, hright, ofNat_intOf_bytesOf, ofNat_intOf_bytesOf]

theorem append_magmaWordsOf {x : Bytes} (h : x.length = 8) :
    bytesOf 4 (magmaWordsOf x).1.toNat ++ bytesOf 4 (magmaWordsOf x).2.toNat = x := by
  have hword : ∀ b : Bytes, b.length = 4 → bytesOf 4 (BitVec.ofNat 32 (intOf b)).toNat = b := fun b hb => by
    rw [BitVec.toNat_ofNat]
    exact (bytesOf_mod_two_pow 4 _).trans (bytesOf_intOf_of_length hb)
  have hleft := hword (slice x 0 4) (by rw [slice_left_half, List.length_take]; omega)
  have hright := hword (slice x 4 8) (by rw [slice_right_half h, List.length_drop]; omega)
  rw [magmaWordsOf, hleft, hright, slice_left_half, slice_right_half h, List.take_append_drop]

/-- The cipher under the keys in reverse undoes it (G1). -/
theorem magmaCrypt_reverse (rks : List (BitVec 32)) {x : Bytes} (h : x.length = 8) :
    magmaCrypt rks.reverse (magmaCrypt rks x) = x := by
  have hswap := magmaRound_reverse rks (magmaWordsOf x)
  rw [magmaCrypt_eq rks.reverse, magmaCrypt_eq rks, magmaWordsOf_append]
  exact (congrArg (fun s : BitVec 32 × BitVec 32 => bytesOf 4 s.2.toNat ++ bytesOf 4 s.1.toNat) hswap).trans
    (append_magmaWordsOf h)

/-! #### Grasshopper: the substitution -/

/-- The inverse of the substitution table, in rows as `ghPiRow`. -/
def ghPiBackRow : Nat → Nat
  | 0 => 0xa52d328f0e3038c054e69e39557e5291
  | 1 => 0x6403575a1c6007182172a8d129c6a43f
  | 2 => 0xe0278d0c82eaaeb49a6349e542e415b7
  | 3 => 0xc806709d417519c9aafc4dbf2a7384d5
  | 4 => 0xc3af2b86a7b1b25b46d39ffdd40f9c2f
  | 5 => 0x9b43efd979b6537fc1f023e7255eb51e
  | 6 => 0xa2dfa6feac22f9e24abc35caee78056b
  | 7 => 0x51e159a3f27156116a8994658cbb773c
  | 8 => 0x7b28abd231dec45fcccf762cb8d82e36
  | 9 => 0xdb69b31495be62a13b1666e95c6c6dad
  | 10 => 0x37614bb9e3baf1a08583da47c5b033fa
  | 11 => 0x966f6ec2f650ff5da98e171b977dec58
  | 12 => 0xf71ffb7c090d7a674587dce84f1d4e04
  | 13 => 0xebf8f33e3dbd8a88ddcd0b1398029380
  | 14 => 0x90d02434cbedf4ce99104440923a0126
  | 15 => 0x121a4868f5818bc7d6200a08004cd774
  | _ => 0

/-- The byte that the substitution sends to `b`, read off the inverse table. -/
def ghPiBack (b : Byte) : Byte :=
  BitVec.ofNat 8 (ghPiBackRow (b.toNat / 16) / 256 ^ (15 - b.toNat % 16))

theorem ghPiBack_ghPi_ofNat : ∀ i < 256, ghPiBack (ghPi (BitVec.ofNat 8 i)) = BitVec.ofNat 8 i := by
  decide +kernel

theorem ofNat_toNat_byte (b : Byte) : BitVec.ofNat 8 b.toNat = b := by
  rw [BitVec.ofNat_toNat, BitVec.setWidth_eq]

/-- No two bytes have the same substitute. -/
theorem ghPi_injective : Function.Injective ghPi :=
  Function.LeftInverse.injective (g := ghPiBack) fun b => by
    have h := ghPiBack_ghPi_ofNat b.toNat b.isLt
    rwa [ofNat_toNat_byte] at h

/-- The search finds the byte itself (G1). -/
theorem ghPiInv_ghPi (b : Byte) : ghPiInv (ghPi b) = b := by
  have hlen : b.toNat < (List.range 256).length := by
    rw [List.length_range]
    exact b.isLt
  have hfound : (List.range 256).findIdx (fun v => ghPi (BitVec.ofNat 8 v) == ghPi b) = b.toNat := by
    refine (List.findIdx_eq hlen).mpr ⟨?_, fun j hj => ?_⟩
    · rw [List.getElem_range, ofNat_toNat_byte]
      exact beq_self_eq_true _
    · rw [List.getElem_range, beq_eq_false_iff_ne]
      intro he
      have hlt := b.isLt
      have hnat := congrArg BitVec.toNat (ghPi_injective he)
      rw [BitVec.toNat_ofNat, Nat.mod_eq_of_lt (by omega)] at hnat
      omega
  rw [ghPiInv, hfound, ofNat_toNat_byte]

/-- The substitution has 256 values, so it undoes the table as well. -/
theorem ghPi_ghPiInv (b : Byte) : ghPi (ghPiInv b) = b := by
  obtain ⟨v, rfl⟩ := Finite.injective_iff_surjective.mp ghPi_injective b
  rw [ghPiInv_ghPi]

theorem ghSInv_ghS (a : Bytes) : ghSInv (ghS a) = a := by
  rw [ghSInv, ghS, List.map_map]
  exact (List.map_congr_left fun b _ => ghPiInv_ghPi b).trans (List.map_id a)

theorem ghS_ghSInv (a : Bytes) : ghS (ghSInv a) = a := by
  rw [ghSInv, ghS, List.map_map]
  exact (List.map_congr_left fun b _ => ghPi_ghPiInv b).trans (List.map_id a)

@[simp] theorem length_ghS (a : Bytes) : (ghS a).length = a.length := List.length_map ..

@[simp] theorem length_ghSInv (a : Bytes) : (ghSInv a).length = a.length := List.length_map ..

/-! #### Grasshopper: the linear step -/

theorem ghMulLoop_zero (n a : Nat) : ghMulLoop n 0 a = 0 := by
  induction n generalizing a with
  | zero => rfl
  | succ n ih =>
    have hbit : ¬ 0 % 2 = 1 := by decide
    rw [ghMulLoop, Nat.zero_div, ih, if_neg hbit, Nat.xor_self]

theorem ghMul_one (a : Nat) : ghMul 1 a = a := by
  have hloop : ghMul 1 a = a ^^^ ghMulLoop 7 0 (gh2 a) := rfl
  rw [hloop, ghMulLoop_zero, Nat.xor_zero]

/-- The coefficient of the last byte is 1, so `l` is the last byte xored with what the others give (G1). -/
theorem ghLin_append {t : Bytes} (h : t.length = 15) : ∃ p, ∀ x, ghLin (t ++ [x]) = p ^^^ x := by
  refine ⟨BitVec.ofNat 8 ((List.zipWith (fun c x => ghMul c x.toNat) (ghCoeffs.take 15) t).foldl (fun s v => s ^^^ v) 0),
    fun x => ?_⟩
  have hcoeffs : ghCoeffs = ghCoeffs.take 15 ++ [1] := rfl
  rw [ghLin, hcoeffs, List.zipWith_append (by rw [h]; rfl), List.foldl_append, List.zipWith_cons_cons, List.zipWith_nil_left,
    List.foldl_cons, List.foldl_nil, ghMul_one, BitVec.ofNat_xor, BitVec.ofNat_toNat, BitVec.setWidth_eq]
  rfl

theorem length_ghR {a : Bytes} (h : a.length = 16) : (ghR a).length = 16 := by
  rw [ghR, List.length_cons, List.length_take, h]
  rfl

theorem length_ghRInv {a : Bytes} (h : a.length = 16) : (ghRInv a).length = 16 := by
  rw [ghRInv, List.length_append, List.length_drop, h]
  rfl

theorem xor_byte_cancel_left (p x : Byte) : p ^^^ (p ^^^ x) = x := by
  rw [← BitVec.xor_assoc, BitVec.xor_self, BitVec.zero_xor]

theorem ghRInv_ghR {a : Bytes} (h : a.length = 16) : ghRInv (ghR a) = a := by
  obtain rfl | ⟨t, x, rfl⟩ := List.eq_nil_or_concat' a
  · exact absurd h (by decide)
  · have ht : t.length = 15 := by
      rw [List.length_append] at h
      exact Nat.succ.inj h
    obtain ⟨p, hp⟩ := ghLin_append ht
    have hR : ghR (t ++ [x]) = (p ^^^ x) :: t := by rw [ghR, hp, List.take_left' ht]
    rw [hR, ghRInv, List.drop_one, List.tail_cons, List.take_succ_cons, List.take_zero, hp, xor_byte_cancel_left]

theorem ghR_ghRInv {a : Bytes} (h : a.length = 16) : ghR (ghRInv a) = a := by
  obtain ⟨y, t, rfl⟩ := List.exists_cons_of_length_eq_add_one h
  have ht : t.length = 15 := Nat.succ.inj h
  obtain ⟨p, hp⟩ := ghLin_append ht
  have hR : ghRInv (y :: t) = t ++ [p ^^^ y] := by
    rw [ghRInv, List.drop_one, List.tail_cons, List.take_succ_cons, List.take_zero, hp]
  rw [hR, ghR, hp, xor_byte_cancel_left, List.take_left' ht]

theorem iterate_succ_outer (f : Bytes → Bytes) (n : Nat) (a : Bytes) : iterate f (n + 1) a = f (iterate f n a) := by
  induction n generalizing a with
  | zero => rfl
  | succ n ih => rw [iterate, ih, ← iterate]

theorem length_iterate {f : Bytes → Bytes} {k : Nat} (hf : ∀ a, a.length = k → (f a).length = k) (n : Nat) {a : Bytes}
    (h : a.length = k) : (iterate f n a).length = k := by
  induction n generalizing a with
  | zero => exact h
  | succ n ih => exact ih (hf a h)

/-- What undoes one application undoes as many as there were. -/
theorem iterate_iterate {f g : Bytes → Bytes} {k : Nat} (hg : ∀ a, a.length = k → (g a).length = k)
    (hfg : ∀ a, a.length = k → f (g a) = a) (n : Nat) {a : Bytes} (h : a.length = k) :
    iterate f n (iterate g n a) = a := by
  induction n generalizing a with
  | zero => rfl
  | succ n ih => rw [iterate_succ_outer, iterate, ih (hg a h), hfg a h]

theorem length_ghL {a : Bytes} (h : a.length = 16) : (ghL a).length = 16 := length_iterate (fun _ => length_ghR) 16 h

theorem length_ghLInv {a : Bytes} (h : a.length = 16) : (ghLInv a).length = 16 := length_iterate (fun _ => length_ghRInv) 16 h

theorem ghLInv_ghL {a : Bytes} (h : a.length = 16) : ghLInv (ghL a) = a :=
  iterate_iterate (fun _ => length_ghR) (fun _ => ghRInv_ghR) 16 h

theorem ghL_ghLInv {a : Bytes} (h : a.length = 16) : ghL (ghLInv a) = a :=
  iterate_iterate (fun _ => length_ghRInv) (fun _ => ghR_ghRInv) 16 h

/-! #### Grasshopper: the rounds -/

theorem length_xorB_of {a b : Bytes} {k : Nat} (ha : a.length = k) (hb : b.length = k) : (xorB a b).length = k := by
  rw [length_xorB, ha, hb, Nat.min_self]

theorem ghEncRounds_singleton (k s : Bytes) : ghEncRounds [k] s = xorB s k := rfl

theorem ghDecRounds_singleton (k s : Bytes) : ghDecRounds [k] s = xorB s k := rfl

theorem ghEncRounds_cons_cons (k k' s : Bytes) (ks : List Bytes) :
    ghEncRounds (k :: k' :: ks) s = ghEncRounds (k' :: ks) (ghL (ghS (xorB s k))) := rfl

theorem ghDecRounds_cons_cons (k k' s : Bytes) (ks : List Bytes) :
    ghDecRounds (k :: k' :: ks) s = xorB (ghSInv (ghLInv (ghDecRounds (k' :: ks) s))) k := rfl

theorem length_ghEncRounds {ks : List Bytes} {s : Bytes} (hks : ∀ k ∈ ks, k.length = 16) (hs : s.length = 16) :
    (ghEncRounds ks s).length = 16 := by
  induction ks generalizing s with
  | nil => exact hs
  | cons k rest ih =>
    obtain ⟨hk, hrest⟩ := List.forall_mem_cons.mp hks
    have hx := length_xorB_of hs hk
    cases rest with
    | nil => exact hx
    | cons k' rest => exact ih hrest (length_ghL ((length_ghS _).trans hx))

theorem length_ghDecRounds {ks : List Bytes} {s : Bytes} (hks : ∀ k ∈ ks, k.length = 16) (hs : s.length = 16) :
    (ghDecRounds ks s).length = 16 := by
  induction ks with
  | nil => exact hs
  | cons k rest ih =>
    obtain ⟨hk, hrest⟩ := List.forall_mem_cons.mp hks
    cases rest with
    | nil => exact length_xorB_of hs hk
    | cons k' rest => exact length_xorB_of ((length_ghSInv _).trans (length_ghLInv (ih hrest))) hk

/-- Decryption undoes the rounds of encryption, the last one first (G1). -/
theorem ghDecRounds_ghEncRounds {ks : List Bytes} {s : Bytes} (hks : ∀ k ∈ ks, k.length = 16) (hs : s.length = 16) :
    ghDecRounds ks (ghEncRounds ks s) = s := by
  induction ks generalizing s with
  | nil => rfl
  | cons k rest ih =>
    obtain ⟨hk, hrest⟩ := List.forall_mem_cons.mp hks
    have hx : (xorB s k).length = 16 := length_xorB_of hs hk
    have hS : (ghS (xorB s k)).length = 16 := (length_ghS _).trans hx
    cases rest with
    | nil => rw [ghEncRounds_singleton, ghDecRounds_singleton, xorB_cancel (hs.trans hk.symm)]
    | cons k' rest =>
      rw [ghEncRounds_cons_cons, ghDecRounds_cons_cons, ih hrest (length_ghL hS), ghLInv_ghL hS, ghSInv_ghS,
        xorB_cancel (hs.trans hk.symm)]

/-- Encryption undoes decryption. -/
theorem ghEncRounds_ghDecRounds {ks : List Bytes} {s : Bytes} (hks : ∀ k ∈ ks, k.length = 16) (hs : s.length = 16) :
    ghEncRounds ks (ghDecRounds ks s) = s := by
  induction ks with
  | nil => rfl
  | cons k rest ih =>
    obtain ⟨hk, hrest⟩ := List.forall_mem_cons.mp hks
    cases rest with
    | nil => rw [ghEncRounds_singleton, ghDecRounds_singleton, xorB_cancel (hs.trans hk.symm)]
    | cons k' rest =>
      have hd := length_ghDecRounds hrest hs
      have hS : (ghSInv (ghLInv (ghDecRounds (k' :: rest) s))).length = 16 := (length_ghSInv _).trans (length_ghLInv hd)
      rw [ghDecRounds_cons_cons, ghEncRounds_cons_cons, xorB_cancel (hS.trans hk.symm), ghS_ghSInv, ghL_ghLInv hd,
        ih hrest]

/-! #### Grasshopper: the round keys -/

/-- Both halves of a pair of round keys are blocks. -/
def PairOfBlocks (p : Bytes × Bytes) : Prop := p.1.length = 16 ∧ p.2.length = 16

theorem pairOfBlocks_ghF {p : Bytes × Bytes} (h : PairOfBlocks p) (i : Nat) : PairOfBlocks (ghF p i) := by
  obtain ⟨h1, h2⟩ := h
  have hC : (ghC i).length = 16 := length_ghL (length_bytesOf ..)
  have hS : (ghS (xorB p.1 (ghC i))).length = 16 := (length_ghS _).trans (length_xorB_of h1 hC)
  exact ⟨length_xorB_of (length_ghL hS) h2, h1⟩

theorem pairOfBlocks_ghNextPair {p : Bytes × Bytes} (h : PairOfBlocks p) (first : Nat) : PairOfBlocks (ghNextPair p first) := by
  rw [ghNextPair]
  exact List.foldlRecOn _ _ h fun _ hq i _ => pairOfBlocks_ghF hq i

theorem forall_mem_of_pairs {p1 p2 p3 p4 p5 : Bytes × Bytes} (h1 : PairOfBlocks p1) (h2 : PairOfBlocks p2)
    (h3 : PairOfBlocks p3) (h4 : PairOfBlocks p4) (h5 : PairOfBlocks p5) :
    ∀ r ∈ [p1.1, p1.2, p2.1, p2.2, p3.1, p3.2, p4.1, p4.2, p5.1, p5.2], r.length = 16 := by
  simp only [List.forall_mem_cons, h1.1, h1.2, h2.1, h2.2, h3.1, h3.2, h4.1, h4.2, h5.1, h5.2, List.not_mem_nil,
    false_imp_iff, implies_true, and_self]

/-- Every round key is a block (G1). -/
theorem length_ghRoundKeys {k : Bytes} (hk : k.length = 32) : ∀ r ∈ ghRoundKeys k, r.length = 16 := by
  have h1 : PairOfBlocks (slice k 0 16, slice k 16 32) :=
    ⟨by rw [length_slice, hk]; rfl, by rw [length_slice, hk]; rfl⟩
  have h2 := pairOfBlocks_ghNextPair h1 1
  have h3 := pairOfBlocks_ghNextPair h2 9
  have h4 := pairOfBlocks_ghNextPair h3 17
  exact forall_mem_of_pairs h1 h2 h3 h4 (pairOfBlocks_ghNextPair h4 25)

/-! #### The law -/

theorem encBlock_std_magma (k x : Bytes) : encBlock .std .magma k x = magmaCrypt (magmaRoundKeys k) x :=
  fit_of_length (length_magmaCrypt ..)

theorem decBlock_std_magma (k x : Bytes) : decBlock .std .magma k x = magmaCrypt (magmaRoundKeys k).reverse x :=
  fit_of_length (length_magmaCrypt ..)

theorem encBlock_std_grasshopper {k x : Bytes} (hk : k.length = 32) (hx : x.length = 16) :
    encBlock .std .grasshopper k x = ghEncRounds (ghRoundKeys k) x :=
  fit_of_length (length_ghEncRounds (length_ghRoundKeys hk) hx)

theorem decBlock_std_grasshopper {k x : Bytes} (hk : k.length = 32) (hx : x.length = 16) :
    decBlock .std .grasshopper k x = ghDecRounds (ghRoundKeys k) x :=
  fit_of_length (length_ghDecRounds (length_ghRoundKeys hk) hx)

/-- Settles O20: Magma undoes itself round by round on the words swapped, Grasshopper round by round from the last. -/
theorem stdObeysTheLaw : Obligations.StdObeysTheLaw := by
  unfold Obligations.StdObeysTheLaw
  intro c k x hk hx
  cases c with
  | magma =>
    have hback := magmaCrypt_reverse (magmaRoundKeys k).reverse hx
    rw [List.reverse_reverse] at hback
    rw [encBlock_std_magma, decBlock_std_magma, decBlock_std_magma, encBlock_std_magma]
    exact ⟨magmaCrypt_reverse (magmaRoundKeys k) hx, hback⟩
  | grasshopper =>
    have hkeys := length_ghRoundKeys hk
    rw [encBlock_std_grasshopper hk hx, decBlock_std_grasshopper hk hx,
      decBlock_std_grasshopper hk (length_ghEncRounds hkeys hx), encBlock_std_grasshopper hk (length_ghDecRounds hkeys hx)]
    exact ⟨ghDecRounds_ghEncRounds hkeys hx, ghEncRounds_ghDecRounds hkeys hx⟩

end Sys2Proof.Machine
